-- ==== Sys2Proof/Word.lean ====
section
/-! DEFINITION. The word types of the machine (00_scope R7, 30_encoding R81): whole bytes and the
multi-byte values made of them. Program counter and stack pointer are unbounded integers (00_scope R6)
and use `Int`. -/

namespace Sys2Proof

/-- A register value, an immediate, a memory byte (00_scope R7). -/
abbrev Byte := BitVec 8

/-- `abs16`, `fid16`, `len16`, `u16f` and `ptr16` fields (30_encoding R81). -/
abbrev U16 := BitVec 16

/-- `maddr24` fields (30_encoding R81). -/
abbrev U24 := BitVec 24

/-- `daddr32` fields (30_encoding R81). -/
abbrev U32 := BitVec 32

end Sys2Proof
end

