-- ==== Sys2Proof/Config.lean ====
section
/-! DEFINITION. The parameters of a machine (00_scope R5), and what its environment leaves free
(60_exceptions R290). The spec's defaults are `Params.standard` in Machine/Parameters.lean. -/

namespace Sys2Proof

/-- CARRY_POLICY (00_scope R5, 41_arithmetic R140 and R141). A machine has one
(log entry 8). -/
inductive CarryPolicy where
  /-- A carry or a borrow sets `C`, nothing arithmetic clears it: the spec's default. -/
  | sticky
  /-- Every addition and subtraction writes `C`. -/
  | overwrite
deriving DecidableEq, Repr, Inhabited

/-- The host's input sample of one cycle (00_scope R11). -/
structure InputSample where
  key     : Byte
  mouseX  : U16
  mouseY  : U16
  screenW : U16
  screenH : U16
deriving DecidableEq, Repr, Inhabited

/-- What happens next at a cycle boundary (00_scope R11 to R17, 60_exceptions R290): which agent moves,
and with what the host supplies. One step of the machine takes one event (log entry 1). -/
inductive HostEvent where
  /-- The engine may run one cycle, with this sample (00_scope R11, 10_state R23). -/
  | cycle (sample : InputSample)
  /-- The checkpoint timer ticks (00_scope R15). -/
  | tick
  /-- The persistence controller begins the write at the head of its FIFO (60_exceptions R284). -/
  | serve
  /-- The backing store answers `committed` (00_scope R14). -/
  | committed
  /-- The backing store answers `io_error` (00_scope R14). -/
  | ioError
  /-- The display is ready for the next frame (00_scope R13). -/
  | frameReady
  /-- The host terminates the block (00_scope R17). -/
  | terminate
deriving DecidableEq, Repr, Inhabited

/-- The operations that OPCODE_MAP gives a code (30_encoding R90), named as their instructions are. -/
inductive Operation where
  -- Data movement and stack, 0x00 to 0x0C
  | ldv | lda | sta | mov | lvz | lvnz | psh | psv | pop | popm | ldo | sto | sva
  -- Arithmetic and carry, 0x10 to 0x1D
  | add | addv | sub | subv | add3 | addv3 | sub3 | subv3 | inc | dec | adc | sbc | ccf | scf
  -- Control flow, 0x30 to 0x37
  | jmp | jpz | jpnz | fnc | ret | cal | clz | clnz
  -- Wide math, 0x40 and 0x41
  | mlt | div
  -- Drive, 0x60 to 0x64
  | std | svd | ldtm | ldml | smdl
  -- Presentation, 0x80 to 0x8A
  | txr | txl | rct | crc | cls | lne | mtxr | mtxl | mrct | mcrc | mlne
  -- Termination signals, 0xFE and 0xFF
  | ext | hlt
deriving DecidableEq, Repr, Inhabited

/-- OPCODE_MAP: the opcode byte of each operation, one row each (00_scope R5, 93 U19). A byte without a row
is unassigned (30_encoding R87). -/
abbrev OpcodeMap := List (Byte × Operation)

/-- The parameters of a machine that the spec leaves open (00_scope R5, 92 "Open parameters", 93 U19, U20,
U22 and U23); DRIVE_LEN is the length of the Drive itself. A machine has one value of each, kept in its
State (log entries 8 and 12). -/
structure Params where
  /-- MEM_SIZE. -/
  memSize            : Nat
  /-- IO_BASE, the first memory-mapped input address. -/
  ioBase             : Nat
  /-- CODE_BASE, where the code image is loaded. -/
  codeBase           : Nat
  /-- SP_RESET. -/
  spReset            : Int
  /-- EXT_NEXT_PC. -/
  extNextPc          : Int
  /-- CHECKPOINT_INTERVAL in seconds of wall-clock time. No rule depends on it (60_exceptions R287): ticks
  are host events. -/
  checkpointInterval : Nat
  /-- CARRY_POLICY. -/
  carryPolicy        : CarryPolicy
  /-- OPCODE_MAP. -/
  opcodeMap          : OpcodeMap
deriving DecidableEq, Repr, Inhabited

/-- The largest Drive: 32-bit addresses reach no more (00_scope R5, 60_exceptions R265). -/
def Config.maxDriveLen : Nat := 4294967296

/-- The free draw of the host and the scheduler once the events listed in State are used up
(20_memory R58, 93 U11 to U17 and U24): nothing is known of it (log entry 1). -/
opaque Config.hostEvent : Nat → HostEvent

end Sys2Proof
end

