-- ==== Sys2Proof/Syntax.lean ====
section
/-! DEFINITION. The instructions (30_encoding R90), one constructor for each mnemonic of the opcode
table, fields in the order of the table's layout. A `reg` operand is its whole byte: a byte above 7 is
an operand the instruction faults on (R86), not an encoding that does not exist (R88; log entry 14). -/

namespace Sys2Proof

/-- A colour, passed on as its four bytes (30_encoding R81, 45_presentation R230). -/
structure Rgba where
  r : Byte
  g : Byte
  b : Byte
  a : Byte
deriving DecidableEq, Repr, Inhabited

/-- The instructions of 30_encoding R90; `unassigned` is every opcode of R87. -/
inductive Instr where
  -- Data movement and stack, 0x00 to 0x0C
  | ldv (rd imm : Byte)
  | lda (rd : Byte) (addr : U16)
  | sta (rs : Byte) (addr : U16)
  | mov (rd rs : Byte)
  | lvz (rd imm rg : Byte)
  | lvnz (rd imm rg : Byte)
  | psh (rs : Byte)
  | psv (imm : Byte)
  | pop (rd : Byte)
  | popm (addr : U16)
  | ldo (rd : Byte) (base : U16) (ri : Byte)
  | sto (rs : Byte) (base : U16) (ri : Byte)
  | sva (imm : Byte) (addr : U16)
  -- Arithmetic and carry, 0x10 to 0x1D
  | add (ra rb : Byte)
  | addv (ra imm : Byte)
  | sub (ra rb : Byte)
  | subv (ra imm : Byte)
  | add3 (ra rb rd : Byte)
  | addv3 (ra imm rd : Byte)
  | sub3 (ra rb rd : Byte)
  | subv3 (ra imm rd : Byte)
  | inc (r : Byte)
  | dec (r : Byte)
  | adc (r : Byte)
  | sbc (r : Byte)
  | ccf
  | scf
  -- Control flow, 0x30 to 0x37
  | jmp (d : Byte)
  | jpz (d rg : Byte)
  | jpnz (d rg : Byte)
  | fnc (id : U16)
  | ret
  | cal (id : U16)
  | clz (id : U16) (rg : Byte)
  | clnz (id : U16) (rg : Byte)
  -- Wide math, 0x40 and 0x41
  | mlt (ra rb rh rl : Byte)
  | div (ah al bh bl qh ql : Byte)
  -- Drive, 0x60 to 0x64
  | std (rs : Byte) (d : U32)
  | svd (imm : Byte) (d : U32)
  | ldtm (d : U32) (m : U24)
  | ldml (d : U32) (m : U24) (n : U16)
  | smdl (m : U24) (d : U32) (n : U16)
  -- Presentation, 0x80 to 0x8A
  | txr (rg : Byte) (x y size : U16) (color : Rgba)
  | txl (x y size : U16) (color : Rgba) (glyphs : List Byte)
  | rct (x y w h : U16) (color : Rgba)
  | crc (x y rad : U16) (color : Rgba)
  | cls
  | lne (x1 y1 x2 y2 : U16) (color : Rgba)
  | mtxr (rg : Byte) (x y px py size : U16) (color : Rgba)
  | mtxl (x y px py size : U16) (color : Rgba) (glyphs : List Byte)
  | mrct (x y px py w h : U16) (color : Rgba)
  | mcrc (x y px py rad : U16) (color : Rgba)
  | mlne (x1 y1 x2 y2 px py : U16) (color : Rgba)
  -- Termination signals, 0xFE and 0xFF
  | ext (code : Byte)
  | hlt
  -- The opcodes no row takes (R87)
  | unassigned (op : Byte)
deriving DecidableEq, Repr, Inhabited

end Sys2Proof
end

