-- ==== Sys2Proof/WellFormed.lean ====
section
/-! DEFINITION. Which instructions an encoding stands for, and which name only existing registers. -/

namespace Sys2Proof

/-- The opcodes that no row of 30_encoding R90 takes, as R87 lists them. -/
def isUnassigned (op : Byte) : Bool :=
  let n := op.toNat
  (0x0D ≤ n && n ≤ 0x0F) || (0x1E ≤ n && n ≤ 0x2F) || (0x38 ≤ n && n ≤ 0x3F) ||
    (0x42 ≤ n && n ≤ 0x5F) || (0x65 ≤ n && n ≤ 0x7F) || (0x8B ≤ n && n ≤ 0xFD)

/-- An instruction the byte stream can hold: a count byte counts at most 255 glyphs (30_encoding R81),
and an unassigned opcode is one of R87's. -/
def Instr.encodable : Instr → Bool
  | .txl _ _ _ _ glyphs => glyphs.length ≤ 255
  | .mtxl _ _ _ _ _ _ glyphs => glyphs.length ≤ 255
  | .unassigned op => isUnassigned op
  | .ldv .. | .lda .. | .sta .. | .mov .. | .lvz .. | .lvnz .. | .psh .. | .psv .. | .pop .. | .popm ..
  | .ldo .. | .sto .. | .sva .. | .add .. | .addv .. | .sub .. | .subv .. | .add3 .. | .addv3 ..
  | .sub3 .. | .subv3 .. | .inc .. | .dec .. | .adc .. | .sbc .. | .ccf | .scf | .jmp .. | .jpz ..
  | .jpnz .. | .fnc .. | .ret | .cal .. | .clz .. | .clnz .. | .mlt .. | .div .. | .std .. | .svd ..
  | .ldtm .. | .ldml .. | .smdl .. | .txr .. | .rct .. | .crc .. | .cls | .lne .. | .mtxr .. | .mrct ..
  | .mcrc .. | .mlne .. | .ext .. | .hlt => true

/-- The `reg` operands of an instruction with their offsets from the opcode, in operand order
(30_encoding R86, R90). -/
def Instr.regOperands : Instr → List (Nat × Byte)
  | .ldv rd _ => [(1, rd)]
  | .lda rd _ => [(1, rd)]
  | .sta rs _ => [(1, rs)]
  | .mov rd rs => [(1, rd), (2, rs)]
  | .lvz rd _ rg => [(1, rd), (3, rg)]
  | .lvnz rd _ rg => [(1, rd), (3, rg)]
  | .psh rs => [(1, rs)]
  | .psv _ => []
  | .pop rd => [(1, rd)]
  | .popm _ => []
  | .ldo rd _ ri => [(1, rd), (4, ri)]
  | .sto rs _ ri => [(1, rs), (4, ri)]
  | .sva _ _ => []
  | .add ra rb => [(1, ra), (2, rb)]
  | .addv ra _ => [(1, ra)]
  | .sub ra rb => [(1, ra), (2, rb)]
  | .subv ra _ => [(1, ra)]
  | .add3 ra rb rd => [(1, ra), (2, rb), (3, rd)]
  | .addv3 ra _ rd => [(1, ra), (3, rd)]
  | .sub3 ra rb rd => [(1, ra), (2, rb), (3, rd)]
  | .subv3 ra _ rd => [(1, ra), (3, rd)]
  | .inc r => [(1, r)]
  | .dec r => [(1, r)]
  | .adc r => [(1, r)]
  | .sbc r => [(1, r)]
  | .ccf | .scf => []
  | .jmp _ => []
  | .jpz _ rg => [(2, rg)]
  | .jpnz _ rg => [(2, rg)]
  | .fnc _ | .ret | .cal _ => []
  | .clz _ rg => [(3, rg)]
  | .clnz _ rg => [(3, rg)]
  | .mlt ra rb rh rl => [(1, ra), (2, rb), (3, rh), (4, rl)]
  | .div ah al bh bl qh ql => [(1, ah), (2, al), (3, bh), (4, bl), (5, qh), (6, ql)]
  | .std rs _ => [(1, rs)]
  | .svd _ _ | .ldtm _ _ | .ldml _ _ _ | .smdl _ _ _ => []
  | .txr rg _ _ _ _ => [(1, rg)]
  | .txl .. | .rct .. | .crc .. | .cls | .lne .. => []
  | .mtxr rg _ _ _ _ _ _ => [(1, rg)]
  | .mtxl .. | .mrct .. | .mcrc .. | .mlne .. => []
  | .ext _ | .hlt | .unassigned _ => []

/-- Every `reg` operand is an index 0 to 7 (10_state R21, 30_encoding R86). -/
def Instr.regsInRange (i : Instr) : Bool := i.regOperands.all fun p => p.2.toNat ≤ 7

/-- Well-formed: the byte stream can hold it, and it names only existing registers. -/
def Instr.wf (i : Instr) : Bool := i.encodable && i.regsInRange

end Sys2Proof
end

