-- ==== Sys2Proof/Decode.lean ====
section
/-! DEFINITION. The opcode map (30_encoding R90), the decoder over any opcode map (R80 to R93) and, after
it, the encoder, written from the same layouts; and the host's reading of an opcode-table word. -/

namespace Sys2Proof

/-- Why a byte string holds no instruction. No opcode is refused (30_encoding R88): only bytes that are
not there are. -/
inductive DecodeError where
  /-- There is no opcode byte. -/
  | noOpcode
  /-- Operand bytes of this opcode are missing (30_encoding R85). -/
  | operandsMissing (opcode : Byte)
deriving DecidableEq, Repr

/-! ## Operand fields, big-endian (20_memory R54, 30_encoding R81)

Each reader takes the bytes left and what to do with the field and the bytes after it. -/

/-- Two bytes, the first the more significant. -/
def be16 (b1 b0 : Byte) : U16 := b1 ++ b0

/-- Three bytes, the first the most significant. -/
def be24 (b2 b1 b0 : Byte) : U24 := b2 ++ (b1 ++ b0)

/-- Four bytes, the first the most significant. -/
def be32 (b3 b2 b1 b0 : Byte) : U32 := b3 ++ (b2 ++ (b1 ++ b0))

/-- A one-byte field: `reg`, `imm8`, `disp8` or `count8`. -/
def take8 (bs : List Byte) (k : Byte → List Byte → Option (Instr × List Byte)) :
    Option (Instr × List Byte) :=
  match bs with
  | b :: rest => k b rest
  | _ => none

/-- A two-byte field: `abs16`, `fid16`, `len16`, `u16f` or `ptr16`. -/
def take16 (bs : List Byte) (k : U16 → List Byte → Option (Instr × List Byte)) :
    Option (Instr × List Byte) :=
  match bs with
  | b1 :: b0 :: rest => k (be16 b1 b0) rest
  | _ => none

/-- A `maddr24` field. -/
def take24 (bs : List Byte) (k : U24 → List Byte → Option (Instr × List Byte)) :
    Option (Instr × List Byte) :=
  match bs with
  | b2 :: b1 :: b0 :: rest => k (be24 b2 b1 b0) rest
  | _ => none

/-- A `daddr32` field. -/
def take32 (bs : List Byte) (k : U32 → List Byte → Option (Instr × List Byte)) :
    Option (Instr × List Byte) :=
  match bs with
  | b3 :: b2 :: b1 :: b0 :: rest => k (be32 b3 b2 b1 b0) rest
  | _ => none

/-- An `rgba` field: R, G, B, A in that order. -/
def takeRgba (bs : List Byte) (k : Rgba → List Byte → Option (Instr × List Byte)) :
    Option (Instr × List Byte) :=
  match bs with
  | r :: g :: b :: a :: rest => k ⟨r, g, b, a⟩ rest
  | _ => none

/-- `n` bytes. -/
def takeBytes : Nat → List Byte → (List Byte → List Byte → Option (Instr × List Byte)) →
    Option (Instr × List Byte)
  | 0, bs, k => k [] bs
  | _ + 1, [], _ => none
  | n + 1, b :: bs, k => takeBytes n bs fun front rest => k (b :: front) rest

/-- A `count8` field n and the n glyph bytes after it (30_encoding R81, R89). -/
def takeGlyphs (bs : List Byte) (k : List Byte → List Byte → Option (Instr × List Byte)) :
    Option (Instr × List Byte) :=
  take8 bs fun n bs => takeBytes n.toNat bs k

/-! ## The opcode map (30_encoding R84, R90) -/

/-- The operation of an opcode byte; none for an unassigned one (30_encoding R84, R87). -/
def OpcodeMap.operationAt : OpcodeMap → Byte → Option Operation
  | [], _ => none
  | (b, o) :: rest, code => if code = b then some o else operationAt rest code

/-- The opcode byte of an operation. A legal map has one for each. -/
def OpcodeMap.codeOf : OpcodeMap → Operation → Byte
  | [], _ => 0#8
  | (b, o) :: rest, op => if op = o then b else codeOf rest op

/-- Every operation, in the order of 30_encoding R90. -/
def Operation.all : List Operation :=
  [.ldv, .lda, .sta, .mov, .lvz, .lvnz, .psh, .psv, .pop, .popm, .ldo, .sto, .sva] ++
    [.add, .addv, .sub, .subv, .add3, .addv3, .sub3, .subv3, .inc, .dec, .adc, .sbc, .ccf, .scf] ++
    [.jmp, .jpz, .jpnz, .fnc, .ret, .cal, .clz, .clnz] ++
    [.mlt, .div] ++
    [.std, .svd, .ldtm, .ldml, .smdl] ++
    [.txr, .txl, .rct, .crc, .cls, .lne, .mtxr, .mtxl, .mrct, .mcrc, .mlne] ++
    [.ext, .hlt]

/-- A code is in the range that the source gives the operation's family; the two termination codes are
fixed (30_encoding R90, R91). -/
def Operation.mayHaveCode (op : Operation) (code : Byte) : Bool :=
  let n := code.toNat
  match op with
  | .ldv | .lda | .sta | .mov | .lvz | .lvnz | .psh | .psv | .pop | .popm | .ldo | .sto
  | .sva => 0x00 ≤ n && n ≤ 0x0C
  | .add | .addv | .sub | .subv | .add3 | .addv3 | .sub3 | .subv3 | .inc | .dec | .adc | .sbc
  | .ccf | .scf => 0x10 ≤ n && n ≤ 0x1D
  | .jmp | .jpz | .jpnz | .fnc | .ret | .cal | .clz | .clnz => 0x30 ≤ n && n ≤ 0x37
  | .mlt | .div => 0x40 ≤ n && n ≤ 0x41
  | .std | .svd | .ldtm | .ldml | .smdl => 0x60 ≤ n && n ≤ 0x64
  | .txr | .txl | .rct | .crc | .cls | .lne | .mtxr | .mtxl | .mrct | .mcrc | .mlne => 0x80 ≤ n && n ≤ 0x8A
  | .ext => n == 0xFE
  | .hlt => n == 0xFF

/-- A legal opcode map: every operation has one code, in its family's range, and only the codes of
30_encoding R87 have no operation (R90 to R92; log entry 20). -/
def OpcodeMap.wf (map : OpcodeMap) : Bool :=
  (Operation.all.all fun op => map.operationAt (map.codeOf op) == some op && op.mayHaveCode (map.codeOf op)) &&
    decide (∀ code : Byte, (match map.operationAt code with
      | some op => map.codeOf op == code
      | none => isUnassigned code) = true)

/-- The opcode map of 30_encoding R90: the spec's default for OPCODE_MAP (decision D1). -/
def standardMap : OpcodeMap :=
  [(0x00, .ldv), (0x01, .lda), (0x02, .sta), (0x03, .mov), (0x04, .lvz), (0x05, .lvnz),
      (0x06, .psh), (0x07, .psv), (0x08, .pop), (0x09, .popm), (0x0A, .ldo), (0x0B, .sto),
      (0x0C, .sva)] ++
    [(0x10, .add), (0x11, .addv), (0x12, .sub), (0x13, .subv), (0x14, .add3), (0x15, .addv3),
      (0x16, .sub3), (0x17, .subv3), (0x18, .inc), (0x19, .dec), (0x1A, .adc), (0x1B, .sbc),
      (0x1C, .ccf), (0x1D, .scf)] ++
    [(0x30, .jmp), (0x31, .jpz), (0x32, .jpnz), (0x33, .fnc), (0x34, .ret), (0x35, .cal),
      (0x36, .clz), (0x37, .clnz)] ++
    [(0x40, .mlt), (0x41, .div)] ++
    [(0x60, .std), (0x61, .svd), (0x62, .ldtm), (0x63, .ldml), (0x64, .smdl)] ++
    [(0x80, .txr), (0x81, .txl), (0x82, .rct), (0x83, .crc), (0x84, .cls), (0x85, .lne),
      (0x86, .mtxr), (0x87, .mtxl), (0x88, .mrct), (0x89, .mcrc), (0x8A, .mlne)] ++
    [(0xFE, .ext), (0xFF, .hlt)]

/-! ## The decoder -/

/-- The operands of an operation (30_encoding R90): each row reads its fields in the order of its layout. -/
def decodeOperands (op : Operation) (bs : List Byte) : Option (Instr × List Byte) :=
  match op with
  | .ldv => take8 bs fun rd bs => take8 bs fun imm bs => some (.ldv rd imm, bs)
  | .lda => take8 bs fun rd bs => take16 bs fun addr bs => some (.lda rd addr, bs)
  | .sta => take8 bs fun rs bs => take16 bs fun addr bs => some (.sta rs addr, bs)
  | .mov => take8 bs fun rd bs => take8 bs fun rs bs => some (.mov rd rs, bs)
  | .lvz => take8 bs fun rd bs => take8 bs fun imm bs => take8 bs fun rg bs => some (.lvz rd imm rg, bs)
  | .lvnz => take8 bs fun rd bs => take8 bs fun imm bs => take8 bs fun rg bs => some (.lvnz rd imm rg, bs)
  | .psh => take8 bs fun rs bs => some (.psh rs, bs)
  | .psv => take8 bs fun imm bs => some (.psv imm, bs)
  | .pop => take8 bs fun rd bs => some (.pop rd, bs)
  | .popm => take16 bs fun addr bs => some (.popm addr, bs)
  | .ldo => take8 bs fun rd bs => take16 bs fun base bs => take8 bs fun ri bs => some (.ldo rd base ri, bs)
  | .sto => take8 bs fun rs bs => take16 bs fun base bs => take8 bs fun ri bs => some (.sto rs base ri, bs)
  | .sva => take8 bs fun imm bs => take16 bs fun addr bs => some (.sva imm addr, bs)
  | .add => take8 bs fun ra bs => take8 bs fun rb bs => some (.add ra rb, bs)
  | .addv => take8 bs fun ra bs => take8 bs fun imm bs => some (.addv ra imm, bs)
  | .sub => take8 bs fun ra bs => take8 bs fun rb bs => some (.sub ra rb, bs)
  | .subv => take8 bs fun ra bs => take8 bs fun imm bs => some (.subv ra imm, bs)
  | .add3 => take8 bs fun ra bs => take8 bs fun rb bs => take8 bs fun rd bs => some (.add3 ra rb rd, bs)
  | .addv3 => take8 bs fun ra bs => take8 bs fun imm bs => take8 bs fun rd bs => some (.addv3 ra imm rd, bs)
  | .sub3 => take8 bs fun ra bs => take8 bs fun rb bs => take8 bs fun rd bs => some (.sub3 ra rb rd, bs)
  | .subv3 => take8 bs fun ra bs => take8 bs fun imm bs => take8 bs fun rd bs => some (.subv3 ra imm rd, bs)
  | .inc => take8 bs fun r bs => some (.inc r, bs)
  | .dec => take8 bs fun r bs => some (.dec r, bs)
  | .adc => take8 bs fun r bs => some (.adc r, bs)
  | .sbc => take8 bs fun r bs => some (.sbc r, bs)
  | .ccf => some (.ccf, bs)
  | .scf => some (.scf, bs)
  | .jmp => take8 bs fun d bs => some (.jmp d, bs)
  | .jpz => take8 bs fun d bs => take8 bs fun rg bs => some (.jpz d rg, bs)
  | .jpnz => take8 bs fun d bs => take8 bs fun rg bs => some (.jpnz d rg, bs)
  | .fnc => take16 bs fun id bs => some (.fnc id, bs)
  | .ret => some (.ret, bs)
  | .cal => take16 bs fun id bs => some (.cal id, bs)
  | .clz => take16 bs fun id bs => take8 bs fun rg bs => some (.clz id rg, bs)
  | .clnz => take16 bs fun id bs => take8 bs fun rg bs => some (.clnz id rg, bs)
  | .mlt => take8 bs fun ra bs => take8 bs fun rb bs => take8 bs fun rh bs => take8 bs fun rl bs =>
      some (.mlt ra rb rh rl, bs)
  | .div => take8 bs fun ah bs => take8 bs fun al bs => take8 bs fun bh bs => take8 bs fun bl bs =>
      take8 bs fun qh bs => take8 bs fun ql bs => some (.div ah al bh bl qh ql, bs)
  | .std => take8 bs fun rs bs => take32 bs fun d bs => some (.std rs d, bs)
  | .svd => take8 bs fun imm bs => take32 bs fun d bs => some (.svd imm d, bs)
  | .ldtm => take32 bs fun d bs => take24 bs fun m bs => some (.ldtm d m, bs)
  | .ldml => take32 bs fun d bs => take24 bs fun m bs => take16 bs fun n bs => some (.ldml d m n, bs)
  | .smdl => take24 bs fun m bs => take32 bs fun d bs => take16 bs fun n bs => some (.smdl m d n, bs)
  | .txr => take8 bs fun rg bs => take16 bs fun x bs => take16 bs fun y bs => take16 bs fun size bs =>
      takeRgba bs fun color bs => some (.txr rg x y size color, bs)
  | .txl => take16 bs fun x bs => take16 bs fun y bs => take16 bs fun size bs =>
      takeRgba bs fun color bs => takeGlyphs bs fun glyphs bs => some (.txl x y size color glyphs, bs)
  | .rct => take16 bs fun x bs => take16 bs fun y bs => take16 bs fun w bs => take16 bs fun h bs =>
      takeRgba bs fun color bs => some (.rct x y w h color, bs)
  | .crc => take16 bs fun x bs => take16 bs fun y bs => take16 bs fun rad bs =>
      takeRgba bs fun color bs => some (.crc x y rad color, bs)
  | .cls => some (.cls, bs)
  | .lne => take16 bs fun x1 bs => take16 bs fun y1 bs => take16 bs fun x2 bs => take16 bs fun y2 bs =>
      takeRgba bs fun color bs => some (.lne x1 y1 x2 y2 color, bs)
  | .mtxr => take8 bs fun rg bs => take16 bs fun x bs => take16 bs fun y bs => take16 bs fun px bs =>
      take16 bs fun py bs => take16 bs fun size bs => takeRgba bs fun color bs =>
      some (.mtxr rg x y px py size color, bs)
  | .mtxl => take16 bs fun x bs => take16 bs fun y bs => take16 bs fun px bs => take16 bs fun py bs =>
      take16 bs fun size bs => takeRgba bs fun color bs => takeGlyphs bs fun glyphs bs =>
      some (.mtxl x y px py size color glyphs, bs)
  | .mrct => take16 bs fun x bs => take16 bs fun y bs => take16 bs fun px bs => take16 bs fun py bs =>
      take16 bs fun w bs => take16 bs fun h bs => takeRgba bs fun color bs =>
      some (.mrct x y px py w h color, bs)
  | .mcrc => take16 bs fun x bs => take16 bs fun y bs => take16 bs fun px bs => take16 bs fun py bs =>
      take16 bs fun rad bs => takeRgba bs fun color bs => some (.mcrc x y px py rad color, bs)
  | .mlne => take16 bs fun x1 bs => take16 bs fun y1 bs => take16 bs fun x2 bs => take16 bs fun y2 bs =>
      take16 bs fun px bs => take16 bs fun py bs => takeRgba bs fun color bs =>
      some (.mlne x1 y1 x2 y2 px py color, bs)
  | .ext => take8 bs fun code bs => some (.ext code, bs)
  | .hlt => some (.hlt, bs)

/-- The instruction at the front of a byte string, and the bytes after it (30_encoding R84, R85). An opcode
without an operation is a one-byte no-op (R87). -/
def decode (map : OpcodeMap) : List Byte → Except DecodeError (Instr × List Byte)
  | [] => .error .noOpcode
  | code :: bs =>
    match map.operationAt code with
    | none => .ok (.unassigned code, bs)
    | some op =>
      match decodeOperands op bs with
      | some r => .ok r
      | none => .error (.operandsMissing code)

/-! ## The encoder -/

/-- The bytes of a two-byte field, the more significant first. -/
def bytes16 (v : U16) : List Byte := [v.extractLsb' 8 8, v.extractLsb' 0 8]

/-- The bytes of a `maddr24` field, the most significant first. -/
def bytes24 (v : U24) : List Byte := [v.extractLsb' 16 8, v.extractLsb' 8 8, v.extractLsb' 0 8]

/-- The bytes of a `daddr32` field, the most significant first. -/
def bytes32 (v : U32) : List Byte :=
  [v.extractLsb' 24 8, v.extractLsb' 16 8, v.extractLsb' 8 8, v.extractLsb' 0 8]

/-- The bytes of an `rgba` field. -/
def bytesRgba (c : Rgba) : List Byte := [c.r, c.g, c.b, c.a]

/-- A count byte and the glyphs it counts. -/
def bytesGlyphs (glyphs : List Byte) : List Byte := BitVec.ofNat 8 glyphs.length :: glyphs

/-- The operation of an instruction, or the opcode byte of an unassigned one. -/
def Instr.head : Instr → Operation ⊕ Byte
  | .ldv .. => .inl .ldv | .lda .. => .inl .lda | .sta .. => .inl .sta | .mov .. => .inl .mov
  | .lvz .. => .inl .lvz | .lvnz .. => .inl .lvnz | .psh .. => .inl .psh | .psv .. => .inl .psv
  | .pop .. => .inl .pop | .popm .. => .inl .popm | .ldo .. => .inl .ldo | .sto .. => .inl .sto
  | .sva .. => .inl .sva
  | .add .. => .inl .add | .addv .. => .inl .addv | .sub .. => .inl .sub | .subv .. => .inl .subv
  | .add3 .. => .inl .add3 | .addv3 .. => .inl .addv3 | .sub3 .. => .inl .sub3
  | .subv3 .. => .inl .subv3 | .inc .. => .inl .inc | .dec .. => .inl .dec | .adc .. => .inl .adc
  | .sbc .. => .inl .sbc | .ccf => .inl .ccf | .scf => .inl .scf
  | .jmp .. => .inl .jmp | .jpz .. => .inl .jpz | .jpnz .. => .inl .jpnz | .fnc .. => .inl .fnc
  | .ret => .inl .ret | .cal .. => .inl .cal | .clz .. => .inl .clz | .clnz .. => .inl .clnz
  | .mlt .. => .inl .mlt | .div .. => .inl .div
  | .std .. => .inl .std | .svd .. => .inl .svd | .ldtm .. => .inl .ldtm | .ldml .. => .inl .ldml
  | .smdl .. => .inl .smdl
  | .txr .. => .inl .txr | .txl .. => .inl .txl | .rct .. => .inl .rct | .crc .. => .inl .crc
  | .cls => .inl .cls | .lne .. => .inl .lne | .mtxr .. => .inl .mtxr | .mtxl .. => .inl .mtxl
  | .mrct .. => .inl .mrct | .mcrc .. => .inl .mcrc | .mlne .. => .inl .mlne
  | .ext .. => .inl .ext | .hlt => .inl .hlt
  | .unassigned code => .inr code

/-- The operation of an instruction; none for an unassigned opcode. -/
def Instr.operation (i : Instr) : Option Operation := i.head.getLeft?

/-- The opcode byte of an instruction (30_encoding R90). -/
def Instr.opcode (map : OpcodeMap) (i : Instr) : Byte := i.head.elim map.codeOf id

/-- The operand bytes of an instruction, in the order of its layout (30_encoding R90). -/
def Instr.operandBytes : Instr → List Byte
  | .ldv rd imm => [rd, imm]
  | .lda rd addr => rd :: bytes16 addr
  | .sta rs addr => rs :: bytes16 addr
  | .mov rd rs => [rd, rs]
  | .lvz rd imm rg => [rd, imm, rg]
  | .lvnz rd imm rg => [rd, imm, rg]
  | .psh rs => [rs]
  | .psv imm => [imm]
  | .pop rd => [rd]
  | .popm addr => bytes16 addr
  | .ldo rd base ri => rd :: (bytes16 base ++ [ri])
  | .sto rs base ri => rs :: (bytes16 base ++ [ri])
  | .sva imm addr => imm :: bytes16 addr
  | .add ra rb => [ra, rb]
  | .addv ra imm => [ra, imm]
  | .sub ra rb => [ra, rb]
  | .subv ra imm => [ra, imm]
  | .add3 ra rb rd => [ra, rb, rd]
  | .addv3 ra imm rd => [ra, imm, rd]
  | .sub3 ra rb rd => [ra, rb, rd]
  | .subv3 ra imm rd => [ra, imm, rd]
  | .inc r => [r]
  | .dec r => [r]
  | .adc r => [r]
  | .sbc r => [r]
  | .ccf => []
  | .scf => []
  | .jmp d => [d]
  | .jpz d rg => [d, rg]
  | .jpnz d rg => [d, rg]
  | .fnc id => bytes16 id
  | .ret => []
  | .cal id => bytes16 id
  | .clz id rg => bytes16 id ++ [rg]
  | .clnz id rg => bytes16 id ++ [rg]
  | .mlt ra rb rh rl => [ra, rb, rh, rl]
  | .div ah al bh bl qh ql => [ah, al, bh, bl, qh, ql]
  | .std rs d => rs :: bytes32 d
  | .svd imm d => imm :: bytes32 d
  | .ldtm d m => bytes32 d ++ bytes24 m
  | .ldml d m n => bytes32 d ++ (bytes24 m ++ bytes16 n)
  | .smdl m d n => bytes24 m ++ (bytes32 d ++ bytes16 n)
  | .txr rg x y size color => rg :: (bytes16 x ++ (bytes16 y ++ (bytes16 size ++ bytesRgba color)))
  | .txl x y size color glyphs =>
      bytes16 x ++ (bytes16 y ++ (bytes16 size ++ (bytesRgba color ++ bytesGlyphs glyphs)))
  | .rct x y w h color => bytes16 x ++ (bytes16 y ++ (bytes16 w ++ (bytes16 h ++ bytesRgba color)))
  | .crc x y rad color => bytes16 x ++ (bytes16 y ++ (bytes16 rad ++ bytesRgba color))
  | .cls => []
  | .lne x1 y1 x2 y2 color => bytes16 x1 ++ (bytes16 y1 ++ (bytes16 x2 ++ (bytes16 y2 ++ bytesRgba color)))
  | .mtxr rg x y px py size color =>
      rg :: (bytes16 x ++ (bytes16 y ++ (bytes16 px ++ (bytes16 py ++ (bytes16 size ++ bytesRgba color)))))
  | .mtxl x y px py size color glyphs =>
      bytes16 x ++ (bytes16 y ++ (bytes16 px ++ (bytes16 py ++ (bytes16 size ++
        (bytesRgba color ++ bytesGlyphs glyphs)))))
  | .mrct x y px py w h color =>
      bytes16 x ++ (bytes16 y ++ (bytes16 px ++ (bytes16 py ++ (bytes16 w ++ (bytes16 h ++ bytesRgba color)))))
  | .mcrc x y px py rad color =>
      bytes16 x ++ (bytes16 y ++ (bytes16 px ++ (bytes16 py ++ (bytes16 rad ++ bytesRgba color))))
  | .mlne x1 y1 x2 y2 px py color =>
      bytes16 x1 ++ (bytes16 y1 ++ (bytes16 x2 ++ (bytes16 y2 ++ (bytes16 px ++ (bytes16 py ++ bytesRgba color)))))
  | .ext code => [code]
  | .hlt => []
  | .unassigned _ => []

/-- The bytes of an instruction: its opcode byte, then its operand bytes (30_encoding R80). -/
def encode (map : OpcodeMap) (i : Instr) : List Byte := i.opcode map :: i.operandBytes

/-- The length in bytes of an instruction, as the `len` column of 30_encoding R90 has it (R89). -/
def Instr.len : Instr → Nat
  | .ldv .. => 3 | .lda .. => 4 | .sta .. => 4 | .mov .. => 3 | .lvz .. => 4
  | .lvnz .. => 4 | .psh .. => 2 | .psv .. => 2 | .pop .. => 2 | .popm .. => 3
  | .ldo .. => 5 | .sto .. => 5 | .sva .. => 4
  | .add .. => 3 | .addv .. => 3 | .sub .. => 3 | .subv .. => 3 | .add3 .. => 4
  | .addv3 .. => 4 | .sub3 .. => 4 | .subv3 .. => 4 | .inc .. => 2 | .dec .. => 2
  | .adc .. => 2 | .sbc .. => 2 | .ccf => 1 | .scf => 1
  | .jmp .. => 2 | .jpz .. => 3 | .jpnz .. => 3 | .fnc .. => 3 | .ret => 1
  | .cal .. => 3 | .clz .. => 4 | .clnz .. => 4
  | .mlt .. => 5 | .div .. => 7
  | .std .. => 6 | .svd .. => 6 | .ldtm .. => 8 | .ldml .. => 10 | .smdl .. => 10
  | .txr .. => 12 | .txl _ _ _ _ glyphs => 12 + glyphs.length | .rct .. => 13 | .crc .. => 11 | .cls => 1
  | .lne .. => 13 | .mtxr .. => 16 | .mtxl _ _ _ _ _ _ glyphs => 16 + glyphs.length | .mrct .. => 17
  | .mcrc .. => 15 | .mlne .. => 17
  | .ext .. => 2 | .hlt => 1
  | .unassigned .. => 1

/-- The longest instruction: an MTXL with 255 glyphs (30_encoding R89). -/
def maxInstrLen : Nat := 271

/-! ## Words of the opcode table -/

/-- The bytes of a number, its least significant byte first: `count` of them. -/
def wordBytes : Nat → Nat → List Byte
  | 0, _ => []
  | count + 1, w => BitVec.ofNat 8 w :: wordBytes count (w / 256)

/-- An instruction of the opcode table as bytes: the first `nbits` bits from `w` (bit 0 the least
significant bit of the opcode byte), and zeros up to the longest instruction. -/
def tableBytes (nbits w : Nat) : List Byte :=
  let front := wordBytes ((nbits + 7) / 8) (w % 2 ^ nbits)
  front ++ List.replicate (maxInstrLen - front.length) 0

/-- The instruction the decoder reads, under the table's own opcode map, from an opcode-table word. -/
def decodeTableWord (nbits w : Nat) : Option Instr :=
  match decode standardMap (tableBytes nbits w) with
  | .ok (i, _) => some i
  | .error _ => none

end Sys2Proof
end

