-- ==== Sys2Proof/Machine/Parameters.lean ====
section
/-! DEFINITION. The parameters of a machine (00_scope R5): the spec's defaults, what follows from them, and
which values are legal. -/

namespace Sys2Proof

/-- The spec's defaults (00_scope R5). -/
def Params.standard : Params where
  memSize := 524288
  ioBase := 65527
  codeBase := 65536
  spReset := 524288
  extNextPc := 65536
  checkpointInterval := 5
  carryPolicy := .sticky
  opcodeMap := standardMap

/-- IO_LAST, the last of the nine memory-mapped input bytes (00_scope R5, 20_memory R57). -/
def Params.ioLast (p : Params) : Nat := p.ioBase + 8

/-- RET_BYTE, the byte that FNC's scan stops at: the opcode of RET under OPCODE_MAP (00_scope R5). -/
def Params.retByte (p : Params) : Byte := p.opcodeMap.codeOf .ret

/-- Legal parameters: Memory holds every absolute and every register-indexed address, which are never out of
range (40_data_movement R111, R120, 45_presentation R231), the input registers and the start of the code
image; the stack pointer starts where 40_data_movement R123 keeps it; the opcode map is legal (log entry
20). -/
def Params.wf (p : Params) : Bool :=
  decide (65790 < p.memSize) && decide (p.ioLast < p.memSize) && decide (p.codeBase ≤ p.memSize) &&
    decide (0 ≤ p.spReset ∧ p.spReset ≤ p.memSize) && p.opcodeMap.wf

end Sys2Proof
end

