-- ==== Sys2Proof/Machine/State.lean ====
section
/-! DEFINITION. Everything the spec gives the machine as state (10_state), as plain data; the reasons a
step can stop; and the state after reset (70_reset_and_hazards R301, R302). -/

namespace Sys2Proof.Machine

/-! ## Registers -/

/-- The general registers' indices (10_state R20). -/
inductive Reg where
  | r0 | r1 | r2 | r3 | r4 | r5 | r6 | r7
deriving DecidableEq, Repr, Inhabited

/-- The register file: eight 8-bit registers, none hard-wired, none aliased (10_state R20). -/
structure Regs where
  r0 : Byte
  r1 : Byte
  r2 : Byte
  r3 : Byte
  r4 : Byte
  r5 : Byte
  r6 : Byte
  r7 : Byte
deriving DecidableEq, Repr, Inhabited

/-! ## Memory and Drive -/

/-- Bytes by address: the cells that differ from 0, addresses strictly rising. An unlisted address reads
0, which is what reset leaves outside the loaded image (10_state R32; log entry 11). -/
abbrev Cells := List Host.Cell

/-- The Drive, a byte vector of `len` bytes (10_state R33); `len` is DRIVE_LEN and no step changes it. -/
structure Drive where
  len   : Nat
  cells : Cells
deriving DecidableEq, Repr, Inhabited

/-! ## Calls -/

/-- A return record (10_state R35): the address of the call opcode, and the address of the first byte
after the call's operands. -/
structure ReturnRecord where
  site   : Int
  resume : Int
deriving DecidableEq, Repr, Inhabited

/-- The FunctionTable (10_state R34): pairs of a 16-bit id and an entry address, ids strictly rising. -/
abbrev FunctionTable := List (Nat × Int)

/-! ## Faults of the engine -/

/-- The files of the backing store (00_scope R14). -/
inductive BackingFile where
  | codeImage
  | driveImage
deriving DecidableEq, Repr, Inhabited

/-- What an I/O fault was doing (60_exceptions R261: "which file, read or write"). -/
inductive IOAccess where
  | read
  | write
deriving DecidableEq, Repr, Inhabited

/-- The fault taxonomy with the information each fault records (60_exceptions R261). -/
inductive EngineFault where
  | ioFault (file : BackingFile) (access : IOAccess)
  | invalidRegisterIndex (index : Byte) (at_ : Int)
  | unresolvedFunctionReference (id : U16)
  | emptyCallStack
  | driveAddressOutOfBounds (addr : Nat)
  | divideByZero
  | memoryAddressOutOfBounds (addr : Int)
deriving DecidableEq, Repr, Inhabited

/-- The record of a fault (60_exceptions R263): its kind and information, the program counter, and the
opcode byte, absent where there is none. -/
structure FaultRecord where
  kind   : EngineFault
  pc     : Int
  opcode : Option Byte
deriving DecidableEq, Repr, Inhabited

/-- The engine's status (10_state R36). -/
inductive Status where
  /-- The next cycle may run. -/
  | running
  /-- Inside CLS (45_presentation R238). -/
  | waitingFrame
  /-- Inside HLT (46_termination R257). -/
  | checkpointing
  /-- Stopped by a fault, for good (60_exceptions R264). -/
  | faulted (record : FaultRecord)
  /-- Stopped by the host (00_scope R17). -/
  | terminated
deriving DecidableEq, Repr, Inhabited

/-! ## Drive persistence controller -/

/-- Who asked for a checkpoint (60_exceptions R280). -/
inductive Origin where
  /-- The checkpoint timer. -/
  | background
  /-- HLT. -/
  | foreground
deriving DecidableEq, Repr, Inhabited

/-- A checkpoint request: a copy of the whole Drive, its origin, and its number in the order the
snapshots were taken (60_exceptions R283, R284; log entry 9). -/
structure Request where
  id       : Nat
  origin   : Origin
  snapshot : Drive
deriving DecidableEq, Repr, Inhabited

/-- The persistence controller and the backing store behind it (10_state R37, 60_exceptions R280). -/
structure Persist where
  /-- The FIFO of pending requests, the oldest first. -/
  queue         : List Request
  /-- The request being written; none while idle. -/
  writing       : Option Request
  /-- The backing image: the last committed Drive image. -/
  backing       : Drive
  /-- The number of the last committed snapshot; none while the backing image is the loaded one. -/
  lastCommitted : Option Nat
  /-- False once the store has reported an error: "no further service" (60_exceptions R284). -/
  serving       : Bool
  /-- A background write has failed and its fault waits for the instruction in progress to retire
  (60_exceptions R268, R286; log entry 5). -/
  ioPending     : Bool
  /-- The number the next snapshot gets (log entry 9). -/
  nextId        : Nat
deriving DecidableEq, Repr, Inhabited

/-! ## Output ports -/

/-- A record on the draw-command port (45_presentation R230). -/
inductive DrawCommand where
  | text (glyphs : List Byte) (x y size : U16) (color : Rgba)
  | rect (x y w h : U16) (color : Rgba)
  | circle (x y radius : U16) (color : Rgba)
  | line (x1 y1 x2 y2 : U16) (color : Rgba)
  | present
  | clear
deriving DecidableEq, Repr, Inhabited

/-! ## The machine's state -/

/-- Everything the spec gives the machine (10_state section 9), with what it has emitted on its output
ports, and the events still to come from the host. -/
structure State where
  /-- r0 to r7 (10_state R20). -/
  regs    : Regs
  /-- The program counter, an unbounded integer (10_state R24, R25). -/
  pc      : Int
  /-- The carry flag C (10_state R27). -/
  carry   : Bool
  /-- The stack pointer SP, an integer (10_state R29). -/
  sp      : Int
  /-- Memory (10_state R31), the nine input registers included (20_memory R56). -/
  mem     : Cells
  /-- The Drive (10_state R33). -/
  drive   : Drive
  /-- The FunctionTable (10_state R34). -/
  ft      : FunctionTable
  /-- The CallStack, its top first (10_state R35). -/
  cs      : List ReturnRecord
  /-- The engine's status (10_state R36). -/
  status  : Status
  /-- The persistence controller (10_state R37). -/
  persist : Persist
  /-- The draw records emitted so far, the oldest first (00_scope R12; log entry 10). -/
  draws   : List DrawCommand
  /-- The diagnostics emitted so far (00_scope R16; log entry 10). -/
  diags   : List FaultRecord
  /-- The parameters of this machine; no step changes them (00_scope R5, 92 "Open parameters"; log entries 8
  and 12). -/
  params  : Params
  /-- THE MODEL'S OWN: the events to come, the next one first (log entry 1). -/
  host    : List HostEvent
  /-- THE MODEL'S OWN: how many events were drawn once `host` was empty (log entry 1). -/
  drawn   : Nat
deriving DecidableEq, Repr, Inhabited

/-! ## How a step stops -/

/-- Why the machine has no next state. Raised by the step alone: an instruction's fault is a next state
whose status is `faulted` (log entry 4). -/
inductive Fault where
  /-- The engine has faulted and runs no further cycle (60_exceptions R263, R264). Raised by the step at
  a cycle of a faulted engine. Safe: the spec gives the engine no such cycle. -/
  | engineFaulted (record : FaultRecord)
  /-- The host has terminated the block (00_scope R17). Raised by the step at an event of a terminated
  block. Safe: the spec gives the block no such step. -/
  | blockTerminated
deriving DecidableEq, Repr, Inhabited

/-- Why the model gives a step no meaning. -/
inductive Refusal where
  /-- An instruction without a meaning in this model. Raised by an arm of the dispatch, of which none
  does so now. Safe: nothing is said of a machine that runs it. -/
  | notModelled (mnemonic : String)
deriving DecidableEq, Repr, Inhabited

/-! ## Reset -/

/-- The registers at reset (10_state R22). -/
def Regs.reset : Regs := ⟨0#8, 0#8, 0#8, 0#8, 0#8, 0#8, 0#8, 0#8⟩

/-- The persistence controller at reset, the backing image being the loaded drive image
(60_exceptions R281). -/
def Persist.reset (image : Drive) : Persist where
  queue := []
  writing := none
  backing := image
  lastCommitted := none
  serving := true
  ioPending := false
  nextId := 0

/-- The state in which a run starts, given the parameters, and Memory and Drive as loaded
(70_reset_and_hazards R301 steps 3 to 8, R302). -/
def State.loaded (params : Params) (mem : Cells) (drive : Drive) : State where
  regs := Regs.reset
  pc := params.codeBase
  carry := false
  sp := params.spReset
  mem := mem
  drive := drive
  ft := []
  cs := []
  status := .running
  persist := Persist.reset drive
  draws := []
  diags := []
  params := params
  host := []
  drawn := 0

/-- The machine right after reset, with the spec's default parameters, the empty code image and the empty
drive image (log entry 2). -/
def State.reset : State := State.loaded Params.standard [] ⟨0, []⟩

end Sys2Proof.Machine
end

