-- ==== Sys2Proof/Machine/Ops.lean ====
section
/-! DEFINITION. The named operations over registers, Memory, the Drive, the FunctionTable and the ports;
and taking a fault, the one exception entry of this machine (60_exceptions R263). There is no return from
a fault to stand beside it (R264). -/

namespace Sys2Proof.Machine

/-- What an instruction's meaning answers. -/
abbrev Result := Host.Outcome State Fault Refusal

/-! ## General registers -/

/-- The register an operand byte names; none above 7 (10_state R21). -/
def regOfByte (b : Byte) : Option Reg :=
  match b.toNat with
  | 0 => some .r0
  | 1 => some .r1
  | 2 => some .r2
  | 3 => some .r3
  | 4 => some .r4
  | 5 => some .r5
  | 6 => some .r6
  | 7 => some .r7
  | _ => none

/-- The value of a register (00_scope R8: `x[i]`). -/
def Regs.get (x : Regs) : Reg → Byte
  | .r0 => x.r0
  | .r1 => x.r1
  | .r2 => x.r2
  | .r3 => x.r3
  | .r4 => x.r4
  | .r5 => x.r5
  | .r6 => x.r6
  | .r7 => x.r7

/-- Writing a register (00_scope R8: `x[i] <- v`). -/
def Regs.set (x : Regs) (i : Reg) (v : Byte) : Regs :=
  match i with
  | .r0 => { x with r0 := v }
  | .r1 => { x with r1 := v }
  | .r2 => { x with r2 := v }
  | .r3 => { x with r3 := v }
  | .r4 => { x with r4 := v }
  | .r5 => { x with r5 := v }
  | .r6 => { x with r6 := v }
  | .r7 => { x with r7 := v }

/-- The value of a register of the state. -/
def State.reg (s : State) (i : Reg) : Byte := s.regs.get i

/-- The state with a register written. -/
def State.setReg (s : State) (i : Reg) (v : Byte) : State := { s with regs := s.regs.set i v }

/-! ## Cells: bytes by address -/

/-- The byte at an address; 0 where no cell lists it (10_state R32). -/
def cellAt : Cells → Nat → Byte
  | [], _ => 0#8
  | (b, v) :: rest, a => if a = b then v else cellAt rest a

/-- Put a cell in its place, in place of the one of the same address. -/
def insertCell : Cells → Nat → Byte → Cells
  | [], a, v => [(a, v)]
  | (b, w) :: rest, a, v =>
    if a < b then (a, v) :: (b, w) :: rest
    else if a = b then (a, v) :: rest
    else (b, w) :: insertCell rest a v

/-- Write a byte. Writing 0, what an unlisted address reads as, removes the cell. -/
def storeCell (m : Cells) (a : Nat) (v : Byte) : Cells :=
  if v = 0#8 then m.filter (fun c => c.1 != a) else insertCell m a v

/-- Write bytes at rising addresses (00_scope R8: `MemWrite`). -/
def storeBytes : Cells → Nat → List Byte → Cells
  | m, _, [] => m
  | m, a, v :: rest => storeBytes (storeCell m a v) (a + 1) rest

/-- `n` bytes from an address on, in rising order (00_scope R8: `MemRead`). -/
def readBytes (m : Cells) : Nat → Nat → List Byte
  | _, 0 => []
  | a, n + 1 => cellAt m a :: readBytes m (a + 1) n

/-- Copy `n` bytes, in rising order, from `src` at `f` to `dst` at `t` (44_drive_io R214, R215). -/
def copyCells (src : Cells) : Nat → Nat → Cells → Nat → Cells
  | 0, _, dst, _ => dst
  | n + 1, f, dst, t => copyCells src n (f + 1) (storeCell dst t (cellAt src f)) (t + 1)

/-- The canonical form between two bounds: addresses strictly rising from `lo` and below `hi`, no cell
holding what an unlisted address reads as. -/
def cellsWithin (lo hi : Nat) : Cells → Bool
  | [] => true
  | (a, v) :: rest => decide (lo ≤ a) && decide (a < hi) && decide (v ≠ 0#8) && cellsWithin (a + 1) hi rest

/-- The canonical form of a Memory of `size` bytes. -/
def Memory.wf (size : Nat) (m : Cells) : Bool := cellsWithin 0 size m

/-- The Drive's canonical form, and the bound on its length (00_scope R5). -/
def Drive.wf (d : Drive) : Bool := cellsWithin 0 d.len d.cells && decide (d.len ≤ Config.maxDriveLen)

/-- A byte string as cells from an address on, zeros unlisted. -/
def cellsOfBytes : Nat → List Byte → Cells
  | _, [] => []
  | a, v :: rest => if v = 0#8 then cellsOfBytes (a + 1) rest else (a, v) :: cellsOfBytes (a + 1) rest

/-- A drive image as the file holds it: its length is DRIVE_LEN (00_scope R5). -/
def Drive.ofBytes (image : List Byte) : Drive := ⟨image.length, cellsOfBytes 0 image⟩

/-! ## Memory -/

/-- The Memory byte at an address (00_scope R8: `M[a]`). -/
def State.byte (s : State) (a : Nat) : Byte := cellAt s.mem a

/-- The state with a Memory byte written (00_scope R8: `M[a] <- v`). -/
def State.setByte (s : State) (a : Nat) (v : Byte) : State := { s with mem := storeCell s.mem a v }

/-- The two bytes at an address as a big-endian number (20_memory R54). -/
def State.word (s : State) (a : Nat) : U16 := be16 (s.byte a) (s.byte (a + 1))

/-- An address is one of a Memory of `size` bytes (20_memory R52). -/
def inMemory (size : Nat) (a : Int) : Bool := decide (0 ≤ a ∧ a < (size : Int))

/-! ## Taking a fault -/

/-- The numeric code of a fault, for the diagnostic only (60_exceptions R261). -/
def EngineFault.code : EngineFault → Nat
  | .ioFault .. => 1
  | .invalidRegisterIndex .. => 2
  | .unresolvedFunctionReference .. => 3
  | .emptyCallStack => 4
  | .driveAddressOutOfBounds .. => 5
  | .divideByZero => 6
  | .memoryAddressOutOfBounds .. => 7

/-- The opcode byte a fault record holds: the byte at the program counter, absent where that is no
address of Memory (60_exceptions R263 (a)). -/
def State.opcodeHere (s : State) : Option Byte :=
  if inMemory s.params.memSize s.pc then some (s.byte s.pc.toNat) else none

/-- Stop the engine with a record, and emit the record on the diagnostic port. Nothing else changes, the
program counter included (60_exceptions R262, R263). -/
def stopWith (r : FaultRecord) (s : State) : State :=
  { s with status := .faulted r, diags := s.diags ++ [r] }

/-- Fault entry of the instruction at the program counter (60_exceptions R263). -/
def enterFault (f : EngineFault) (s : State) : State := stopWith ⟨f, s.pc, s.opcodeHere⟩ s

/-- `raise F(info)` (00_scope R8): the instruction ends in the fault. It is a next state (log entry 4). -/
def raiseFault (f : EngineFault) (s : State) : Result := .next (enterFault f s)

/-! ## Checks, each before the instruction changes any state (60_exceptions R262) -/

/-- The register-index check of the `reg` operand byte `b`, `k` bytes after the opcode (30_encoding R86). -/
def withReg (s : State) (k : Nat) (b : Byte) (next : Reg → Result) : Result :=
  match regOfByte b with
  | some r => next r
  | none => raiseFault (.invalidRegisterIndex b (s.pc + k)) s

/-- The bounds check of a Memory address (20_memory R52). -/
def withMem (s : State) (a : Int) (next : Nat → Result) : Result :=
  if inMemory s.params.memSize a then next a.toNat else raiseFault (.memoryAddressOutOfBounds a) s

/-- The bounds check of a Drive address (20_memory R53). -/
def withDrive (s : State) (d : U32) (next : Result) : Result :=
  if d.toNat < s.drive.len then next else raiseFault (.driveAddressOutOfBounds d.toNat) s

/-- The bounds checks of a block copy of `n > 0` bytes: the Drive range, then the Memory range; the fault
records the first address out of range (44_drive_io R214, R215). -/
def withBlock (s : State) (d : U32) (m : U24) (n : U16) (next : Result) : Result :=
  if s.drive.len < d.toNat + n.toNat then
    raiseFault (.driveAddressOutOfBounds (max d.toNat s.drive.len)) s
  else if s.params.memSize < m.toNat + n.toNat then
    raiseFault (.memoryAddressOutOfBounds (max m.toNat s.params.memSize : Nat)) s
  else next

/-! ## Retiring -/

/-- The instruction is done: the program counter moves past its `len` bytes (10_state R24). -/
def retire (len : Nat) (s : State) : Result := .next { s with pc := s.pc + len }

/-- The instruction is done, and control goes to `target` (42_control_flow R184). -/
def jumpTo (target : Int) (s : State) : Result := .next { s with pc := target }

/-! ## The value stack -/

/-- Push a byte: the stack pointer falls by one, then the byte is stored there (10_state R29,
40_data_movement R116). -/
def pushByte (s : State) (v : Byte) (next : State → Result) : Result :=
  withMem s (s.sp - 1) fun a => next { s.setByte a v with sp := s.sp - 1 }

/-- Pop a byte: read it, then the stack pointer rises by one (10_state R29, 40_data_movement R118). -/
def popByte (s : State) (next : Byte → State → Result) : Result :=
  withMem s s.sp fun a => next (s.byte a) { s with sp := s.sp + 1 }

/-! ## The Drive -/

/-- The Drive byte at an address (00_scope R8: `D[a]`). -/
def State.driveByte (s : State) (a : Nat) : Byte := cellAt s.drive.cells a

/-- The state with a Drive byte written, in working memory only (44_drive_io R210). -/
def State.setDriveByte (s : State) (a : Nat) (v : Byte) : State :=
  { s with drive := { s.drive with cells := storeCell s.drive.cells a v } }

/-- `M[m + i] <- D[d + i]` for i below n (44_drive_io R214). -/
def State.copyFromDrive (s : State) (d m n : Nat) : State :=
  { s with mem := copyCells s.drive.cells n d s.mem m }

/-- `D[d + i] <- M[m + i]` for i below n (44_drive_io R215). -/
def State.copyToDrive (s : State) (m d n : Nat) : State :=
  { s with drive := { s.drive with cells := copyCells s.mem n m s.drive.cells d } }

/-! ## FunctionTable and CallStack -/

/-- The entry of a function id (10_state R34). -/
def lookupFunction : FunctionTable → Nat → Option Int
  | [], _ => none
  | (k, t) :: rest, id => if id = k then some t else lookupFunction rest id

/-- Set the entry of a function id, in place of an earlier one (42_control_flow R176). -/
def defineFunction : FunctionTable → Nat → Int → FunctionTable
  | [], id, t => [(id, t)]
  | (k, u) :: rest, id, t =>
    if id < k then (id, t) :: (k, u) :: rest
    else if id = k then (id, t) :: rest
    else (k, u) :: defineFunction rest id t

/-- The FunctionTable's canonical form: ids strictly rising from `lo` and 16 bits wide. -/
def idsWithin (lo : Nat) : FunctionTable → Bool
  | [] => true
  | (k, _) :: rest => decide (lo ≤ k) && decide (k < 65536) && idsWithin (k + 1) rest

/-- The first address from `k` on of a Memory of `size` bytes that holds RET_BYTE (42_control_flow R177). An
unlisted address reads 0, which is not RET_BYTE, so the listed cells are all there is to look at (log entry
13). -/
def scanForRet (size : Nat) (ret : Byte) (m : Cells) (k : Nat) : Option Nat :=
  (m.find? fun c => decide (k ≤ c.1) && decide (c.1 < size) && c.2 == ret).map (·.1)

/-- A call: push the return record, go to the function's entry (42_control_flow R179). -/
def callFunction (s : State) (id : U16) (len : Nat) : Result :=
  match lookupFunction s.ft id.toNat with
  | none => raiseFault (.unresolvedFunctionReference id) s
  | some target => jumpTo target { s with cs := ⟨s.pc, s.pc + len⟩ :: s.cs }

/-! ## The draw-command port -/

/-- Emit a record on the draw-command port (45_presentation R230). -/
def State.emit (s : State) (c : DrawCommand) : State := { s with draws := s.draws ++ [c] }

/-! ## Input sampling and fetch -/

/-- The nine bytes of an input sample, in the order of the input registers (20_memory R57). -/
def sampleBytes (smp : InputSample) : List Byte :=
  smp.key :: (bytes16 smp.mouseX ++ (bytes16 smp.mouseY ++ (bytes16 smp.screenW ++ bytes16 smp.screenH)))

/-- Write an input sample into the memory-mapped input registers (20_memory R58). -/
def sampleInputs (smp : InputSample) (s : State) : State :=
  { s with mem := storeBytes s.mem s.params.ioBase (sampleBytes smp) }

/-- The bytes an instruction at address `a` can be made of: as many as the longest instruction has, up to
the end of Memory (30_encoding R85; log entry 17). -/
def fetchBytes (s : State) (a : Nat) : List Byte :=
  readBytes s.mem a (min maxInstrLen (s.params.memSize - a))

/-- Fetch and decode the instruction at the program counter, or the fault of the fetch: the program
counter out of range, or an operand byte out of range, recorded by the first address out of range
(10_state R25, 30_encoding R85, 60_exceptions R262 (1) and (2)). -/
def fetch (s : State) : Except EngineFault Instr :=
  if inMemory s.params.memSize s.pc then
    match decode s.params.opcodeMap (fetchBytes s s.pc.toNat) with
    | .ok (i, _) => .ok i
    | .error _ => .error (.memoryAddressOutOfBounds (s.pc + (fetchBytes s s.pc.toNat).length))
  else .error (.memoryAddressOutOfBounds s.pc)

end Sys2Proof.Machine
end

