-- ==== Sys2Proof/Machine/Flags.lean ====
section
/-! DEFINITION. The carry-flag ALU (41_arithmetic R140, R141). There is no other flag (R140, 10_state R27). -/

namespace Sys2Proof.Machine

/-- A result and the carry flag after it. -/
structure AluResult where
  value : Byte
  carry : Bool
deriving DecidableEq, Repr

/-- The carry flag after an addition or a subtraction that does or does not carry out: `sticky` never
clears it, `overwrite` always writes it (41_arithmetic R140, R141). -/
def carryAfter (policy : CarryPolicy) (before event : Bool) : Bool :=
  match policy with
  | .sticky => before || event
  | .overwrite => event

/-- AddOp: the integer sum, mod 256; a sum above 255 carries (41_arithmetic R140). -/
def addOp (policy : CarryPolicy) (carry : Bool) (a b : Byte) : AluResult :=
  let sum := a.toNat + b.toNat
  ⟨BitVec.ofNat 8 sum, carryAfter policy carry (decide (255 < sum))⟩

/-- SubOp: the integer difference of the unsigned bytes, mod 256; a negative difference borrows
(41_arithmetic R141). -/
def subOp (policy : CarryPolicy) (carry : Bool) (a b : Byte) : AluResult :=
  let difference : Int := a.toNat - b.toNat
  ⟨BitVec.ofInt 8 difference, carryAfter policy carry (decide (difference < 0))⟩

/-- The state with an addition's result in `rd` and its carry. -/
def State.addInto (s : State) (rd : Reg) (a b : Byte) : State :=
  let r := addOp s.params.carryPolicy s.carry a b
  { s.setReg rd r.value with carry := r.carry }

/-- The state with a subtraction's result in `rd` and its borrow. -/
def State.subInto (s : State) (rd : Reg) (a b : Byte) : State :=
  let r := subOp s.params.carryPolicy s.carry a b
  { s.setReg rd r.value with carry := r.carry }

end Sys2Proof.Machine
end

