-- ==== Sys2Proof/Machine/Arithmetic.lean ====
section
/-! DEFINITION. Arithmetic and carry instructions, 0x10 to 0x1D (41_arithmetic). -/

namespace Sys2Proof.Machine

/-- ADD (41_arithmetic R142). -/
def execAdd (ra rb : Byte) (s : State) : Result :=
  withReg s 1 ra fun a => withReg s 2 rb fun b => retire 3 (s.addInto a (s.reg a) (s.reg b))

/-- ADDV (41_arithmetic R143). -/
def execAddv (ra imm : Byte) (s : State) : Result :=
  withReg s 1 ra fun a => retire 3 (s.addInto a (s.reg a) imm)

/-- SUB (41_arithmetic R144). -/
def execSub (ra rb : Byte) (s : State) : Result :=
  withReg s 1 ra fun a => withReg s 2 rb fun b => retire 3 (s.subInto a (s.reg a) (s.reg b))

/-- SUBV (41_arithmetic R145). -/
def execSubv (ra imm : Byte) (s : State) : Result :=
  withReg s 1 ra fun a => retire 3 (s.subInto a (s.reg a) imm)

/-- ADD3 (41_arithmetic R146). -/
def execAdd3 (ra rb rd : Byte) (s : State) : Result :=
  withReg s 1 ra fun a => withReg s 2 rb fun b => withReg s 3 rd fun d =>
    retire 4 (s.addInto d (s.reg a) (s.reg b))

/-- ADDV3 (41_arithmetic R147). -/
def execAddv3 (ra imm rd : Byte) (s : State) : Result :=
  withReg s 1 ra fun a => withReg s 3 rd fun d => retire 4 (s.addInto d (s.reg a) imm)

/-- SUB3 (41_arithmetic R148). -/
def execSub3 (ra rb rd : Byte) (s : State) : Result :=
  withReg s 1 ra fun a => withReg s 2 rb fun b => withReg s 3 rd fun d =>
    retire 4 (s.subInto d (s.reg a) (s.reg b))

/-- SUBV3 (41_arithmetic R149). -/
def execSubv3 (ra imm rd : Byte) (s : State) : Result :=
  withReg s 1 ra fun a => withReg s 3 rd fun d => retire 4 (s.subInto d (s.reg a) imm)

/-- INC (41_arithmetic R150). -/
def execInc (r : Byte) (s : State) : Result :=
  withReg s 1 r fun a => retire 2 (s.addInto a (s.reg a) 1#8)

/-- DEC (41_arithmetic R151). -/
def execDec (r : Byte) (s : State) : Result :=
  withReg s 1 r fun a => retire 2 (s.subInto a (s.reg a) 1#8)

/-- ADC: adds exactly 1 if C is set; C is not written (41_arithmetic R152). -/
def execAdc (r : Byte) (s : State) : Result :=
  withReg s 1 r fun a => if s.carry then retire 2 (s.setReg a (s.reg a + 1#8)) else retire 2 s

/-- SBC: subtracts exactly 1 if C is set; C is not written (41_arithmetic R153). -/
def execSbc (r : Byte) (s : State) : Result :=
  withReg s 1 r fun a => if s.carry then retire 2 (s.setReg a (s.reg a - 1#8)) else retire 2 s

/-- CCF (41_arithmetic R154). -/
def execCcf (s : State) : Result := retire 1 { s with carry := false }

/-- SCF (41_arithmetic R155). -/
def execScf (s : State) : Result := retire 1 { s with carry := true }

end Sys2Proof.Machine
end

