-- ==== Sys2Proof/Machine/Operands.lean ====
section
/-! DEFINITION. The addressing modes that compute something (30_encoding R83). Register direct,
immediate, absolute and function-id operands are the fields themselves. -/

namespace Sys2Proof.Machine

/-- Absolute: the `abs16` field as a Memory address; always in range (40_data_movement R111; log entry
20). -/
def absolute (addr : U16) : Nat := addr.toNat

/-- Register-indexed: `base + x[ri]`, an integer sum without wrap, at most 65,790 (40_data_movement R120). -/
def indexed (s : State) (base : U16) (ri : Reg) : Nat := base.toNat + (s.reg ri).toNat

/-- Pc-relative: `A + sext_8(d) + 1` (42_control_flow R171). -/
def relative (s : State) (d : Byte) : Int := s.pc + d.toInt + 1

/-- Memory-indirect displacement: the literal plus the big-endian word at the pointer, mod 2^16
(45_presentation R231). -/
def displaced (s : State) (literal ptr : U16) : U16 := literal + s.word ptr.toNat

/-- A register pair as a 16-bit number, the first the high byte (43_wide_math R202). -/
def pairValue (s : State) (hi lo : Reg) : Nat := (s.reg hi).toNat * 256 + (s.reg lo).toNat

/-- Write a 16-bit result into two registers: the high byte first, then the low byte, so that one register
named twice ends with the low byte (43_wide_math R200). -/
def writePair (s : State) (hi lo : Reg) (v : Nat) : State :=
  (s.setReg hi (BitVec.ofNat 8 (v / 256))).setReg lo (BitVec.ofNat 8 v)

end Sys2Proof.Machine
end

