-- ==== Sys2Proof/Machine/ControlFlow.lean ====
section
/-! DEFINITION. Control-flow instructions, 0x30 to 0x37 (42_control_flow), and the one-byte no-op of the
unassigned opcodes (30_encoding R87). -/

namespace Sys2Proof.Machine

/-- JMP (42_control_flow R172). -/
def execJmp (d : Byte) (s : State) : Result := jumpTo (relative s d) s

/-- JPZ (42_control_flow R173). -/
def execJpz (d rg : Byte) (s : State) : Result :=
  withReg s 2 rg fun g => if s.reg g = 0#8 then jumpTo (relative s d) s else retire 3 s

/-- JPNZ (42_control_flow R174). -/
def execJpnz (d rg : Byte) (s : State) : Result :=
  withReg s 2 rg fun g => if s.reg g ≠ 0#8 then jumpTo (relative s d) s else retire 3 s

/-- FNC: scan for the RET byte, then write the FunctionTable and go past that byte
(42_control_flow R176, R177). -/
def execFnc (id : U16) (s : State) : Result :=
  withMem s (s.pc + 3) fun k =>
    match scanForRet s.params.memSize s.params.retByte s.mem k with
    | none => raiseFault (.memoryAddressOutOfBounds s.params.memSize) s
    | some j => jumpTo (j + 1) { s with ft := defineFunction s.ft id.toNat (s.pc + 3) }

/-- RET (42_control_flow R178). -/
def execRet (s : State) : Result :=
  match s.cs with
  | [] => raiseFault .emptyCallStack s
  | record :: rest => jumpTo record.resume { s with cs := rest }

/-- CAL (42_control_flow R179). -/
def execCal (id : U16) (s : State) : Result := callFunction s id 3

/-- CLZ: the id is looked up only if the call is taken (42_control_flow R180). -/
def execClz (id : U16) (rg : Byte) (s : State) : Result :=
  withReg s 3 rg fun g => if s.reg g = 0#8 then callFunction s id 4 else retire 4 s

/-- CLNZ (42_control_flow R181). -/
def execClnz (id : U16) (rg : Byte) (s : State) : Result :=
  withReg s 3 rg fun g => if s.reg g ≠ 0#8 then callFunction s id 4 else retire 4 s

/-- An unassigned opcode: a one-byte no-op (30_encoding R87). -/
def execUnassigned (_op : Byte) (s : State) : Result := retire 1 s

end Sys2Proof.Machine
end

