-- ==== Sys2Proof/Machine/DataMovement.lean ====
section
/-! DEFINITION. Data movement and stack instructions, 0x00 to 0x0C (40_data_movement). -/

namespace Sys2Proof.Machine

/-- LDV (40_data_movement R110). -/
def execLdv (rd imm : Byte) (s : State) : Result :=
  withReg s 1 rd fun d => retire 3 (s.setReg d imm)

/-- LDA (40_data_movement R111). -/
def execLda (rd : Byte) (addr : U16) (s : State) : Result :=
  withReg s 1 rd fun d => retire 4 (s.setReg d (s.byte (absolute addr)))

/-- STA (40_data_movement R112). -/
def execSta (rs : Byte) (addr : U16) (s : State) : Result :=
  withReg s 1 rs fun r => retire 4 (s.setByte (absolute addr) (s.reg r))

/-- MOV (40_data_movement R113). -/
def execMov (rd rs : Byte) (s : State) : Result :=
  withReg s 1 rd fun d => withReg s 2 rs fun r => retire 3 (s.setReg d (s.reg r))

/-- LVZ (40_data_movement R114). -/
def execLvz (rd imm rg : Byte) (s : State) : Result :=
  withReg s 1 rd fun d => withReg s 3 rg fun g =>
    if s.reg g = 0#8 then retire 4 (s.setReg d imm) else retire 4 s

/-- LVNZ (40_data_movement R115). -/
def execLvnz (rd imm rg : Byte) (s : State) : Result :=
  withReg s 1 rd fun d => withReg s 3 rg fun g =>
    if s.reg g ≠ 0#8 then retire 4 (s.setReg d imm) else retire 4 s

/-- PSH (40_data_movement R116). -/
def execPsh (rs : Byte) (s : State) : Result :=
  withReg s 1 rs fun r => pushByte s (s.reg r) fun t => retire 2 t

/-- PSV (40_data_movement R117). -/
def execPsv (imm : Byte) (s : State) : Result :=
  pushByte s imm fun t => retire 2 t

/-- POP (40_data_movement R118). -/
def execPop (rd : Byte) (s : State) : Result :=
  withReg s 1 rd fun d => popByte s fun v t => retire 2 (t.setReg d v)

/-- POPM (40_data_movement R119). -/
def execPopm (addr : U16) (s : State) : Result :=
  popByte s fun v t => retire 3 (t.setByte (absolute addr) v)

/-- LDO (40_data_movement R120). -/
def execLdo (rd : Byte) (base : U16) (ri : Byte) (s : State) : Result :=
  withReg s 1 rd fun d => withReg s 4 ri fun i => retire 5 (s.setReg d (s.byte (indexed s base i)))

/-- STO (40_data_movement R121). -/
def execSto (rs : Byte) (base : U16) (ri : Byte) (s : State) : Result :=
  withReg s 1 rs fun r => withReg s 4 ri fun i => retire 5 (s.setByte (indexed s base i) (s.reg r))

/-- SVA (40_data_movement R122). -/
def execSva (imm : Byte) (addr : U16) (s : State) : Result :=
  retire 4 (s.setByte (absolute addr) imm)

end Sys2Proof.Machine
end

