-- ==== Sys2Proof/Machine/DriveIo.lean ====
section
/-! DEFINITION. Drive I/O instructions, 0x60 to 0x64 (44_drive_io). -/

namespace Sys2Proof.Machine

/-- STD (44_drive_io R211). -/
def execStd (rs : Byte) (d : U32) (s : State) : Result :=
  withReg s 1 rs fun r => withDrive s d (retire 6 (s.setDriveByte d.toNat (s.reg r)))

/-- SVD (44_drive_io R212). -/
def execSvd (imm : Byte) (d : U32) (s : State) : Result :=
  withDrive s d (retire 6 (s.setDriveByte d.toNat imm))

/-- LDTM (44_drive_io R213). -/
def execLdtm (d : U32) (m : U24) (s : State) : Result :=
  withDrive s d (withMem s m.toNat fun a => retire 8 (s.setByte a (s.driveByte d.toNat)))

/-- LDML: a block of length 0 moves nothing and checks no address (44_drive_io R210, R214). -/
def execLdml (d : U32) (m : U24) (n : U16) (s : State) : Result :=
  if n = 0#16 then retire 10 s
  else withBlock s d m n (retire 10 (s.copyFromDrive d.toNat m.toNat n.toNat))

/-- SMDL: a block of length 0 moves nothing and checks no address (44_drive_io R210, R215). -/
def execSmdl (m : U24) (d : U32) (n : U16) (s : State) : Result :=
  if n = 0#16 then retire 10 s
  else withBlock s d m n (retire 10 (s.copyToDrive m.toNat d.toNat n.toNat))

end Sys2Proof.Machine
end

