-- ==== Sys2Proof/Machine/Presentation.lean ====
section
/-! DEFINITION. Presentation instructions, 0x80 to 0x8A (45_presentation): each emits one record on the
draw-command port; CLS emits Present and waits. -/

namespace Sys2Proof.Machine

/-- TXR (45_presentation R232). -/
def execTxr (rg : Byte) (x y size : U16) (color : Rgba) (s : State) : Result :=
  withReg s 1 rg fun g => retire 12 (s.emit (.text [s.reg g] x y size color))

/-- TXL, of length 12 + n (45_presentation R233). -/
def execTxl (x y size : U16) (color : Rgba) (glyphs : List Byte) (s : State) : Result :=
  retire (12 + glyphs.length) (s.emit (.text glyphs x y size color))

/-- RCT (45_presentation R234). -/
def execRct (x y w h : U16) (color : Rgba) (s : State) : Result :=
  retire 13 (s.emit (.rect x y w h color))

/-- CRC (45_presentation R235). -/
def execCrc (x y rad : U16) (color : Rgba) (s : State) : Result :=
  retire 11 (s.emit (.circle x y rad color))

/-- CLS: emit Present and wait. The program counter stays at CLS until `frame_ready` ends the wait
(45_presentation R238, `onFrameReady`; log entry 3). -/
def execCls (s : State) : Result := .next { s.emit .present with status := .waitingFrame }

/-- LNE (45_presentation R236). -/
def execLne (x1 y1 x2 y2 : U16) (color : Rgba) (s : State) : Result :=
  retire 13 (s.emit (.line x1 y1 x2 y2 color))

/-- MTXR (45_presentation R240). -/
def execMtxr (rg : Byte) (x y px py size : U16) (color : Rgba) (s : State) : Result :=
  withReg s 1 rg fun g =>
    retire 16 (s.emit (.text [s.reg g] (displaced s x px) (displaced s y py) size color))

/-- MTXL, of length 16 + n (45_presentation R241). -/
def execMtxl (x y px py size : U16) (color : Rgba) (glyphs : List Byte) (s : State) : Result :=
  retire (16 + glyphs.length) (s.emit (.text glyphs (displaced s x px) (displaced s y py) size color))

/-- MRCT (45_presentation R242). -/
def execMrct (x y px py w h : U16) (color : Rgba) (s : State) : Result :=
  retire 17 (s.emit (.rect (displaced s x px) (displaced s y py) w h color))

/-- MCRC (45_presentation R243). -/
def execMcrc (x y px py rad : U16) (color : Rgba) (s : State) : Result :=
  retire 15 (s.emit (.circle (displaced s x px) (displaced s y py) rad color))

/-- MLNE: both endpoints are displaced (45_presentation R244). -/
def execMlne (x1 y1 x2 y2 px py : U16) (color : Rgba) (s : State) : Result :=
  retire 17
    (s.emit (.line (displaced s x1 px) (displaced s y1 py) (displaced s x2 px) (displaced s y2 py) color))

end Sys2Proof.Machine
end

