-- ==== Sys2Proof/Machine/Persistence.lean ====
section
/-! DEFINITION. The drive persistence controller (60_exceptions R280 to R288): requests, service, commits
and write failures, each an event at a cycle boundary. -/

namespace Sys2Proof.Machine

/-- Append a request with a snapshot of the whole Drive (60_exceptions R283, R284). -/
def Persist.submit (p : Persist) (origin : Origin) (snapshot : Drive) : Persist :=
  { p with queue := p.queue ++ [⟨p.nextId, origin, snapshot⟩], nextId := p.nextId + 1 }

/-- `Idle, Q = S :: rest -> Writing(S, origin)`; nothing while a write is in flight, nothing queued, or
service over (60_exceptions R284). -/
def Persist.serve (p : Persist) : Persist :=
  match p.serving, p.writing, p.queue with
  | true, none, r :: rest => { p with writing := some r, queue := rest }
  | _, _, _ => p

/-- The write of `r` has committed: the backing image is its snapshot, whole (60_exceptions R284, R285). -/
def Persist.commit (p : Persist) (r : Request) : Persist :=
  { p with writing := none, backing := r.snapshot, lastCommitted := some r.id }

/-- The write in flight has failed: the backing image is unchanged, and there is no further service
(60_exceptions R284, R286). -/
def Persist.fail (p : Persist) : Persist := { p with writing := none, serving := false }

/-- HLT's wait is over: the engine runs on at the next byte (46_termination R257). -/
def resumeHlt (s : State) : State := { s with status := .running, pc := s.pc + 1 }

/-- The fault of a failed background write: the program counter is that of the next opcode, the opcode is
absent (60_exceptions R286). -/
def backgroundFault (s : State) : State :=
  stopWith ⟨.ioFault .driveImage .write, s.pc, none⟩ s

/-- The fault of HLT's own failed write, at HLT's address (60_exceptions R286, 46_termination R257). -/
def foregroundFault (s : State) : State := enterFault (.ioFault .driveImage .write) s

/-- A tick: a background request with the Drive as it is at this boundary (60_exceptions R282, R283). -/
def onTick (s : State) : State := { s with persist := s.persist.submit .background s.drive }

/-- The controller's turn to begin a write (60_exceptions R284). -/
def onServe (s : State) : State := { s with persist := s.persist.serve }

/-- The store has committed the write in flight. A foreground commit ends HLT's wait (60_exceptions R284).
Without a write in flight nothing happens (log entry 16). -/
def onCommitted (s : State) : State :=
  match s.persist.writing with
  | none => s
  | some r =>
    let t := { s with persist := s.persist.commit r }
    match r.origin, s.status with
    | .foreground, .checkpointing => resumeHlt t
    | _, _ => t

/-- The store has failed the write in flight (60_exceptions R286). HLT's own write is HLT's fault. A
background write's fault comes at this boundary, or waits for a CLS in progress to retire (R268; log
entries 5 and 6); an engine that has stopped takes no second fault (R264). -/
def onIoError (s : State) : State :=
  match s.persist.writing with
  | none => s
  | some r =>
    let t := { s with persist := s.persist.fail }
    match s.status, r.origin with
    | .running, _ => backgroundFault t
    | .waitingFrame, _ => { t with persist := { t.persist with ioPending := true } }
    | .checkpointing, .foreground => foregroundFault t
    | .checkpointing, .background => backgroundFault t
    | .faulted _, _ => t
    | .terminated, _ => t

/-- CLS's wait is over: Clear is emitted and the engine runs on at the next byte (45_presentation R238);
then the fault of a background write that failed during the wait (60_exceptions R268, R286; log entry 5). -/
def resumeCls (s : State) : State :=
  let t := { s.emit .clear with status := .running, pc := s.pc + 1 }
  if s.persist.ioPending then backgroundFault { t with persist := { t.persist with ioPending := false } } else t

/-- `frame_ready` ends a wait in CLS, and is nothing to an engine that does not wait for it
(60_exceptions R272; log entry 16). -/
def onFrameReady (s : State) : State :=
  match s.status with
  | .waitingFrame => resumeCls s
  | .running | .checkpointing | .faulted _ | .terminated => s

end Sys2Proof.Machine
end

