-- ==== Sys2Proof/Machine/Termination.lean ====
section
/-! DEFINITION. Termination-signal instructions, 0xFE and 0xFF (46_termination). Neither stops the engine. -/

namespace Sys2Proof.Machine

/-- EXT (46_termination R255). -/
def execExt (code : Byte) (s : State) : Result := jumpTo s.params.extNextPc (s.setReg .r7 code)

/-- HLT: submit a foreground request with a copy of the whole Drive, and wait. The program counter stays
at HLT until the controller reports the commit or the failure (46_termination R257, `onCommitted`,
`onIoError`; log entry 3). -/
def execHlt (s : State) : Result :=
  .next { s with status := .checkpointing, persist := s.persist.submit .foreground s.drive }

end Sys2Proof.Machine
end

