-- ==== Sys2Proof/Machine/WideMath.lean ====
section
/-! DEFINITION. Wide-math instructions, 0x40 and 0x41 (43_wide_math). -/

namespace Sys2Proof.Machine

/-- MLT: the 16-bit product of two unsigned bytes (43_wide_math R201). -/
def execMlt (ra rb rh rl : Byte) (s : State) : Result :=
  withReg s 1 ra fun a => withReg s 2 rb fun b => withReg s 3 rh fun h => withReg s 4 rl fun l =>
    retire 5 (writePair s h l ((s.reg a).toNat * (s.reg b).toNat))

/-- DIV: the floor quotient of two unsigned 16-bit register pairs (43_wide_math R202). -/
def execDiv (ah al bh bl qh ql : Byte) (s : State) : Result :=
  withReg s 1 ah fun ah => withReg s 2 al fun al => withReg s 3 bh fun bh => withReg s 4 bl fun bl =>
  withReg s 5 qh fun qh => withReg s 6 ql fun ql =>
    if pairValue s bh bl = 0 then raiseFault .divideByZero s
    else retire 7 (writePair s qh ql (pairValue s ah al / pairValue s bh bl))

end Sys2Proof.Machine
end

