-- ==== Sys2Proof/Machine/Dispatch.lean ====
section
/-! DEFINITION. The dispatch (10_state R23 step 3): one arm per constructor, each its instruction's meaning. -/

namespace Sys2Proof.Machine

/-- The effect of an instruction (30_encoding R90), its operands fetched and its opcode at the program
counter. -/
def exec (ins : Instr) (st : State) : Host.Outcome State Fault Refusal :=
  match ins with
  -- Data movement and stack, 0x00 to 0x0C
  | .ldv rd imm => Sys2Proof.Machine.execLdv rd imm st
  | .lda rd addr => Sys2Proof.Machine.execLda rd addr st
  | .sta rs addr => Sys2Proof.Machine.execSta rs addr st
  | .mov rd rs => Sys2Proof.Machine.execMov rd rs st
  | .lvz rd imm rg => Sys2Proof.Machine.execLvz rd imm rg st
  | .lvnz rd imm rg => Sys2Proof.Machine.execLvnz rd imm rg st
  | .psh rs => Sys2Proof.Machine.execPsh rs st
  | .psv imm => Sys2Proof.Machine.execPsv imm st
  | .pop rd => Sys2Proof.Machine.execPop rd st
  | .popm addr => Sys2Proof.Machine.execPopm addr st
  | .ldo rd base ri => Sys2Proof.Machine.execLdo rd base ri st
  | .sto rs base ri => Sys2Proof.Machine.execSto rs base ri st
  | .sva imm addr => Sys2Proof.Machine.execSva imm addr st
  -- Arithmetic and carry, 0x10 to 0x1D
  | .add ra rb => Sys2Proof.Machine.execAdd ra rb st
  | .addv ra imm => Sys2Proof.Machine.execAddv ra imm st
  | .sub ra rb => Sys2Proof.Machine.execSub ra rb st
  | .subv ra imm => Sys2Proof.Machine.execSubv ra imm st
  | .add3 ra rb rd => Sys2Proof.Machine.execAdd3 ra rb rd st
  | .addv3 ra imm rd => Sys2Proof.Machine.execAddv3 ra imm rd st
  | .sub3 ra rb rd => Sys2Proof.Machine.execSub3 ra rb rd st
  | .subv3 ra imm rd => Sys2Proof.Machine.execSubv3 ra imm rd st
  | .inc r => Sys2Proof.Machine.execInc r st
  | .dec r => Sys2Proof.Machine.execDec r st
  | .adc r => Sys2Proof.Machine.execAdc r st
  | .sbc r => Sys2Proof.Machine.execSbc r st
  | .ccf => Sys2Proof.Machine.execCcf st
  | .scf => Sys2Proof.Machine.execScf st
  -- Control flow, 0x30 to 0x37
  | .jmp d => Sys2Proof.Machine.execJmp d st
  | .jpz d rg => Sys2Proof.Machine.execJpz d rg st
  | .jpnz d rg => Sys2Proof.Machine.execJpnz d rg st
  | .fnc id => Sys2Proof.Machine.execFnc id st
  | .ret => Sys2Proof.Machine.execRet st
  | .cal id => Sys2Proof.Machine.execCal id st
  | .clz id rg => Sys2Proof.Machine.execClz id rg st
  | .clnz id rg => Sys2Proof.Machine.execClnz id rg st
  -- Wide math, 0x40 and 0x41
  | .mlt ra rb rh rl => Sys2Proof.Machine.execMlt ra rb rh rl st
  | .div ah al bh bl qh ql => Sys2Proof.Machine.execDiv ah al bh bl qh ql st
  -- Drive, 0x60 to 0x64
  | .std rs d => Sys2Proof.Machine.execStd rs d st
  | .svd imm d => Sys2Proof.Machine.execSvd imm d st
  | .ldtm d m => Sys2Proof.Machine.execLdtm d m st
  | .ldml d m n => Sys2Proof.Machine.execLdml d m n st
  | .smdl m d n => Sys2Proof.Machine.execSmdl m d n st
  -- Presentation, 0x80 to 0x8A
  | .txr rg x y size color => Sys2Proof.Machine.execTxr rg x y size color st
  | .txl x y size color glyphs => Sys2Proof.Machine.execTxl x y size color glyphs st
  | .rct x y w h color => Sys2Proof.Machine.execRct x y w h color st
  | .crc x y rad color => Sys2Proof.Machine.execCrc x y rad color st
  | .cls => Sys2Proof.Machine.execCls st
  | .lne x1 y1 x2 y2 color => Sys2Proof.Machine.execLne x1 y1 x2 y2 color st
  | .mtxr rg x y px py size color => Sys2Proof.Machine.execMtxr rg x y px py size color st
  | .mtxl x y px py size color glyphs => Sys2Proof.Machine.execMtxl x y px py size color glyphs st
  | .mrct x y px py w h color => Sys2Proof.Machine.execMrct x y px py w h color st
  | .mcrc x y px py rad color => Sys2Proof.Machine.execMcrc x y px py rad color st
  | .mlne x1 y1 x2 y2 px py color => Sys2Proof.Machine.execMlne x1 y1 x2 y2 px py color st
  -- Termination signals, 0xFE and 0xFF
  | .ext code => Sys2Proof.Machine.execExt code st
  | .hlt => Sys2Proof.Machine.execHlt st
  -- The opcodes no row takes (R87)
  | .unassigned op => Sys2Proof.Machine.execUnassigned op st

end Sys2Proof.Machine
end

