-- ==== Sys2Proof/Machine/Engine.lean ====
section
/-! DEFINITION. One cycle of the engine (10_state R23), what each event does in each status of the engine,
and the load of a code image and a drive image (70_reset_and_hazards R301). -/

namespace Sys2Proof.Machine

/-- The next event, and the state without it: the first of `host`, or the opaque draw once there is none
(log entry 1). -/
def takeEvent (s : State) : HostEvent × State :=
  match s.host with
  | e :: rest => (e, { s with host := rest })
  | [] => (Config.hostEvent s.drawn, { s with drawn := s.drawn + 1 })

/-- Fetch and run the instruction at the program counter; a fault of the fetch is taken
(10_state R23 steps 2 to 4). -/
def runInstruction (s : State) : Result :=
  match fetch s with
  | .ok i => exec i s
  | .error f => raiseFault f s

/-- One cycle: sample, fetch, dispatch, advance (10_state R23). -/
def runCycle (smp : InputSample) (s : State) : Result := runInstruction (sampleInputs smp s)

/-- An event of a running engine (60_exceptions R268, R282 to R286). -/
def onRunning (e : HostEvent) (s : State) : Result :=
  match e with
  | .cycle smp => runCycle smp s
  | .tick => .next (onTick s)
  | .serve => .next (onServe s)
  | .committed => .next (onCommitted s)
  | .ioError => .next (onIoError s)
  | .frameReady => .next (onFrameReady s)
  | .terminate => .next { s with status := .terminated }

/-- An event of an engine that waits in CLS or HLT: it has no cycle, takes no sample, and all else goes on
(60_exceptions R272, R283, 45_presentation R238 (c)). -/
def onWaiting (e : HostEvent) (s : State) : Result :=
  match e with
  | .cycle _ => .next s
  | .tick => .next (onTick s)
  | .serve => .next (onServe s)
  | .committed => .next (onCommitted s)
  | .ioError => .next (onIoError s)
  | .frameReady => .next (onFrameReady s)
  | .terminate => .next { s with status := .terminated }

/-- An event of a faulted engine: no further cycle, no new request; what the controller has accepted may
still be written (60_exceptions R263 to R265; log entry 7). -/
def onFaulted (e : HostEvent) (r : FaultRecord) (s : State) : Result :=
  match e with
  | .cycle _ => .fault (.engineFaulted r)
  | .serve => .next (onServe s)
  | .committed => .next (onCommitted s)
  | .ioError => .next (onIoError s)
  | .tick | .frameReady | .terminate => .next s

/-- An event of a terminated block: only the write in flight may still end (00_scope R17, 60_exceptions
R285; log entry 7). -/
def onTerminated (e : HostEvent) (s : State) : Result :=
  match e, s.persist.writing with
  | .committed, some _ => .next (onCommitted s)
  | .ioError, some _ => .next (onIoError s)
  | _, _ => .fault .blockTerminated

/-- What an event does, by the engine's status (10_state R36). -/
def onEvent (e : HostEvent) (s : State) : Result :=
  match s.status with
  | .running => onRunning e s
  | .waitingFrame => onWaiting e s
  | .checkpointing => onWaiting e s
  | .faulted r => onFaulted e r s
  | .terminated => onTerminated e s

/-! ## Loading -/

/-- Start a run: load a code image and a drive image; or the IOFault of the file that cannot be read in full
or does not fit: then there is no run (70_reset_and_hazards R301, 60_exceptions R261, R265; log entry 18).
An image that cannot be read is `none`. -/
def startRun (params : Params) (code : Option (List Byte)) (image : Option Drive) : Except EngineFault State :=
  match code with
  | none => .error (.ioFault .codeImage .read)
  | some codeBytes =>
    if params.memSize - params.codeBase < codeBytes.length then .error (.ioFault .codeImage .read)
    else match image with
      | none => .error (.ioFault .driveImage .read)
      | some drive =>
        if Config.maxDriveLen < drive.len then .error (.ioFault .driveImage .read)
        else .ok (State.loaded params (cellsOfBytes params.codeBase codeBytes) drive)

/-- Start a run with a code image and a drive image as their files hold them. -/
def boot (params : Params) (code image : Option (List Byte)) : Except EngineFault State :=
  startRun params code (image.map Drive.ofBytes)

/-- Start a new run of the machine in state `s`, which reloads the drive image: the last committed one
(60_exceptions R285, 44_drive_io R216). Of `s` the new run keeps the parameters and the events to come (log
entry 21). -/
def restart (code : Option (List Byte)) (s : State) : Except EngineFault State :=
  match startRun s.params code (some s.persist.backing) with
  | .ok t => .ok { t with host := s.host, drawn := s.drawn }
  | .error f => .error f

/-! ## Placing one instruction -/

/-- The input sample that leaves the input registers as they are. -/
def presentSample (s : State) : InputSample :=
  let io := s.params.ioBase
  ⟨s.byte io, s.word (io + 1), s.word (io + 3), s.word (io + 5), s.word (io + 7)⟩

/-- The state with these bytes at the program counter, as many as Memory has room for, and an engine cycle
as the next event, its sample what the input registers hold. -/
def placeBytes (s : State) (bytes : List Byte) : State :=
  if inMemory s.params.memSize s.pc then
    let room := s.params.memSize - s.pc.toNat
    let t := { s with mem := storeBytes s.mem s.pc.toNat (bytes.take room) }
    { t with host := .cycle (presentSample t) :: t.host }
  else s

end Sys2Proof.Machine
end

