-- ==== Sys2Proof/Machine/Step.lean ====
section
/-! DEFINITION. One step of the machine: the next event, and what it does. And the host's placing of one
instruction where the next step fetches. -/

namespace Sys2Proof.Machine

/-- One step: the agent that the next event names moves (10_state R23, 60_exceptions R284; log entry 1). -/
def step (s : State) : Host.Outcome State Fault Refusal :=
  onEvent (takeEvent s).1 (takeEvent s).2

/-- `s` with the instruction of an opcode-table word at the program counter, and an engine cycle as the
next event, so that the very next step fetches and runs it (log entry 2). -/
def State.withFetchWord (s : State) (nbits w : Nat) : State := placeBytes s (tableBytes nbits w)

end Sys2Proof.Machine
end

