-- ==== Sys2Proof/Safety.lean ====
section
/-! DEFINITION. What counts as a legal state of the machine, and the terms the statements use. -/

namespace Sys2Proof.Machine

/-! ## Legal states -/

/-- Every request not yet committed, the one in flight first: the order in which they commit
(60_exceptions R284). -/
def Persist.pending (p : Persist) : List Request := p.writing.toList ++ p.queue

/-- The snapshot numbers from the last commit on, with the next one to give: they rise
(60_exceptions R284, R288 (b)). -/
def Persist.numbers (p : Persist) : List Nat :=
  p.lastCommitted.toList ++ (p.pending.map (·.id) ++ [p.nextId])

/-- What the controller holds fits the engine's status: a foreground request is pending exactly while
HLT waits, and its snapshot is the Drive (46_termination R257); service is over only in an engine that
stops for it (60_exceptions R286). -/
def Persist.fits (p : Persist) (drive : Drive) : Status → Prop
  | .running => p.serving = true ∧ p.ioPending = false ∧ ∀ r ∈ p.pending, r.origin = .background
  | .waitingFrame => p.serving = !p.ioPending ∧ ∀ r ∈ p.pending, r.origin = .background
  | .checkpointing => p.serving = true ∧ p.ioPending = false ∧
      ∃ before r after, p.pending = before ++ r :: after ∧ r.origin = .foreground ∧ r.snapshot = drive ∧
        (∀ q ∈ before, q.origin = .background) ∧ ∀ q ∈ after, q.origin = .background
  | .faulted _ => True
  | .terminated => True

/-- The diagnostic port has carried the fault record and nothing else, and the program counter is the
record's (60_exceptions R263). -/
def State.diagnosed (s : State) : Prop :=
  match s.status with
  | .faulted r => s.diags = [r] ∧ r.pc = s.pc
  | .running | .waitingFrame | .checkpointing | .terminated => s.diags = []

/-- A legal state: what reset establishes and every step keeps. -/
structure State.Inv (s : State) : Prop where
  /-- The parameters are legal (00_scope R5; log entry 20). -/
  params_wf : s.params.wf = true
  /-- Memory holds only bytes of its address space, in canonical form (20_memory R50). -/
  mem_wf : Memory.wf s.params.memSize s.mem = true
  /-- So does the Drive, of at most 2^32 bytes (20_memory R50, 00_scope R5). -/
  drive_wf : Drive.wf s.drive = true
  /-- FunctionTable ids are 16 bits wide, each with one entry (10_state R34). -/
  ft_wf : idsWithin 0 s.ft = true
  /-- FunctionTable entries are Memory addresses (10_state R34). -/
  ft_targets : ∀ p ∈ s.ft, inMemory s.params.memSize p.2 = true
  /-- A return record resumes after its call's 3 or 4 bytes (42_control_flow R179 to R181). -/
  cs_records : ∀ r ∈ s.cs, inMemory s.params.memSize r.site = true ∧ (r.resume = r.site + 3 ∨ r.resume = r.site + 4)
  /-- `0 ≤ SP ≤ MEM_SIZE` (40_data_movement R123). -/
  sp_range : 0 ≤ s.sp ∧ s.sp ≤ (s.params.memSize : Int)
  /-- The backing image is a Drive image of this Drive's length (60_exceptions R285). -/
  backing_wf : Drive.wf s.persist.backing = true ∧ s.persist.backing.len = s.drive.len
  /-- So is every snapshot (60_exceptions R283). -/
  snapshots_wf : ∀ r ∈ s.persist.pending, Drive.wf r.snapshot = true ∧ r.snapshot.len = s.drive.len
  /-- Snapshots commit in the order they were taken (60_exceptions R288 (b)). -/
  numbers_rise : s.persist.numbers.Pairwise (· < ·)
  /-- No write is in flight once service is over (60_exceptions R284). -/
  writing_served : s.persist.serving = false → s.persist.writing = none
  /-- What the controller holds fits the engine's status. -/
  persist_fits : s.persist.fits s.drive s.status
  /-- Exactly the fault that stopped the engine has been reported (60_exceptions R263). -/
  diagnosed : s.diagnosed

/-- A run is safe while the engine is not stopped by a fault (60_exceptions R264). -/
def State.safe (s : State) : Prop := ∀ r, s.status ≠ .faulted r

/-! ## Terms of the statements -/

/-- The instruction is one of these operations'. -/
def isOneOf (i : Instr) (ops : List Operation) : Prop := ∃ op ∈ ops, i.operation = some op

/-- The two's-complement value of a byte (00_scope R7). -/
def sext8 (v : Byte) : Int := if v.toNat < 128 then v.toNat else (v.toNat : Int) - 256

/-- The answer is a next state, and that state is as said. -/
def Completes (res : Result) (P : State → Prop) : Prop := ∃ t, res = .next t ∧ P t

/-- The answer is the entry into a fault from `s` (60_exceptions R263). That the entry is a next state is
the model's choice (log entry 4). -/
def Faults (res : Result) (s : State) (f : EngineFault) : Prop := res = .next (enterFault f s)

/-- The `reg` operand `b`, `k` bytes after the opcode: if it names a register, what is said of that
register holds; if not, the answer is InvalidRegisterIndex (30_encoding R86). -/
def OnReg (res : Result) (s : State) (k : Nat) (b : Byte) (P : Reg → Prop) : Prop :=
  (∀ r, regOfByte b = some r → P r) ∧
    (7 < b.toNat → Faults res s (.invalidRegisterIndex b (s.pc + k)))

/-- Every general register is as before. -/
def SameRegs (s t : State) : Prop := ∀ q, t.reg q = s.reg q

/-- Every general register but `d` is as before. -/
def SameRegsBut (d : Reg) (s t : State) : Prop := ∀ q, q ≠ d → t.reg q = s.reg q

/-- Every byte of Memory is as before. -/
def SameMemory (s t : State) : Prop := ∀ a, t.byte a = s.byte a

/-- Every byte of Memory but that at `a` is as before. -/
def SameMemoryBut (a : Nat) (s t : State) : Prop := ∀ b, b ≠ a → t.byte b = s.byte b

/-- Register `d` becomes `v` and the program counter moves on by `len`; all else is as before. -/
def WritesReg (s t : State) (d : Reg) (v : Byte) (len : Nat) : Prop :=
  t.reg d = v ∧ SameRegsBut d s t ∧ SameMemory s t ∧ t = { s with regs := t.regs, pc := s.pc + len }

/-- The Memory byte at `a` becomes `v` and the program counter moves on by `len`; all else is as before. -/
def StoresByte (s t : State) (a : Nat) (v : Byte) (len : Nat) : Prop :=
  t.byte a = v ∧ SameMemoryBut a s t ∧ SameRegs s t ∧ t = { s with mem := t.mem, pc := s.pc + len }

/-- Nothing happens but that the program counter becomes `target`. -/
def OnlyMoves (s t : State) (target : Int) : Prop :=
  SameRegs s t ∧ SameMemory s t ∧ t = { s with pc := target }

/-- Register `d` becomes the sum mod 256, and C follows CARRY_POLICY on whether the sum exceeds 255; all
else is as before (41_arithmetic R140). -/
def AddsInto (s t : State) (d : Reg) (a b : Byte) (len : Nat) : Prop :=
  (t.reg d).toNat = (a.toNat + b.toNat) % 256 ∧
  (s.params.carryPolicy = .sticky → t.carry = (s.carry || decide (a.toNat + b.toNat > 255))) ∧
  (s.params.carryPolicy = .overwrite → t.carry = decide (a.toNat + b.toNat > 255)) ∧
  SameRegsBut d s t ∧ SameMemory s t ∧ t = { s with regs := t.regs, carry := t.carry, pc := s.pc + len }

/-- Register `d` becomes the difference mod 256, and C follows CARRY_POLICY on whether there is a borrow;
all else is as before (41_arithmetic R141). -/
def SubtractsInto (s t : State) (d : Reg) (a b : Byte) (len : Nat) : Prop :=
  ((t.reg d).toNat : Int) = ((a.toNat : Int) - b.toNat) % 256 ∧
  (s.params.carryPolicy = .sticky → t.carry = (s.carry || decide (a.toNat < b.toNat))) ∧
  (s.params.carryPolicy = .overwrite → t.carry = decide (a.toNat < b.toNat)) ∧
  SameRegsBut d s t ∧ SameMemory s t ∧ t = { s with regs := t.regs, carry := t.carry, pc := s.pc + len }

/-- Registers `h` and `l` become the high and the low byte of `v`, one register named twice the low byte;
all else is as before (43_wide_math R200). -/
def WritesPair (s t : State) (h l : Reg) (v : Nat) (len : Nat) : Prop :=
  (t.reg l).toNat = v % 256 ∧ (h ≠ l → (t.reg h).toNat = v / 256) ∧
  (∀ q, q ≠ h → q ≠ l → t.reg q = s.reg q) ∧ SameMemory s t ∧
  t = { s with regs := t.regs, pc := s.pc + len }

/-- The Drive byte at `d` becomes `v`, the Drive's length stays, and the program counter moves on by
`len`; all else is as before (44_drive_io R211). -/
def StoresDriveByte (s t : State) (d : Nat) (v : Byte) (len : Nat) : Prop :=
  t.driveByte d = v ∧ (∀ a, a ≠ d → t.driveByte a = s.driveByte a) ∧ t.drive.len = s.drive.len ∧
  SameRegs s t ∧ SameMemory s t ∧ t = { s with drive := t.drive, pc := s.pc + len }

/-- One record is emitted and the program counter moves on by `len`; all else is as before
(45_presentation R230). -/
def Emits (s t : State) (c : DrawCommand) (len : Nat) : Prop :=
  SameRegs s t ∧ SameMemory s t ∧ t = { s with draws := s.draws ++ [c], pc := s.pc + len }

/-- `e` is the literal plus the big-endian word at the pointer, mod 65,536 (45_presentation R231). -/
def IsDisplaced (s : State) (literal ptr e : U16) : Prop :=
  e.toNat = (literal.toNat +
    ((s.byte ptr.toNat).toNat * 256 + (s.byte (ptr.toNat + 1)).toNat)) % 65536

/-- A call goes to the function's entry with a return record pushed, or the id has no entry and that is
the fault; all else is as before (42_control_flow R179). -/
def Calls (res : Result) (s : State) (id : U16) (len : Nat) : Prop :=
  (∀ target, lookupFunction s.ft id.toNat = some target →
    Completes res fun t => SameRegs s t ∧ SameMemory s t ∧
      t = { s with cs := ⟨s.pc, s.pc + len⟩ :: s.cs, pc := target }) ∧
  (lookupFunction s.ft id.toNat = none → Faults res s (.unresolvedFunctionReference id))

/-- `j` is the first address from `k` on that holds RET_BYTE (42_control_flow R177). -/
def IsFirstRet (s : State) (k : Int) (j : Nat) : Prop :=
  k ≤ j ∧ j < s.params.memSize ∧ s.byte j = s.params.retByte ∧
    ∀ a : Nat, k ≤ a → a < j → s.byte a ≠ s.params.retByte

/-- `step` meets this event next, and then has these events left. -/
def NextEvent (s : State) (e : HostEvent) (rest : List HostEvent) : Prop := s.host = e :: rest

end Sys2Proof.Machine
end

