-- ==== Sys2Proof/Certificates/Slice0/Obligations.lean ====
section
/-! DEFINITION. The statements for the provers. -/

open Sys2Proof Sys2Proof.Machine

/-! ## Data movement and stack (40_data_movement) -/

/-- LDV writes its immediate into `rd`, of 0 to 7, and nothing else; R110. -/
def Obligations.LdvLoadsImmediate : Prop :=
  ∀ (rd imm : Byte) (s : State),
    encode standardMap (.ldv rd imm) = [0x00#8, rd, imm] ∧
    OnReg (exec (.ldv rd imm) s) s 1 rd fun d =>
      Completes (exec (.ldv rd imm) s) fun t => WritesReg s t d imm 3

/-- LDA writes the Memory byte at its address into `rd`; no address is out of range; an input register
holds the sample that its cycle took; R111. -/
def Obligations.LdaLoadsByte : Prop :=
  ∀ (rd : Byte) (addr : U16) (s : State),
    encode standardMap (.lda rd addr) = 0x01#8 :: rd :: bytes16 addr ∧
    OnReg (exec (.lda rd addr) s) s 1 rd fun d =>
      Completes (exec (.lda rd addr) s) fun t => WritesReg s t d (s.byte addr.toNat) 4 ∧
        (∀ smp before, s = sampleInputs smp before → s.params.ioBase ≤ addr.toNat → addr.toNat ≤ s.params.ioLast →
          t.reg d = (sampleBytes smp).getD (addr.toNat - s.params.ioBase) 0#8)

/-- LDO loads from and STO stores to `base + x[ri]`, an integer sum without wrap, always in range, with the
registers as they were before. That the sum does not wrap is the spec's own decision D3. -/
def Obligations.LdoStoUseIndexedAddress : Prop :=
  (∀ (rd : Byte) (base : U16) (ri : Byte) (s : State),
    encode standardMap (.ldo rd base ri) = 0x0A#8 :: rd :: (bytes16 base ++ [ri]) ∧
    OnReg (exec (.ldo rd base ri) s) s 1 rd fun d => OnReg (exec (.ldo rd base ri) s) s 4 ri fun i =>
      Completes (exec (.ldo rd base ri) s) fun t =>
        WritesReg s t d (s.byte (base.toNat + (s.reg i).toNat)) 5) ∧
  (∀ (rs : Byte) (base : U16) (ri : Byte) (s : State),
    encode standardMap (.sto rs base ri) = 0x0B#8 :: rs :: (bytes16 base ++ [ri]) ∧
    OnReg (exec (.sto rs base ri) s) s 1 rs fun r => OnReg (exec (.sto rs base ri) s) s 4 ri fun i =>
      Completes (exec (.sto rs base ri) s) fun t =>
        indexed s base i = base.toNat + (s.reg i).toNat ∧ StoresByte s t (indexed s base i) (s.reg r) 5)

/-- STA and SVA store one byte at their address and change no other byte and no register; a byte stored in
an input register is overwritten by the next sample; R112, R122. -/
def Obligations.StaSvaStoreOneByte : Prop :=
  (∀ (rs : Byte) (addr : U16) (s : State),
    encode standardMap (.sta rs addr) = 0x02#8 :: rs :: bytes16 addr ∧
    OnReg (exec (.sta rs addr) s) s 1 rs fun r =>
      Completes (exec (.sta rs addr) s) fun t => StoresByte s t (absolute addr) (s.reg r) 4) ∧
  (∀ (imm : Byte) (addr : U16) (s : State),
    encode standardMap (.sva imm addr) = 0x0C#8 :: imm :: bytes16 addr ∧
    Completes (exec (.sva imm addr) s) fun t => StoresByte s t (absolute addr) imm 4) ∧
  (∀ (t : State) (smp : InputSample) (a : Nat), t.params.ioBase ≤ a → a ≤ t.params.ioLast →
    (sampleInputs smp t).byte a = (sampleBytes smp).getD (a - t.params.ioBase) 0#8)

/-- MOV copies `rs` into `rd`, `rd` checked first; R113. -/
def Obligations.MovCopiesRegister : Prop :=
  ∀ (rd rs : Byte) (s : State),
    encode standardMap (.mov rd rs) = [0x03#8, rd, rs] ∧
    OnReg (exec (.mov rd rs) s) s 1 rd fun d => OnReg (exec (.mov rd rs) s) s 2 rs fun r =>
      Completes (exec (.mov rd rs) s) fun t => WritesReg s t d (s.reg r) 3

/-- LVZ and LVNZ write their immediate if the guard register is zero, or is not; both registers are
checked whether or not it is; R114, R115. -/
def Obligations.LvzLvnzLoadOnGuard : Prop :=
  (∀ (rd imm rg : Byte) (s : State),
    encode standardMap (.lvz rd imm rg) = [0x04#8, rd, imm, rg] ∧
    OnReg (exec (.lvz rd imm rg) s) s 1 rd fun d => OnReg (exec (.lvz rd imm rg) s) s 3 rg fun g =>
      (s.reg g = 0#8 → Completes (exec (.lvz rd imm rg) s) fun t => WritesReg s t d imm 4) ∧
      (s.reg g ≠ 0#8 → Completes (exec (.lvz rd imm rg) s) fun t => OnlyMoves s t (s.pc + 4))) ∧
  (∀ (rd imm rg : Byte) (s : State),
    encode standardMap (.lvnz rd imm rg) = [0x05#8, rd, imm, rg] ∧
    OnReg (exec (.lvnz rd imm rg) s) s 1 rd fun d => OnReg (exec (.lvnz rd imm rg) s) s 3 rg fun g =>
      (s.reg g ≠ 0#8 → Completes (exec (.lvnz rd imm rg) s) fun t => WritesReg s t d imm 4) ∧
      (s.reg g = 0#8 → Completes (exec (.lvnz rd imm rg) s) fun t => OnlyMoves s t (s.pc + 4)))

/-- PSH and PSV lower the stack pointer by one and store there, and fault with the stack full, for every
stack pointer of a legal state; R116, R117. -/
def Obligations.PshPsvPush : Prop :=
  ∀ (s : State), 0 ≤ s.sp → s.sp ≤ (s.params.memSize : Int) →
    (∀ (rs : Byte), encode standardMap (.psh rs) = [0x06#8, rs] ∧
      OnReg (exec (.psh rs) s) s 1 rs fun r =>
        (0 < s.sp → Completes (exec (.psh rs) s) fun t =>
          t.byte (s.sp - 1).toNat = s.reg r ∧ SameMemoryBut (s.sp - 1).toNat s t ∧ SameRegs s t ∧
          t = { s with mem := t.mem, sp := s.sp - 1, pc := s.pc + 2 }) ∧
        (s.sp = 0 → Faults (exec (.psh rs) s) s (.memoryAddressOutOfBounds (s.sp - 1)))) ∧
    (∀ (imm : Byte), encode standardMap (.psv imm) = [0x07#8, imm] ∧
      (0 < s.sp → Completes (exec (.psv imm) s) fun t =>
        t.byte (s.sp - 1).toNat = imm ∧ SameMemoryBut (s.sp - 1).toNat s t ∧ SameRegs s t ∧
        t = { s with mem := t.mem, sp := s.sp - 1, pc := s.pc + 2 }) ∧
      (s.sp = 0 → Faults (exec (.psv imm) s) s (.memoryAddressOutOfBounds (s.sp - 1))))

/-- POP and POPM take the byte at the stack pointer and raise it by one, and fault on an empty stack, for
every stack pointer of a legal state. That an empty stack faults is the spec's own decision D32. -/
def Obligations.PopPopmPop : Prop :=
  ∀ (s : State), 0 ≤ s.sp → s.sp ≤ (s.params.memSize : Int) →
    (∀ (rd : Byte), encode standardMap (.pop rd) = [0x08#8, rd] ∧
      OnReg (exec (.pop rd) s) s 1 rd fun d =>
        (s.sp < (s.params.memSize : Int) → Completes (exec (.pop rd) s) fun t =>
          t.reg d = s.byte s.sp.toNat ∧ SameRegsBut d s t ∧ SameMemory s t ∧
          t = { s with regs := t.regs, sp := s.sp + 1, pc := s.pc + 2 }) ∧
        (s.sp = (s.params.memSize : Int) → Faults (exec (.pop rd) s) s (.memoryAddressOutOfBounds s.sp))) ∧
    (∀ (addr : U16), encode standardMap (.popm addr) = 0x09#8 :: bytes16 addr ∧
      (s.sp < (s.params.memSize : Int) → Completes (exec (.popm addr) s) fun t =>
        t.byte (absolute addr) = s.byte s.sp.toNat ∧ SameMemoryBut (absolute addr) s t ∧ SameRegs s t ∧
        t = { s with mem := t.mem, sp := s.sp + 1, pc := s.pc + 3 }) ∧
      (s.sp = (s.params.memSize : Int) → Faults (exec (.popm addr) s) s (.memoryAddressOutOfBounds s.sp)))

/-! ## Arithmetic and carry (41_arithmetic) -/

/-- ADD, ADDV, ADD3, ADDV3 and INC: the sum mod 256 in the destination, C by CARRY_POLICY; R142, R143,
R146, R147, R150. -/
def Obligations.AdditionsAddAndCarry : Prop :=
  (∀ (ra rb : Byte) (s : State), encode standardMap (.add ra rb) = [0x10#8, ra, rb] ∧
    OnReg (exec (.add ra rb) s) s 1 ra fun a => OnReg (exec (.add ra rb) s) s 2 rb fun b =>
      Completes (exec (.add ra rb) s) fun t => AddsInto s t a (s.reg a) (s.reg b) 3) ∧
  (∀ (ra imm : Byte) (s : State), encode standardMap (.addv ra imm) = [0x11#8, ra, imm] ∧
    OnReg (exec (.addv ra imm) s) s 1 ra fun a =>
      Completes (exec (.addv ra imm) s) fun t => AddsInto s t a (s.reg a) imm 3) ∧
  (∀ (ra rb rd : Byte) (s : State), encode standardMap (.add3 ra rb rd) = [0x14#8, ra, rb, rd] ∧
    OnReg (exec (.add3 ra rb rd) s) s 1 ra fun a => OnReg (exec (.add3 ra rb rd) s) s 2 rb fun b =>
      OnReg (exec (.add3 ra rb rd) s) s 3 rd fun d =>
        Completes (exec (.add3 ra rb rd) s) fun t => AddsInto s t d (s.reg a) (s.reg b) 4) ∧
  (∀ (ra imm rd : Byte) (s : State), encode standardMap (.addv3 ra imm rd) = [0x15#8, ra, imm, rd] ∧
    OnReg (exec (.addv3 ra imm rd) s) s 1 ra fun a => OnReg (exec (.addv3 ra imm rd) s) s 3 rd fun d =>
      Completes (exec (.addv3 ra imm rd) s) fun t => AddsInto s t d (s.reg a) imm 4) ∧
  (∀ (r : Byte) (s : State), encode standardMap (.inc r) = [0x18#8, r] ∧
    OnReg (exec (.inc r) s) s 1 r fun a =>
      Completes (exec (.inc r) s) fun t => AddsInto s t a (s.reg a) 1#8 2)

/-- SUB, SUBV, SUB3, SUBV3 and DEC: the difference mod 256 in the destination, C by CARRY_POLICY on
whether the unsigned difference borrows. That the bytes are compared unsigned is the spec's own decision
D11. -/
def Obligations.SubtractionsSubtractAndBorrow : Prop :=
  (∀ (ra rb : Byte) (s : State), encode standardMap (.sub ra rb) = [0x12#8, ra, rb] ∧
    OnReg (exec (.sub ra rb) s) s 1 ra fun a => OnReg (exec (.sub ra rb) s) s 2 rb fun b =>
      Completes (exec (.sub ra rb) s) fun t => SubtractsInto s t a (s.reg a) (s.reg b) 3) ∧
  (∀ (ra imm : Byte) (s : State), encode standardMap (.subv ra imm) = [0x13#8, ra, imm] ∧
    OnReg (exec (.subv ra imm) s) s 1 ra fun a =>
      Completes (exec (.subv ra imm) s) fun t => SubtractsInto s t a (s.reg a) imm 3) ∧
  (∀ (ra rb rd : Byte) (s : State), encode standardMap (.sub3 ra rb rd) = [0x16#8, ra, rb, rd] ∧
    OnReg (exec (.sub3 ra rb rd) s) s 1 ra fun a => OnReg (exec (.sub3 ra rb rd) s) s 2 rb fun b =>
      OnReg (exec (.sub3 ra rb rd) s) s 3 rd fun d =>
        Completes (exec (.sub3 ra rb rd) s) fun t => SubtractsInto s t d (s.reg a) (s.reg b) 4) ∧
  (∀ (ra imm rd : Byte) (s : State), encode standardMap (.subv3 ra imm rd) = [0x17#8, ra, imm, rd] ∧
    OnReg (exec (.subv3 ra imm rd) s) s 1 ra fun a => OnReg (exec (.subv3 ra imm rd) s) s 3 rd fun d =>
      Completes (exec (.subv3 ra imm rd) s) fun t => SubtractsInto s t d (s.reg a) imm 4) ∧
  (∀ (r : Byte) (s : State), encode standardMap (.dec r) = [0x19#8, r] ∧
    OnReg (exec (.dec r) s) s 1 r fun a =>
      Completes (exec (.dec r) s) fun t => SubtractsInto s t a (s.reg a) 1#8 2)

/-- ADC and SBC add or subtract exactly 1 if C is set, change nothing if it is clear, and never write C;
R152, R153. -/
def Obligations.AdcSbcUseCarry : Prop :=
  (∀ (r : Byte) (s : State), encode standardMap (.adc r) = [0x1A#8, r] ∧
    OnReg (exec (.adc r) s) s 1 r fun a =>
      (s.carry = true → Completes (exec (.adc r) s) fun t =>
        WritesReg s t a (t.reg a) 2 ∧ (t.reg a).toNat = ((s.reg a).toNat + 1) % 256) ∧
      (s.carry = false → Completes (exec (.adc r) s) fun t => OnlyMoves s t (s.pc + 2))) ∧
  (∀ (r : Byte) (s : State), encode standardMap (.sbc r) = [0x1B#8, r] ∧
    OnReg (exec (.sbc r) s) s 1 r fun a =>
      (s.carry = true → Completes (exec (.sbc r) s) fun t =>
        WritesReg s t a (t.reg a) 2 ∧ ((t.reg a).toNat : Int) = ((s.reg a).toNat - 1 : Int) % 256) ∧
      (s.carry = false → Completes (exec (.sbc r) s) fun t => OnlyMoves s t (s.pc + 2)))

/-- CCF clears C, SCF sets it; R154, R155. -/
def Obligations.CcfScfWriteCarry : Prop :=
  ∀ (s : State),
    encode standardMap .ccf = [0x1C#8] ∧ encode standardMap .scf = [0x1D#8] ∧
    (Completes (exec .ccf s) fun t =>
      SameRegs s t ∧ SameMemory s t ∧ t = { s with carry := false, pc := s.pc + 1 }) ∧
    (Completes (exec .scf s) fun t =>
      SameRegs s t ∧ SameMemory s t ∧ t = { s with carry := true, pc := s.pc + 1 })

/-! ## Control flow (42_control_flow) -/

/-- JMP, and JPZ and JPNZ when taken, go to `A + sext_8(d) + 1`, whatever address that is; untaken, JPZ
and JPNZ go on at `A + 3`; a target out of range faults at the next fetch; R172, R173, R174. -/
def Obligations.JumpsAreRelative : Prop :=
  (∀ (d : Byte) (s : State), encode standardMap (.jmp d) = [0x30#8, d] ∧
    Completes (exec (.jmp d) s) fun t => OnlyMoves s t (s.pc + sext8 d + 1)) ∧
  (∀ (d rg : Byte) (s : State), encode standardMap (.jpz d rg) = [0x31#8, d, rg] ∧
    OnReg (exec (.jpz d rg) s) s 2 rg fun g =>
      (s.reg g = 0#8 → Completes (exec (.jpz d rg) s) fun t => OnlyMoves s t (s.pc + sext8 d + 1)) ∧
      (s.reg g ≠ 0#8 → Completes (exec (.jpz d rg) s) fun t => OnlyMoves s t (s.pc + 3))) ∧
  (∀ (d rg : Byte) (s : State), encode standardMap (.jpnz d rg) = [0x32#8, d, rg] ∧
    OnReg (exec (.jpnz d rg) s) s 2 rg fun g =>
      (s.reg g ≠ 0#8 → Completes (exec (.jpnz d rg) s) fun t => OnlyMoves s t (s.pc + sext8 d + 1)) ∧
      (s.reg g = 0#8 → Completes (exec (.jpnz d rg) s) fun t => OnlyMoves s t (s.pc + 3))) ∧
  (∀ t : State, inMemory t.params.memSize t.pc = false → ∃ f, Faults (runInstruction t) t f)

/-- FNC registers `A + 3` for its id and goes past the first RET byte from there on; without one it faults
and the table stays. The scan's start, the fault and the order are the spec's own decision D5. -/
def Obligations.FncDefinesAndSkips : Prop :=
  ∀ (id : U16) (s : State), s.params.wf = true → Memory.wf s.params.memSize s.mem = true →
    encode standardMap (.fnc id) = 0x33#8 :: bytes16 id ∧
    (∀ j : Nat, 0 ≤ s.pc + 3 → IsFirstRet s (s.pc + 3) j →
      Completes (exec (.fnc id) s) fun t =>
        (∀ k, lookupFunction t.ft k = if k = id.toNat then some (s.pc + 3) else lookupFunction s.ft k) ∧
        SameRegs s t ∧ SameMemory s t ∧ t = { s with ft := t.ft, pc := j + 1 }) ∧
    (inMemory s.params.memSize (s.pc + 3) = true →
      (∀ a : Nat, s.pc + 3 ≤ a → a < s.params.memSize → s.byte a ≠ s.params.retByte) →
      Faults (exec (.fnc id) s) s (.memoryAddressOutOfBounds s.params.memSize)) ∧
    (inMemory s.params.memSize (s.pc + 3) = false → Faults (exec (.fnc id) s) s (.memoryAddressOutOfBounds (s.pc + 3)))

/-- RET pops the newest record and goes to its resume address, without a look at its site; on an empty
CallStack it faults; R178. -/
def Obligations.RetPopsAndResumes : Prop :=
  ∀ (s : State),
    encode standardMap .ret = [0x34#8] ∧
    (∀ record rest, s.cs = record :: rest →
      Completes (exec .ret s) fun t =>
        SameRegs s t ∧ SameMemory s t ∧ t = { s with cs := rest, pc := record.resume }) ∧
    (s.cs = [] → Faults (exec .ret s) s .emptyCallStack)

/-- CAL, and CLZ and CLNZ when taken, push the record of the call and go to the function's entry; untaken,
CLZ and CLNZ do not look the id up. The record's form and the untaken lookup are the spec's own decisions
D6 and D23. -/
def Obligations.CallsPushAndEnter : Prop :=
  (∀ (id : U16) (s : State), encode standardMap (.cal id) = 0x35#8 :: bytes16 id ∧ Calls (exec (.cal id) s) s id 3) ∧
  (∀ (id : U16) (rg : Byte) (s : State), encode standardMap (.clz id rg) = 0x36#8 :: (bytes16 id ++ [rg]) ∧
    OnReg (exec (.clz id rg) s) s 3 rg fun g =>
      (s.reg g = 0#8 → Calls (exec (.clz id rg) s) s id 4) ∧
      (s.reg g ≠ 0#8 → Completes (exec (.clz id rg) s) fun t => OnlyMoves s t (s.pc + 4))) ∧
  (∀ (id : U16) (rg : Byte) (s : State), encode standardMap (.clnz id rg) = 0x37#8 :: (bytes16 id ++ [rg]) ∧
    OnReg (exec (.clnz id rg) s) s 3 rg fun g =>
      (s.reg g ≠ 0#8 → Calls (exec (.clnz id rg) s) s id 4) ∧
      (s.reg g = 0#8 → Completes (exec (.clnz id rg) s) fun t => OnlyMoves s t (s.pc + 4)))

/-- An unassigned opcode only moves the program counter on by one. Which opcodes those are is the spec's
own decision D37. -/
def Obligations.UnassignedIsNoOp : Prop :=
  ∀ (map : OpcodeMap) (op : Byte) (s : State) (rest : List Byte), map.wf = true → isUnassigned op = true →
    decode map (op :: rest) = .ok (.unassigned op, rest) ∧
    Completes (exec (.unassigned op) s) fun t => OnlyMoves s t (s.pc + 1)

/-! ## Wide math (43_wide_math) -/

/-- MLT writes the 16-bit product of two unsigned bytes, high byte then low byte; R201. -/
def Obligations.MltMultiplies : Prop :=
  ∀ (ra rb rh rl : Byte) (s : State),
    encode standardMap (.mlt ra rb rh rl) = [0x40#8, ra, rb, rh, rl] ∧
    OnReg (exec (.mlt ra rb rh rl) s) s 1 ra fun a => OnReg (exec (.mlt ra rb rh rl) s) s 2 rb fun b =>
    OnReg (exec (.mlt ra rb rh rl) s) s 3 rh fun h => OnReg (exec (.mlt ra rb rh rl) s) s 4 rl fun l =>
      Completes (exec (.mlt ra rb rh rl) s) fun t =>
        WritesPair s t h l ((s.reg a).toNat * (s.reg b).toNat) 5

/-- DIV writes the floor quotient of two unsigned register pairs, high byte then low byte, and faults on a
zero divisor once the register checks have passed; R202. -/
def Obligations.DivDivides : Prop :=
  ∀ (ah al bh bl qh ql : Byte) (s : State),
    encode standardMap (.div ah al bh bl qh ql) = [0x41#8, ah, al, bh, bl, qh, ql] ∧
    OnReg (exec (.div ah al bh bl qh ql) s) s 1 ah fun a1 =>
    OnReg (exec (.div ah al bh bl qh ql) s) s 2 al fun a0 =>
    OnReg (exec (.div ah al bh bl qh ql) s) s 3 bh fun b1 =>
    OnReg (exec (.div ah al bh bl qh ql) s) s 4 bl fun b0 =>
    OnReg (exec (.div ah al bh bl qh ql) s) s 5 qh fun q1 =>
    OnReg (exec (.div ah al bh bl qh ql) s) s 6 ql fun q0 =>
      ((s.reg b1).toNat * 256 + (s.reg b0).toNat = 0 →
        Faults (exec (.div ah al bh bl qh ql) s) s .divideByZero) ∧
      ((s.reg b1).toNat * 256 + (s.reg b0).toNat ≠ 0 →
        Completes (exec (.div ah al bh bl qh ql) s) fun t =>
          WritesPair s t q1 q0 (((s.reg a1).toNat * 256 + (s.reg a0).toNat) /
            ((s.reg b1).toNat * 256 + (s.reg b0).toNat)) 7)

/-! ## Drive I/O (44_drive_io) -/

/-- STD and SVD store one byte of the Drive in working memory, the register checked before the Drive
address; R211, R212. -/
def Obligations.StdSvdStoreDriveByte : Prop :=
  (∀ (rs : Byte) (d : U32) (s : State), encode standardMap (.std rs d) = 0x60#8 :: rs :: bytes32 d ∧
    OnReg (exec (.std rs d) s) s 1 rs fun r =>
      (d.toNat < s.drive.len →
        Completes (exec (.std rs d) s) fun t => StoresDriveByte s t d.toNat (s.reg r) 6) ∧
      (s.drive.len ≤ d.toNat → Faults (exec (.std rs d) s) s (.driveAddressOutOfBounds d.toNat))) ∧
  (∀ (imm : Byte) (d : U32) (s : State), encode standardMap (.svd imm d) = 0x61#8 :: imm :: bytes32 d ∧
    (d.toNat < s.drive.len →
      Completes (exec (.svd imm d) s) fun t => StoresDriveByte s t d.toNat imm 6) ∧
    (s.drive.len ≤ d.toNat → Faults (exec (.svd imm d) s) s (.driveAddressOutOfBounds d.toNat)))

/-- LDTM copies one Drive byte to Memory, the Drive address checked before the Memory address; a byte put in
an input register is overwritten by the next sample; R213. -/
def Obligations.LdtmCopiesDriveByte : Prop :=
  ∀ (d : U32) (m : U24) (s : State),
    encode standardMap (.ldtm d m) = 0x62#8 :: (bytes32 d ++ bytes24 m) ∧
    (d.toNat < s.drive.len → m.toNat < s.params.memSize →
      Completes (exec (.ldtm d m) s) fun t => StoresByte s t m.toNat (s.driveByte d.toNat) 8) ∧
    (s.drive.len ≤ d.toNat → Faults (exec (.ldtm d m) s) s (.driveAddressOutOfBounds d.toNat)) ∧
    (d.toNat < s.drive.len → s.params.memSize ≤ m.toNat →
      Faults (exec (.ldtm d m) s) s (.memoryAddressOutOfBounds m.toNat)) ∧
    (∀ (t : State) (smp : InputSample), t.params.ioBase ≤ m.toNat → m.toNat ≤ t.params.ioLast →
      (sampleInputs smp t).byte m.toNat = (sampleBytes smp).getD (m.toNat - t.params.ioBase) 0#8)

/-- LDML copies n Drive bytes to Memory, all or none, the Drive range checked before the Memory range; a
block of length 0 is a no-op without a check; R214. -/
def Obligations.LdmlCopiesBlockToMemory : Prop :=
  ∀ (d : U32) (m : U24) (n : U16) (s : State),
    encode standardMap (.ldml d m n) = 0x63#8 :: (bytes32 d ++ (bytes24 m ++ bytes16 n)) ∧
    (n = 0#16 → Completes (exec (.ldml d m n) s) fun t => OnlyMoves s t (s.pc + 10)) ∧
    (n ≠ 0#16 → d.toNat + n.toNat ≤ s.drive.len → m.toNat + n.toNat ≤ s.params.memSize →
      Completes (exec (.ldml d m n) s) fun t =>
        (∀ i, i < n.toNat → t.byte (m.toNat + i) = s.driveByte (d.toNat + i)) ∧
        (∀ a, ¬ (m.toNat ≤ a ∧ a < m.toNat + n.toNat) → t.byte a = s.byte a) ∧
        SameRegs s t ∧ t = { s with mem := t.mem, pc := s.pc + 10 }) ∧
    (n ≠ 0#16 → s.drive.len < d.toNat + n.toNat →
      Faults (exec (.ldml d m n) s) s (.driveAddressOutOfBounds (max d.toNat s.drive.len))) ∧
    (n ≠ 0#16 → d.toNat + n.toNat ≤ s.drive.len → s.params.memSize < m.toNat + n.toNat →
      Faults (exec (.ldml d m n) s) s (.memoryAddressOutOfBounds (max m.toNat s.params.memSize : Nat)))

/-- SMDL copies n Memory bytes to the Drive, all or none, the Drive range checked before the Memory range;
a block of length 0 is a no-op without a check; an input register's byte is the sample that its cycle took;
R215. -/
def Obligations.SmdlCopiesBlockToDrive : Prop :=
  ∀ (m : U24) (d : U32) (n : U16) (s : State),
    encode standardMap (.smdl m d n) = 0x64#8 :: (bytes24 m ++ (bytes32 d ++ bytes16 n)) ∧
    (n = 0#16 → Completes (exec (.smdl m d n) s) fun t => OnlyMoves s t (s.pc + 10)) ∧
    (n ≠ 0#16 → d.toNat + n.toNat ≤ s.drive.len → m.toNat + n.toNat ≤ s.params.memSize →
      Completes (exec (.smdl m d n) s) fun t =>
        (∀ i, i < n.toNat → t.driveByte (d.toNat + i) = s.byte (m.toNat + i)) ∧
        (∀ a, ¬ (d.toNat ≤ a ∧ a < d.toNat + n.toNat) → t.driveByte a = s.driveByte a) ∧
        t.drive.len = s.drive.len ∧ SameRegs s t ∧ SameMemory s t ∧
        t = { s with drive := t.drive, pc := s.pc + 10 }) ∧
    (n ≠ 0#16 → s.drive.len < d.toNat + n.toNat →
      Faults (exec (.smdl m d n) s) s (.driveAddressOutOfBounds (max d.toNat s.drive.len))) ∧
    (n ≠ 0#16 → d.toNat + n.toNat ≤ s.drive.len → s.params.memSize < m.toNat + n.toNat →
      Faults (exec (.smdl m d n) s) s (.memoryAddressOutOfBounds (max m.toNat s.params.memSize : Nat))) ∧
    (∀ (before : State) (smp : InputSample) (a : Nat), s = sampleInputs smp before →
      s.params.ioBase ≤ a → a ≤ s.params.ioLast → s.byte a = (sampleBytes smp).getD (a - s.params.ioBase) 0#8)

/-! ## Presentation (45_presentation) -/

/-- TXR, RCT, CRC and LNE emit one record with their operands as given; R232, R234, R235, R236. -/
def Obligations.DirectDrawsEmitOneRecord : Prop :=
  (∀ (rg : Byte) (x y size : U16) (color : Rgba) (s : State),
    encode standardMap (.txr rg x y size color) =
      0x80#8 :: rg :: (bytes16 x ++ (bytes16 y ++ (bytes16 size ++ bytesRgba color))) ∧
    OnReg (exec (.txr rg x y size color) s) s 1 rg fun g =>
      Completes (exec (.txr rg x y size color) s) fun t => Emits s t (.text [s.reg g] x y size color) 12) ∧
  (∀ (x y w h : U16) (color : Rgba) (s : State),
    encode standardMap (.rct x y w h color) =
      0x82#8 :: (bytes16 x ++ (bytes16 y ++ (bytes16 w ++ (bytes16 h ++ bytesRgba color)))) ∧
    Completes (exec (.rct x y w h color) s) fun t => Emits s t (.rect x y w h color) 13) ∧
  (∀ (x y rad : U16) (color : Rgba) (s : State),
    encode standardMap (.crc x y rad color) = 0x83#8 :: (bytes16 x ++ (bytes16 y ++ (bytes16 rad ++ bytesRgba color))) ∧
    Completes (exec (.crc x y rad color) s) fun t => Emits s t (.circle x y rad color) 11) ∧
  (∀ (x1 y1 x2 y2 : U16) (color : Rgba) (s : State),
    encode standardMap (.lne x1 y1 x2 y2 color) =
      0x85#8 :: (bytes16 x1 ++ (bytes16 y1 ++ (bytes16 x2 ++ (bytes16 y2 ++ bytesRgba color)))) ∧
    Completes (exec (.lne x1 y1 x2 y2 color) s) fun t => Emits s t (.line x1 y1 x2 y2 color) 13)

/-- TXL and MTXL hold a count byte, at offset 11 or 15, before the glyph bytes it counts; they emit one Text
record with those bytes unchanged and move past all of them. The count byte and the displacement are the
spec's own decisions D34 and D18. -/
def Obligations.LiteralTextsEmitGlyphs : Prop :=
  (∀ (x y size : U16) (color : Rgba) (glyphs : List Byte) (s : State),
    encode standardMap (.txl x y size color glyphs) =
      0x81#8 :: (bytes16 x ++ (bytes16 y ++ (bytes16 size ++ (bytesRgba color ++
        (BitVec.ofNat 8 glyphs.length :: glyphs))))) ∧
    (encode standardMap (.txl x y size color glyphs))[11]? = some (BitVec.ofNat 8 glyphs.length) ∧
    Completes (exec (.txl x y size color glyphs) s) fun t =>
      Emits s t (.text glyphs x y size color) (12 + glyphs.length)) ∧
  (∀ (x y px py size : U16) (color : Rgba) (glyphs : List Byte) (s : State),
    encode standardMap (.mtxl x y px py size color glyphs) =
      0x87#8 :: (bytes16 x ++ (bytes16 y ++ (bytes16 px ++ (bytes16 py ++ (bytes16 size ++ (bytesRgba color ++
        (BitVec.ofNat 8 glyphs.length :: glyphs))))))) ∧
    (encode standardMap (.mtxl x y px py size color glyphs))[15]? = some (BitVec.ofNat 8 glyphs.length) ∧
    ∃ ex ey, IsDisplaced s x px ex ∧ IsDisplaced s y py ey ∧
      Completes (exec (.mtxl x y px py size color glyphs) s) fun t =>
        Emits s t (.text glyphs ex ey size color) (16 + glyphs.length))

/-- MTXR, MRCT, MCRC and MLNE hold two pointers, px and py; they emit one record whose position, both
endpoints for MLNE, is displaced by the words at the pointers; sizes are not. The displacement is the spec's
own decision D18. -/
def Obligations.IndirectDrawsAreDisplaced : Prop :=
  (∀ (rg : Byte) (x y px py size : U16) (color : Rgba) (s : State),
    encode standardMap (.mtxr rg x y px py size color) =
      0x86#8 :: rg :: (bytes16 x ++ (bytes16 y ++ (bytes16 px ++ (bytes16 py ++ (bytes16 size ++
        bytesRgba color))))) ∧
    OnReg (exec (.mtxr rg x y px py size color) s) s 1 rg fun g =>
      ∃ ex ey, IsDisplaced s x px ex ∧ IsDisplaced s y py ey ∧
        Completes (exec (.mtxr rg x y px py size color) s) fun t =>
          Emits s t (.text [s.reg g] ex ey size color) 16) ∧
  (∀ (x y px py w h : U16) (color : Rgba) (s : State),
    encode standardMap (.mrct x y px py w h color) =
      0x88#8 :: (bytes16 x ++ (bytes16 y ++ (bytes16 px ++ (bytes16 py ++ (bytes16 w ++ (bytes16 h ++
        bytesRgba color)))))) ∧
    ∃ ex ey, IsDisplaced s x px ex ∧ IsDisplaced s y py ey ∧
      Completes (exec (.mrct x y px py w h color) s) fun t => Emits s t (.rect ex ey w h color) 17) ∧
  (∀ (x y px py rad : U16) (color : Rgba) (s : State),
    encode standardMap (.mcrc x y px py rad color) =
      0x89#8 :: (bytes16 x ++ (bytes16 y ++ (bytes16 px ++ (bytes16 py ++ (bytes16 rad ++
        bytesRgba color))))) ∧
    ∃ ex ey, IsDisplaced s x px ex ∧ IsDisplaced s y py ey ∧
      Completes (exec (.mcrc x y px py rad color) s) fun t => Emits s t (.circle ex ey rad color) 15) ∧
  (∀ (x1 y1 x2 y2 px py : U16) (color : Rgba) (s : State),
    encode standardMap (.mlne x1 y1 x2 y2 px py color) =
      0x8A#8 :: (bytes16 x1 ++ (bytes16 y1 ++ (bytes16 x2 ++ (bytes16 y2 ++ (bytes16 px ++ (bytes16 py ++
        bytesRgba color)))))) ∧
    ∃ e1 f1 e2 f2, IsDisplaced s x1 px e1 ∧ IsDisplaced s y1 py f1 ∧ IsDisplaced s x2 px e2 ∧
      IsDisplaced s y2 py f2 ∧
      Completes (exec (.mlne x1 y1 x2 y2 px py color) s) fun t => Emits s t (.line e1 f1 e2 f2 color) 17)

/-- CLS emits Present and waits; while it waits an engine cycle changes nothing and takes no sample;
`frame_ready` emits Clear and goes on at `A + 1`. The bare CLS is the spec's own decision D19; that the
wait ends in a later step is the model's choice (log entry 3). -/
def Obligations.ClsPresentsWaitsClears : Prop :=
  ∀ (s : State),
    encode standardMap .cls = [0x84#8] ∧
    (Completes (exec .cls s) fun t =>
      SameRegs s t ∧ SameMemory s t ∧ t = { s with draws := s.draws ++ [.present], status := .waitingFrame }) ∧
    (∀ smp rest, s.status = .waitingFrame → NextEvent s (.cycle smp) rest →
      step s = .next { s with host := rest }) ∧
    (∀ rest, s.status = .waitingFrame → s.persist.ioPending = false → NextEvent s .frameReady rest →
      step s = .next
        { s with host := rest, draws := s.draws ++ [.clear], status := .running, pc := s.pc + 1 })

/-! ## Termination signals (46_termination) -/

/-- EXT writes its byte into r7 and goes to EXT_NEXT_PC; nothing else changes. The target is the spec's own
decision D7. -/
def Obligations.ExtWritesR7AndJumps : Prop :=
  ∀ (code : Byte) (s : State),
    encode standardMap (.ext code) = [0xFE#8, code] ∧
    Completes (exec (.ext code) s) fun t =>
      t.reg .r7 = code ∧ SameRegsBut .r7 s t ∧ SameMemory s t ∧
        t = { s with regs := t.regs, pc := s.params.extNextPc }

/-- HLT queues a foreground snapshot of the Drive and waits; the commit of its write makes the snapshot the
backing image and goes on at `A + 1`; the failure of its write is its fault, at its address. The wait and
the FIFO are the spec's own decisions D8 and D9; that the wait ends in a later step is the model's choice
(log entry 3). -/
def Obligations.HltCheckpointsAndGoesOn : Prop :=
  ∀ (s : State),
    encode standardMap .hlt = [0xFF#8] ∧
    (Completes (exec .hlt s) fun t =>
      SameRegs s t ∧ SameMemory s t ∧
      t.persist.pending = s.persist.pending ++ [⟨s.persist.nextId, .foreground, s.drive⟩] ∧
      t = { s with status := .checkpointing, persist := { s.persist with
              queue := t.persist.queue, nextId := s.persist.nextId + 1 } }) ∧
    (∀ r rest, s.status = .checkpointing → s.persist.writing = some r → r.origin = .foreground →
      NextEvent s .committed rest →
      step s = .next { s with host := rest, status := .running, pc := s.pc + 1, persist := { s.persist with
        writing := none, backing := r.snapshot, lastCommitted := some r.id } }) ∧
    (∀ r rest, s.status = .checkpointing → s.persist.writing = some r → r.origin = .foreground →
      NextEvent s .ioError rest →
      step s = .next (enterFault (.ioFault .driveImage .write)
        { s with host := rest, persist := { s.persist with writing := none, serving := false } }))

/-! ## Encoding (30_encoding) -/

/-- Operand bytes 0 to 7 name registers r0 to r7 in that order, no other byte names one, and the registers
are eight different places; R20 and R21. -/
def Obligations.RegisterBytesNameRegisters : Prop :=
  regOfByte 0#8 = some .r0 ∧ regOfByte 1#8 = some .r1 ∧ regOfByte 2#8 = some .r2 ∧
  regOfByte 3#8 = some .r3 ∧ regOfByte 4#8 = some .r4 ∧ regOfByte 5#8 = some .r5 ∧
  regOfByte 6#8 = some .r6 ∧ regOfByte 7#8 = some .r7 ∧
  (∀ b : Byte, 7 < b.toNat → regOfByte b = none) ∧
  (∀ (s : State) (i j : Reg) (v : Byte), (s.setReg i v).reg j = if j = i then v else s.reg j)

/-- Under every legal opcode map, for every encodable instruction with every operand at every value: decoding
its bytes gives it back and leaves the bytes after it. -/
def Obligations.DecodeEncodeRoundTrip : Prop :=
  ∀ (map : OpcodeMap) (i : Instr) (rest : List Byte), map.wf = true → i.encodable = true →
    decode map (encode map i ++ rest) = .ok (i, rest)

/-- Under every legal opcode map what decodes to an instruction is that instruction's bytes: each byte string
has one meaning. -/
def Obligations.DecodedBytesAreTheEncoding : Prop :=
  ∀ (map : OpcodeMap) (bs rest : List Byte) (i : Instr), map.wf = true → decode map bs = .ok (i, rest) →
    bs = encode map i ++ rest ∧ i.encodable = true

/-- No opcode is refused under any legal opcode map: any opcode byte with enough bytes after it decodes to an
instruction of that opcode, of its length. -/
def Obligations.EveryOpcodeDecodes : Prop :=
  ∀ (map : OpcodeMap) (op : Byte) (bs : List Byte), map.wf = true → maxInstrLen ≤ bs.length + 1 →
    ∃ i rest, decode map (op :: bs) = .ok (i, rest) ∧ i.opcode map = op ∧ rest.length + i.len = bs.length + 1

/-- The spec's opcode map is legal, and words written out from it decode to their instructions, one of each
family. -/
def Obligations.SpecWordsDecode : Prop :=
  standardMap.wf = true ∧
  decode standardMap [0x00, 0x00, 0x41] = .ok (.ldv 0 65, []) ∧
  decode standardMap [0x14, 0x00, 0x01, 0x02] = .ok (.add3 0 1 2, []) ∧
  decode standardMap [0x36, 0x00, 0x07, 0x02] = .ok (.clz 7 2, []) ∧
  decode standardMap [0x41, 0x00, 0x01, 0x02, 0x03, 0x04, 0x05] = .ok (.div 0 1 2 3 4 5, []) ∧
  decode standardMap [0x64, 0x00, 0x01, 0x00, 0x00, 0x00, 0x00, 0x08, 0x00, 0x03] = .ok (.smdl 256 8 3, []) ∧
  decode standardMap [0x81, 0, 0, 0, 0, 0, 0x08, 0xFF, 0, 0, 0xFF, 0x02, 0x21, 0x22] =
    .ok (.txl 0 0 8 ⟨255, 0, 0, 255⟩ [33, 34], []) ∧
  decode standardMap [0xFE, 0x03] = .ok (.ext 3, []) ∧
  decode standardMap [0x0D] = .ok (.unassigned 0x0D, [])

/-- The first `reg` operand in operand order that is above 7 is the fault of every instruction, before it
has any effect and whether or not a condition of it holds. That an untaken condition does not spare the
check is the spec's own decision D22. -/
def Obligations.RegisterCheckComesFirst : Prop :=
  ∀ (i : Instr) (s : State) (k : Nat) (b : Byte),
    i.regOperands.find? (fun p => decide (7 < p.2.toNat)) = some (k, b) →
    Faults (exec i s) s (.invalidRegisterIndex b (s.pc + k))

/-! ## The cycle (10_state, 20_memory) -/

/-- A step of a running engine whose next event is a cycle samples the inputs, and then is the effect of
the instruction that the bytes at the program counter decode to. -/
def Obligations.StepRunsDecodedInstruction : Prop :=
  ∀ (s u : State) (smp : InputSample) (rest : List HostEvent) (i : Instr) (more : List Byte),
    s.status = .running → NextEvent s (.cycle smp) rest → u = sampleInputs smp { s with host := rest } →
    inMemory u.params.memSize u.pc = true →
    decode u.params.opcodeMap (fetchBytes u u.pc.toNat) = .ok (i, more) →
    step s = exec i u

/-- A step of a running engine whose next event is a cycle runs the instruction whose encoding stands at
the program counter after the sample. -/
def Obligations.StepRunsEncodedInstruction : Prop :=
  ∀ (s u : State) (smp : InputSample) (rest : List HostEvent) (i : Instr) (A : Nat),
    s.status = .running → NextEvent s (.cycle smp) rest → u = sampleInputs smp { s with host := rest } →
    u.params.opcodeMap.wf = true → u.pc = A → A + i.len ≤ u.params.memSize → i.encodable = true →
    (∀ k, k < i.len → u.byte (A + k) = (encode u.params.opcodeMap i).getD k 0#8) →
    step s = exec i u

/-- A program counter outside Memory, or operand bytes past its end, is a MemoryAddressOutOfBounds of the
fetch, with the first address out of range. The unbounded program counter and the fault's name are the
spec's own decisions D16 and D14. -/
def Obligations.FetchOutOfRangeFaults : Prop :=
  ∀ (s u : State) (smp : InputSample) (rest : List HostEvent),
    s.status = .running → NextEvent s (.cycle smp) rest → u = sampleInputs smp { s with host := rest } →
    (inMemory u.params.memSize u.pc = false → Faults (step s) u (.memoryAddressOutOfBounds u.pc)) ∧
    (∀ A : Nat, u.params.opcodeMap.wf = true → u.pc = A → A < u.params.memSize →
      (∀ i : Instr, i.opcode u.params.opcodeMap = u.byte A → i.encodable = true →
        (∀ k, k < i.len → A + k < u.params.memSize →
          u.byte (A + k) = (encode u.params.opcodeMap i).getD k 0#8) →
        u.params.memSize < A + i.len) →
      Faults (step s) u (.memoryAddressOutOfBounds u.params.memSize))

/-- The sample of a cycle fills the nine input registers, big-endian, and changes nothing else. -/
def Obligations.SampleFillsInputRegisters : Prop :=
  ∀ (s : State) (smp : InputSample) (io : Nat), s.params.ioBase = io →
    (sampleInputs smp s).byte io = smp.key ∧ (sampleInputs smp s).word (io + 1) = smp.mouseX ∧
    (sampleInputs smp s).word (io + 3) = smp.mouseY ∧ (sampleInputs smp s).word (io + 5) = smp.screenW ∧
    (sampleInputs smp s).word (io + 7) = smp.screenH ∧
    (∀ a, ¬ (io ≤ a ∧ a ≤ io + 8) → (sampleInputs smp s).byte a = s.byte a) ∧
    sampleInputs smp s = { s with mem := (sampleInputs smp s).mem }

/-- For all legal parameters: a run starts with the code image in Memory at CODE_BASE and 0 elsewhere, the
drive image in the Drive and in the backing store, and every register at its reset value; an image that
cannot be read or does not fit is the IOFault of reading that file, and no run. The zeros, the entry point
and the limits are the spec's own decisions D15 and D26; that the code image is looked at first is log
entry 18. -/
def Obligations.BootLoadsImages : Prop :=
  ∀ (p : Params), p.wf = true →
    (∀ (code image : List Byte), p.codeBase + code.length ≤ p.memSize → image.length ≤ 4294967296 →
      ∃ s, boot p (some code) (some image) = .ok s ∧ s.params = p ∧
        (∀ q, s.reg q = 0#8) ∧ s.pc = p.codeBase ∧ s.carry = false ∧ s.sp = p.spReset ∧ s.ft = [] ∧ s.cs = [] ∧
        s.status = .running ∧ s.persist.pending = [] ∧ s.persist.backing = s.drive ∧
        s.drive.len = image.length ∧ (∀ a, a < image.length → s.driveByte a = image.getD a 0#8) ∧
        (∀ k, k < code.length → s.byte (p.codeBase + k) = code.getD k 0#8) ∧
        (∀ a, a < p.codeBase ∨ p.codeBase + code.length ≤ a → s.byte a = 0#8) ∧ s.Inv) ∧
    (∀ (code image : Option (List Byte)),
      (code = none ∨ ∃ bytes, code = some bytes ∧ p.memSize < p.codeBase + bytes.length) →
      boot p code image = .error (.ioFault .codeImage .read)) ∧
    (∀ (code : List Byte) (image : Option (List Byte)), p.codeBase + code.length ≤ p.memSize →
      (image = none ∨ ∃ bytes, image = some bytes ∧ 4294967296 < bytes.length) →
      boot p (some code) image = .error (.ioFault .driveImage .read))

/-- A new run reloads the last committed Drive image, and starts legal at the entry point; so a run started
after an HLT has retired has the Drive as it was at that HLT. That it keeps the events to come is the
model's choice (log entry 21). -/
def Obligations.RestartReloadsCommittedImage : Prop :=
  ∀ (s : State) (code : List Byte), s.Inv → s.params.codeBase + code.length ≤ s.params.memSize →
    (∃ t, restart (some code) s = .ok t ∧ t.drive = s.persist.backing ∧ t.persist.backing = s.persist.backing ∧
      t.pc = s.params.codeBase ∧ t.status = .running ∧ (∀ q, t.reg q = 0#8) ∧
      (∀ k, k < code.length → t.byte (s.params.codeBase + k) = code.getD k 0#8) ∧
      t.params = s.params ∧ t.host = s.host ∧ t.drawn = s.drawn ∧ t.Inv) ∧
    (∀ u, s.status = .checkpointing → step s = .next u → u.status = .running →
      ∃ t, restart (some code) u = .ok t ∧ t.drive = s.drive)

/-! ## Faults (60_exceptions) -/

/-- Fault entry: the record of the fault, the program counter and the opcode byte becomes the status and
goes out on the diagnostic port; nothing else changes. That this is a next state is the model's choice
(log entry 4); what a fault leaves is the spec's own decision D20. -/
def Obligations.FaultEntryRecords : Prop :=
  ∀ (f : EngineFault) (s : State),
    (∀ A : Nat, s.pc = A → A < s.params.memSize →
      enterFault f s = { s with
        status := .faulted ⟨f, A, some (s.byte A)⟩, diags := s.diags ++ [⟨f, A, some (s.byte A)⟩] }) ∧
    (inMemory s.params.memSize s.pc = false →
      enterFault f s = { s with
        status := .faulted ⟨f, s.pc, none⟩, diags := s.diags ++ [⟨f, s.pc, none⟩] })

/-- Every instruction has a next state, and none stops the engine but by a fault: the status stays, or is
the wait of CLS or HLT, or a fault. Faults are precise: an instruction that faults has done nothing else. That
an instruction that faults answers a next state, and that the waits of CLS and HLT are states of their own
between two steps, are the model's choices (log entries 4 and 3); the order of checks is the spec's own
decision D21. -/
def Obligations.NoInstructionStopsTheEngine : Prop :=
  ∀ (i : Instr) (s : State), Completes (exec i s) fun t =>
    (t.status = s.status ∨ (i = .cls ∧ t.status = .waitingFrame) ∨ (i = .hlt ∧ t.status = .checkpointing) ∨
      ∃ f, t = enterFault f s) ∧
    (∀ r, s.status = .running → t.status = .faulted r → t = enterFault r.kind s)

/-- A faulted engine runs no further cycle, and whatever comes it keeps its record and all else but the
persistence controller's state, which takes no new request. That a cycle after the fault is a fault of the
step, and what the controller still does, are the model's choices (log entries 4 and 7); that there is no
new request is the spec's own decision D20. -/
def Obligations.FaultedIsFinal : Prop :=
  ∀ (s : State) (r : FaultRecord), s.status = .faulted r →
    (∀ smp rest, NextEvent s (.cycle smp) rest → step s = .fault (.engineFaulted r)) ∧
    (∀ t, step s = .next t →
      t = { s with persist := t.persist, host := t.host, drawn := t.drawn } ∧
      t.persist.nextId = s.persist.nextId)

/-- A background write that fails stops an engine that runs or waits in HLT, with the program counter as it
is and no opcode in the record; while CLS waits it leaves the wait as it is, and stops the engine as the wait
ends: Clear is emitted, and the fault holds the address of the next opcode. The backing image stays, and there
is no further service. That it stops the engine is the spec's own decision D27; what it does in the waits is
the model's reading (log entries 5 and 6). -/
def Obligations.BackgroundFailureStopsEngine : Prop :=
  ∀ (s : State) (rest : List HostEvent),
    (∀ q, s.status = .running ∨ (s.status = .checkpointing ∧ q.origin = .background) →
      s.persist.writing = some q → NextEvent s .ioError rest →
      step s = .next { s with
        host := rest
        status := .faulted ⟨.ioFault .driveImage .write, s.pc, none⟩
        diags := s.diags ++ [⟨.ioFault .driveImage .write, s.pc, none⟩]
        persist := { s.persist with writing := none, serving := false } }) ∧
    (∀ q, s.status = .waitingFrame → s.persist.writing = some q → NextEvent s .ioError rest →
      step s = .next { s with host := rest, persist := { s.persist with
        writing := none, serving := false, ioPending := true } }) ∧
    (s.status = .waitingFrame → s.persist.ioPending = true → NextEvent s .frameReady rest →
      step s = .next { s with
        host := rest
        status := .faulted ⟨.ioFault .driveImage .write, s.pc + 1, none⟩
        diags := s.diags ++ [⟨.ioFault .driveImage .write, s.pc + 1, none⟩]
        draws := s.draws ++ [.clear]
        pc := s.pc + 1
        persist := { s.persist with ioPending := false } })

/-! ## Whole-machine rules -/

/-- Only the ten arithmetic instructions, CCF and SCF change C; and under `sticky` only CCF clears it. -/
def Obligations.CarryHasFewWriters : Prop :=
  ∀ (i : Instr) (s t : State), exec i s = .next t →
    (t.carry ≠ s.carry →
      isOneOf i [.add, .addv, .sub, .subv, .add3, .addv3, .sub3, .subv3, .inc, .dec, .ccf, .scf]) ∧
    (s.params.carryPolicy = .sticky → s.carry = true → i ≠ .ccf → t.carry = true)

/-- Each piece of state but the carry flag and the program counter changes by its own instructions only: the
registers by the loads, moves, pops, sums, differences, products, quotients and EXT; Memory by the stores, the
pushes, POPM, LDTM and LDML; the stack pointer by the pushes and pops; the FunctionTable by FNC; the CallStack
by RET and the calls; the Drive, whose length stays, by STD, SVD and SMDL; the draw port, which only grows, by
the presentation instructions; the controller by HLT; the status by CLS, HLT and faults; the diagnostic port by
faults; the parameters and the host's events by none. -/
def Obligations.StateHasFewWriters : Prop :=
  ∀ (i : Instr) (s t : State), exec i s = .next t →
    (t.regs ≠ s.regs → isOneOf i [.ldv, .lda, .mov, .lvz, .lvnz, .pop, .ldo, .add, .addv, .sub, .subv, .add3,
      .addv3, .sub3, .subv3, .inc, .dec, .adc, .sbc, .mlt, .div, .ext]) ∧
    (t.mem ≠ s.mem → isOneOf i [.sta, .psh, .psv, .popm, .sto, .sva, .ldtm, .ldml]) ∧
    (t.sp ≠ s.sp → isOneOf i [.psh, .psv, .pop, .popm]) ∧
    (t.ft ≠ s.ft → isOneOf i [.fnc]) ∧
    (t.cs ≠ s.cs → isOneOf i [.ret, .cal, .clz, .clnz]) ∧
    (t.drive ≠ s.drive → isOneOf i [.std, .svd, .smdl]) ∧ t.drive.len = s.drive.len ∧
    (t.draws ≠ s.draws →
      isOneOf i [.txr, .txl, .rct, .crc, .cls, .lne, .mtxr, .mtxl, .mrct, .mcrc, .mlne]) ∧
    s.draws <+: t.draws ∧
    (t.persist ≠ s.persist → isOneOf i [.hlt]) ∧
    (t.status ≠ s.status → isOneOf i [.cls, .hlt] ∨ ∃ f, t = enterFault f s) ∧
    (t.diags ≠ s.diags → ∃ f, t = enterFault f s) ∧
    t.params = s.params ∧ t.host = s.host ∧ t.drawn = s.drawn

/-- An instruction that is no jump, call, return, FNC, EXT, CLS or HLT goes on at the byte after it, or
faults. -/
def Obligations.ControlTransfersAreFew : Prop :=
  ∀ (i : Instr) (s t : State), exec i s = .next t →
    ¬ isOneOf i [.jmp, .jpz, .jpnz, .fnc, .ret, .cal, .clz, .clnz, .cls, .ext, .hlt] →
    t.pc = s.pc + i.len ∨ ∃ f, t = enterFault f s

/-- A call that is taken, and a RET in any later state with the CallStack the call left, go on at the byte
after the call, with the CallStack as before the call. -/
def Obligations.CallThenReturnResumes : Prop :=
  ∀ (s : State) (i : Instr) (id : U16) (target : Int),
    (i = .cal id ∨
      (∃ rg g, i = .clz id rg ∧ regOfByte rg = some g ∧ s.reg g = 0#8) ∨
      ∃ rg g, i = .clnz id rg ∧ regOfByte rg = some g ∧ s.reg g ≠ 0#8) →
    lookupFunction s.ft id.toNat = some target →
    Completes (exec i s) fun t => t.pc = target ∧
      ∀ u : State, u.cs = t.cs → Completes (exec .ret u) fun v => v.pc = s.pc + i.len ∧ v.cs = s.cs

/-- A byte stored on the Drive by SVD or STD is what LDTM, and LDML at each place of its block, bring to
Memory in any later state whose Drive still holds it. -/
def Obligations.DriveRoundTrip : Prop :=
  ∀ (s : State) (i : Instr) (d : U32) (v : Byte),
    (i = .svd v d ∨ ∃ rs r, i = .std rs d ∧ regOfByte rs = some r ∧ v = s.reg r) → d.toNat < s.drive.len →
    Completes (exec i s) fun t =>
      ∀ u : State, u.driveByte d.toNat = t.driveByte d.toNat → u.drive.len = t.drive.len →
        (∀ m : U24, m.toNat < u.params.memSize →
          Completes (exec (.ldtm d m) u) fun w => w.byte m.toNat = v) ∧
        (∀ (e : U32) (m : U24) (n : U16), e.toNat ≤ d.toNat → d.toNat < e.toNat + n.toNat →
          e.toNat + n.toNat ≤ u.drive.len → m.toNat + n.toNat ≤ u.params.memSize →
          Completes (exec (.ldml e m n) u) fun w => w.byte (m.toNat + (d.toNat - e.toNat)) = v)

/-! ## Waits and persistence (60_exceptions) -/

/-- While CLS or HLT waits no step changes a register, the carry, the stack pointer, Memory, the Drive, the
FunctionTable or the CallStack, and the program counter moves only as the wait ends. -/
def Obligations.WaitsLeaveTheEngineAlone : Prop :=
  ∀ (s t : State), s.status = .waitingFrame ∨ s.status = .checkpointing → step s = .next t →
    SameRegs s t ∧ SameMemory s t ∧ t.carry = s.carry ∧ t.sp = s.sp ∧ t.drive = s.drive ∧ t.ft = s.ft ∧
    t.cs = s.cs ∧ (t.status = s.status → t.pc = s.pc ∧ t.draws = s.draws) ∧
    (t.status = .running → t.pc = s.pc + 1)

/-- A terminated block runs no further cycle: it has no step but the answer to the write in flight, which
commits whole or leaves the backing image, and changes nothing else. That any other event is a fault of the
step, and that the write in flight may still end, are the model's choices (log entry 7). -/
def Obligations.TerminatedIsFinal : Prop :=
  ∀ (s : State), s.status = .terminated →
    (∀ smp rest, NextEvent s (.cycle smp) rest → step s = .fault .blockTerminated) ∧
    (s.persist.writing = none → step s = .fault .blockTerminated) ∧
    (∀ t, step s = .next t → ∃ r, s.persist.writing = some r ∧
      t = { s with persist := t.persist, host := t.host, drawn := t.drawn } ∧
      (t.persist = { s.persist with writing := none, backing := r.snapshot, lastCommitted := some r.id } ∨
        t.persist = { s.persist with writing := none, serving := false }))

/-- In every status but a stopped one: a tick submits a background request with the Drive as it is; an idle
controller begins the oldest request; termination sets the status; and a commit, but that of HLT's own request, makes the
snapshot the backing image. Each changes nothing else, so a wait of CLS or HLT goes on. That a service is an
event of its own is the model's choice (log entry 1). -/
def Obligations.BoundaryEventsActAlone : Prop :=
  ∀ (s : State) (rest : List HostEvent),
    (s.status = .running ∨ s.status = .waitingFrame ∨ s.status = .checkpointing →
      (NextEvent s .tick rest → step s = .next { s with host := rest, persist := { s.persist with
        queue := s.persist.queue ++ [⟨s.persist.nextId, .background, s.drive⟩]
        nextId := s.persist.nextId + 1 } }) ∧
      (∀ r queue, s.persist.serving = true → s.persist.writing = none → s.persist.queue = r :: queue →
        NextEvent s .serve rest →
        step s = .next { s with host := rest, persist := { s.persist with writing := some r, queue := queue } }) ∧
      (NextEvent s .terminate rest → step s = .next { s with host := rest, status := .terminated })) ∧
    (∀ r, s.status = .running ∨ s.status = .waitingFrame ∨
        (s.status = .checkpointing ∧ r.origin = .background) →
      s.persist.writing = some r → NextEvent s .committed rest →
      step s = .next { s with host := rest, persist := { s.persist with
        writing := none, backing := r.snapshot, lastCommitted := some r.id } })

/-- When HLT retires, the backing image is the Drive as it was at that HLT, and control is at the next
byte. -/
def Obligations.HltRetiresCommitted : Prop :=
  ∀ (s t : State), s.Inv → s.status = .checkpointing → step s = .next t → t.status = .running →
    t.persist.backing = s.drive ∧ t.drive = s.drive ∧ t.pc = s.pc + 1

/-- The backing image changes by a commit only, and then it is the whole snapshot that was being
written. -/
def Obligations.BackingChangesOnlyByCommit : Prop :=
  ∀ (s t : State), step s = .next t → t.persist.backing ≠ s.persist.backing →
    ∃ r, s.persist.writing = some r ∧ t.persist.backing = r.snapshot ∧ t.persist.writing = none ∧
      t.persist.lastCommitted = some r.id

/-- Commits happen in snapshot order: what commits is newer than all that committed before and older than
all that is still pending. -/
def Obligations.CommitsInSnapshotOrder : Prop :=
  ∀ (s t : State), s.Inv → step s = .next t → t.persist.lastCommitted ≠ s.persist.lastCommitted →
    ∃ r ∈ s.persist.pending, t.persist.lastCommitted = some r.id ∧
      (∀ n, s.persist.lastCommitted = some n → n < r.id) ∧ ∀ q ∈ t.persist.pending, r.id < q.id

/-- A step keeps the requests as they are, or adds one at the end with a snapshot of the Drive, or ends the
oldest, which was being written: it has committed, or it has failed and there is no further service. None is
dropped, changed or overtaken. -/
def Obligations.RequestsKeptInOrder : Prop :=
  ∀ (s t : State), step s = .next t →
    t.persist.pending = s.persist.pending ∨
    (∃ origin, t.persist.pending = s.persist.pending ++ [⟨s.persist.nextId, origin, s.drive⟩]) ∨
    ∃ r, s.persist.writing = some r ∧ s.persist.pending = r :: t.persist.pending ∧
      ((t.persist.backing = r.snapshot ∧ t.persist.lastCommitted = some r.id ∧
          t.persist.serving = s.persist.serving) ∨
        (t.persist.backing = s.persist.backing ∧ t.persist.serving = false))

/-! ## The invariant -/

/-- In the model's representation of Memory and Drive (log entry 11): canonical Memories that hold the same
bytes are the same data, and so are canonical Drives. -/
def Obligations.EqualBytesAreEqualData : Prop :=
  (∀ (size : Nat) (m n : Cells), Memory.wf size m = true → Memory.wf size n = true → (∀ a, cellAt m a = cellAt n a) → m = n) ∧
  (∀ d e : Drive, Drive.wf d = true → Drive.wf e = true → d.len = e.len →
    (∀ a, cellAt d.cells a = cellAt e.cells a) → d = e)

/-- From every legal state, every step that gives a state gives a legal one. -/
def Obligations.InvariantKeptByStep : Prop :=
  ∀ (s t : State), s.Inv → step s = .next t → t.Inv

/-- The state after reset is legal, and its parameters are the spec's defaults. -/
def Obligations.InvariantAtReset : Prop :=
  State.reset.Inv ∧ State.reset.params.memSize = 524288 ∧ State.reset.params.ioBase = 65527 ∧
  State.reset.params.ioLast = 65535 ∧ State.reset.params.codeBase = 65536 ∧
  State.reset.params.spReset = 524288 ∧ State.reset.params.extNextPc = 65536 ∧
  State.reset.params.checkpointInterval = 5 ∧ State.reset.params.carryPolicy = .sticky ∧
  State.reset.params.opcodeMap = standardMap ∧ State.reset.params.retByte = 0x34#8
end

