-- ==== Sys2Proof/Laws/Cells.lean ====
section
/-! SUPPORT. The laws of cells: a byte written is the byte read there, every other byte is as before, and
every operation keeps the canonical form. -/

namespace Sys2Proof.Machine

/-! ### Registers -/

theorem Regs.get_set (x : Regs) (i j : Reg) (v : Byte) :
    (x.set i v).get j = if j = i then v else x.get j := by
  cases i <;> cases j <;> rfl

@[simp] theorem Regs.get_set_same (x : Regs) (i : Reg) (v : Byte) : (x.set i v).get i = v := by
  cases i <;> rfl

theorem Regs.get_set_ne (x : Regs) {i j : Reg} (v : Byte) (h : j ≠ i) : (x.set i v).get j = x.get j := by
  rw [Regs.get_set, if_neg h]

/-! ### Reading what was written -/

theorem cellAt_insertCell (m : Cells) (a b : Nat) (v : Byte) :
    cellAt (insertCell m a v) b = if b = a then v else cellAt m b := by
  induction m with
  | nil => simp [insertCell, cellAt]
  | cons c rest ih =>
    obtain ⟨k, w⟩ := c
    by_cases h1 : a < k
    · simp [insertCell, h1, cellAt]
    · by_cases h2 : a = k
      · subst h2
        by_cases hb : b = a <;> simp [insertCell, cellAt, hb]
      · by_cases hbk : b = k
        · subst hbk
          simp [insertCell, h1, h2, cellAt, Ne.symm h2]
        · simp [insertCell, h1, h2, cellAt, hbk, ih]

theorem cellAt_filter_ne (m : Cells) (a b : Nat) :
    cellAt (m.filter (fun c => c.1 != a)) b = if b = a then 0#8 else cellAt m b := by
  induction m with
  | nil => simp [cellAt]
  | cons c rest ih =>
    obtain ⟨k, w⟩ := c
    by_cases hk : k = a
    · subst hk
      by_cases hb : b = k <;> simp_all [cellAt]
    · have hf : ((k, w) :: rest).filter (fun c => c.1 != a) = (k, w) :: rest.filter (fun c => c.1 != a) := by
        simp [hk]
      rw [hf]
      by_cases hbk : b = k
      · subst hbk
        simp [cellAt, hk]
      · simp [cellAt, hbk, ih]

/-- A byte written is the byte read at its address, and every other byte is as before. -/
theorem cellAt_storeCell (m : Cells) (a b : Nat) (v : Byte) :
    cellAt (storeCell m a v) b = if b = a then v else cellAt m b := by
  unfold storeCell
  by_cases hv : v = 0#8
  · rw [if_pos hv, cellAt_filter_ne, hv]
  · rw [if_neg hv, cellAt_insertCell]

@[simp] theorem cellAt_storeCell_same (m : Cells) (a : Nat) (v : Byte) : cellAt (storeCell m a v) a = v := by
  rw [cellAt_storeCell, if_pos rfl]

theorem cellAt_storeCell_ne (m : Cells) {a b : Nat} (v : Byte) (h : b ≠ a) :
    cellAt (storeCell m a v) b = cellAt m b := by
  rw [cellAt_storeCell, if_neg h]

/-- Reading after a run of bytes was written: byte `i` of them at `a + i`, and before otherwise. -/
theorem cellAt_storeBytes (vs : List Byte) (m : Cells) (a b : Nat) :
    cellAt (storeBytes m a vs) b =
      if a ≤ b ∧ b < a + vs.length then vs.getD (b - a) 0#8 else cellAt m b := by
  induction vs generalizing m a with
  | nil => simp [storeBytes]
  | cons v rest ih =>
    rw [storeBytes, ih, cellAt_storeCell]
    by_cases hb : b = a
    · subst hb
      simp
    · by_cases hin : a + 1 ≤ b ∧ b < a + 1 + rest.length
      · have h2 : a ≤ b ∧ b < a + (v :: rest).length := by simp; omega
        rw [if_pos hin, if_pos h2, show b - a = (b - (a + 1)) + 1 by omega, List.getD_cons_succ]
      · have h2 : ¬ (a ≤ b ∧ b < a + (v :: rest).length) := by simp; omega
        rw [if_neg hin, if_neg h2, if_neg hb]

/-- Reading after a block copy: the source's byte inside the block, and before otherwise. -/
theorem cellAt_copyCells (src : Cells) (n f : Nat) (dst : Cells) (t b : Nat) :
    cellAt (copyCells src n f dst t) b =
      if t ≤ b ∧ b < t + n then cellAt src (f + (b - t)) else cellAt dst b := by
  induction n generalizing f dst t with
  | zero => simp [copyCells]
  | succ n ih =>
    rw [copyCells, ih, cellAt_storeCell]
    by_cases hb : b = t
    · subst hb
      simp
    · by_cases hin : t + 1 ≤ b ∧ b < t + 1 + n
      · have h2 : t ≤ b ∧ b < t + (n + 1) := by omega
        rw [if_pos hin, if_pos h2]
        congr 1
        omega
      · have h2 : ¬ (t ≤ b ∧ b < t + (n + 1)) := by omega
        rw [if_neg hin, if_neg h2, if_neg hb]

@[simp] theorem readBytes_length (m : Cells) (a n : Nat) : (readBytes m a n).length = n := by
  induction n generalizing a with
  | zero => rfl
  | succ n ih => simp [readBytes, ih]

theorem readBytes_getElem (m : Cells) (a n i : Nat) (h : i < (readBytes m a n).length) :
    (readBytes m a n)[i] = cellAt m (a + i) := by
  induction n generalizing a i with
  | zero => simp [readBytes] at h
  | succ n ih =>
    cases i with
    | zero => simp [readBytes]
    | succ i => simp [readBytes, ih, Nat.add_assoc, Nat.add_comm 1 i]

theorem cellAt_cellsOfBytes_lt (vs : List Byte) (a b : Nat) (h : b < a) : cellAt (cellsOfBytes a vs) b = 0#8 := by
  induction vs generalizing a with
  | nil => rfl
  | cons v rest ih =>
    have h1 : cellAt (cellsOfBytes (a + 1) rest) b = 0#8 := ih (a + 1) (by omega)
    by_cases hv : v = 0#8
    · simp [cellsOfBytes, hv, h1]
    · simp [cellsOfBytes, hv, cellAt, h1]; omega

/-- A loaded byte string reads back, and 0 stands everywhere else (10_state R32). -/
theorem cellAt_cellsOfBytes (vs : List Byte) (a b : Nat) :
    cellAt (cellsOfBytes a vs) b = if a ≤ b then vs.getD (b - a) 0#8 else 0#8 := by
  induction vs generalizing a with
  | nil => simp [cellsOfBytes, cellAt]
  | cons v rest ih =>
    by_cases hb : b = a
    · subst hb
      by_cases hv : v = 0#8
      · simp [cellsOfBytes, hv, cellAt_cellsOfBytes_lt]
      · simp [cellsOfBytes, hv, cellAt]
    · have hstep : cellAt (cellsOfBytes a (v :: rest)) b = cellAt (cellsOfBytes (a + 1) rest) b := by
        by_cases hv : v = 0#8
        · simp [cellsOfBytes, hv]
        · simp [cellsOfBytes, hv, cellAt, hb]
      rw [hstep, ih]
      by_cases hle : a ≤ b
      · rw [if_pos hle, if_pos (by omega : a + 1 ≤ b), show b - a = (b - (a + 1)) + 1 by omega,
          List.getD_cons_succ]
      · rw [if_neg hle, if_neg (by omega)]

/-! ### The canonical form -/

theorem cellsWithin_cons {lo hi a : Nat} {v : Byte} {rest : Cells} :
    cellsWithin lo hi ((a, v) :: rest) = true ↔ lo ≤ a ∧ a < hi ∧ v ≠ 0#8 ∧ cellsWithin (a + 1) hi rest = true := by
  simp [cellsWithin, and_assoc]

theorem cellsWithin_weaken {lo lo' hi : Nat} {m : Cells} (h : lo' ≤ lo) (hm : cellsWithin lo hi m = true) :
    cellsWithin lo' hi m = true := by
  cases m with
  | nil => rfl
  | cons c rest =>
    obtain ⟨a, v⟩ := c
    rw [cellsWithin_cons] at hm ⊢
    exact ⟨by omega, hm.2⟩

theorem cellsWithin_insertCell {lo hi a : Nat} {v : Byte} {m : Cells} (hlo : lo ≤ a) (hhi : a < hi)
    (hv : v ≠ 0#8) (hm : cellsWithin lo hi m = true) : cellsWithin lo hi (insertCell m a v) = true := by
  induction m generalizing lo with
  | nil => simp [insertCell, cellsWithin, hlo, hhi, hv]
  | cons c rest ih =>
    obtain ⟨k, w⟩ := c
    rw [cellsWithin_cons] at hm
    obtain ⟨h1, h2, h3, h4⟩ := hm
    by_cases hak : a < k
    · rw [insertCell, if_pos hak, cellsWithin_cons, cellsWithin_cons]
      exact ⟨hlo, hhi, hv, by omega, h2, h3, h4⟩
    · by_cases he : a = k
      · rw [insertCell, if_neg hak, if_pos he, cellsWithin_cons]
        subst he
        exact ⟨hlo, hhi, hv, h4⟩
      · rw [insertCell, if_neg hak, if_neg he, cellsWithin_cons]
        exact ⟨h1, h2, h3, ih (by omega) h4⟩

theorem cellsWithin_filter {lo hi a : Nat} {m : Cells} (hm : cellsWithin lo hi m = true) :
    cellsWithin lo hi (m.filter (fun c => c.1 != a)) = true := by
  induction m generalizing lo with
  | nil => rfl
  | cons c rest ih =>
    obtain ⟨k, w⟩ := c
    rw [cellsWithin_cons] at hm
    obtain ⟨h1, h2, h3, h4⟩ := hm
    by_cases hk : k = a
    · have hf : ((k, w) :: rest).filter (fun c => c.1 != a) = rest.filter (fun c => c.1 != a) := by simp [hk]
      rw [hf]
      exact cellsWithin_weaken (by omega) (ih h4)
    · have hf : ((k, w) :: rest).filter (fun c => c.1 != a) = (k, w) :: rest.filter (fun c => c.1 != a) := by
        simp [hk]
      rw [hf, cellsWithin_cons]
      exact ⟨h1, h2, h3, ih h4⟩

/-- Writing a byte inside the bounds keeps the canonical form. -/
theorem cellsWithin_storeCell {hi a : Nat} (v : Byte) {m : Cells} (ha : a < hi)
    (hm : cellsWithin 0 hi m = true) : cellsWithin 0 hi (storeCell m a v) = true := by
  unfold storeCell
  by_cases hv : v = 0#8
  · rw [if_pos hv]
    exact cellsWithin_filter hm
  · rw [if_neg hv]
    exact cellsWithin_insertCell (Nat.zero_le a) ha hv hm

theorem cellsWithin_storeBytes {hi : Nat} (vs : List Byte) {m : Cells} {a : Nat} (ha : a + vs.length ≤ hi)
    (hm : cellsWithin 0 hi m = true) : cellsWithin 0 hi (storeBytes m a vs) = true := by
  induction vs generalizing m a with
  | nil => exact hm
  | cons v rest ih =>
    have hl : a + (rest.length + 1) ≤ hi := by simpa using ha
    exact ih (by omega) (cellsWithin_storeCell v (by omega) hm)

theorem cellsWithin_copyCells {hi : Nat} (src : Cells) (n f : Nat) {dst : Cells} {t : Nat} (ht : t + n ≤ hi)
    (hm : cellsWithin 0 hi dst = true) : cellsWithin 0 hi (copyCells src n f dst t) = true := by
  induction n generalizing f dst t with
  | zero => exact hm
  | succ n ih => exact ih (f + 1) (by omega) (cellsWithin_storeCell _ (by omega) hm)

theorem cellsWithin_cellsOfBytes (vs : List Byte) {a hi : Nat} (h : a + vs.length ≤ hi) :
    cellsWithin a hi (cellsOfBytes a vs) = true := by
  induction vs generalizing a with
  | nil => rfl
  | cons v rest ih =>
    have hl : a + (rest.length + 1) ≤ hi := by simpa using h
    have hrest : cellsWithin (a + 1) hi (cellsOfBytes (a + 1) rest) = true := ih (by omega)
    by_cases hv : v = 0#8
    · rw [cellsOfBytes, if_pos hv]
      exact cellsWithin_weaken (by omega) hrest
    · rw [cellsOfBytes, if_neg hv, cellsWithin_cons]
      exact ⟨le_refl a, by omega, hv, hrest⟩

theorem Memory.wf_storeCell {size : Nat} {m : Cells} {a : Nat} (v : Byte) (ha : a < size)
    (hm : Memory.wf size m = true) : Memory.wf size (storeCell m a v) = true :=
  cellsWithin_storeCell v ha hm

theorem Memory.wf_storeBytes {size : Nat} {m : Cells} {a : Nat} (vs : List Byte) (ha : a + vs.length ≤ size)
    (hm : Memory.wf size m = true) : Memory.wf size (storeBytes m a vs) = true :=
  cellsWithin_storeBytes vs ha hm

theorem Memory.wf_copyCells {size : Nat} (src : Cells) (n f : Nat) {m : Cells} {t : Nat} (ht : t + n ≤ size)
    (hm : Memory.wf size m = true) : Memory.wf size (copyCells src n f m t) = true :=
  cellsWithin_copyCells src n f ht hm

theorem Memory.wf_cellsOfBytes {size base : Nat} {vs : List Byte} (h : base + vs.length ≤ size) :
    Memory.wf size (cellsOfBytes base vs) = true :=
  cellsWithin_weaken (Nat.zero_le _) (cellsWithin_cellsOfBytes vs h)

theorem Memory.wf_reset : Memory.wf State.reset.params.memSize State.reset.mem = true := rfl

theorem sampleBytes_length (smp : InputSample) : (sampleBytes smp).length = 9 := rfl

theorem Memory.wf_sampleInputs (smp : InputSample) (s : State) (hp : s.params.ioLast < s.params.memSize)
    (hm : Memory.wf s.params.memSize s.mem = true) :
    Memory.wf s.params.memSize (sampleInputs smp s).mem = true :=
  Memory.wf_storeBytes (sampleBytes smp) (by rw [sampleBytes_length]; exact hp) hm

theorem Drive.wf_iff {d : Drive} :
    Drive.wf d = true ↔ cellsWithin 0 d.len d.cells = true ∧ d.len ≤ Config.maxDriveLen := by
  simp [Drive.wf]

/-- A drive image of a file is a Drive in canonical form (00_scope R5, 60_exceptions R265). -/
theorem Drive.wf_ofBytes {image : List Byte} (h : image.length ≤ Config.maxDriveLen) :
    Drive.wf (Drive.ofBytes image) = true :=
  Drive.wf_iff.2 ⟨cellsWithin_cellsOfBytes image (by simp [Drive.ofBytes]), h⟩

theorem Drive.wf_storeCell {d : Drive} {a : Nat} (v : Byte) (ha : a < d.len) (hd : Drive.wf d = true) :
    Drive.wf ⟨d.len, storeCell d.cells a v⟩ = true := by
  rw [Drive.wf_iff] at hd ⊢
  exact ⟨cellsWithin_storeCell v ha hd.1, hd.2⟩

theorem Drive.wf_copyCells (src : Cells) (n f : Nat) {d : Drive} {t : Nat} (ht : t + n ≤ d.len)
    (hd : Drive.wf d = true) : Drive.wf ⟨d.len, copyCells src n f d.cells t⟩ = true := by
  rw [Drive.wf_iff] at hd ⊢
  exact ⟨cellsWithin_copyCells src n f ht hd.1, hd.2⟩

end Sys2Proof.Machine
end

