-- ==== Sys2Proof/Laws/Decode.lean ====
section
/-! SUPPORT. Each field reader reads back what the encoder writes for that field, and a reader's answer
comes from the bytes it says. -/

namespace Sys2Proof

/-! ### Big-endian fields -/

theorem be16_bytes (v : U16) : be16 (v.extractLsb' 8 8) (v.extractLsb' 0 8) = v := by
  apply BitVec.eq_of_getLsbD_eq
  intro i hi
  simp only [be16, BitVec.getLsbD_append, BitVec.getLsbD_extractLsb']
  by_cases h : i < 8
  · simp [h]
  · simp [h, show i - 8 < 8 by omega, show 8 + (i - 8) = i by omega]

theorem be24_bytes (v : U24) :
    be24 (v.extractLsb' 16 8) (v.extractLsb' 8 8) (v.extractLsb' 0 8) = v := by
  apply BitVec.eq_of_getLsbD_eq
  intro i hi
  simp only [be24, BitVec.getLsbD_append, BitVec.getLsbD_extractLsb']
  by_cases h : i < 8
  · simp [h, show i < 16 by omega]
  · by_cases h2 : i < 16
    · simp [h, h2, show i - 8 < 8 by omega, show 8 + (i - 8) = i by omega]
    · simp [h2, show i - 16 < 8 by omega, show 16 + (i - 16) = i by omega]

theorem be32_bytes (v : U32) :
    be32 (v.extractLsb' 24 8) (v.extractLsb' 16 8) (v.extractLsb' 8 8) (v.extractLsb' 0 8) = v := by
  apply BitVec.eq_of_getLsbD_eq
  intro i hi
  simp only [be32, BitVec.getLsbD_append, BitVec.getLsbD_extractLsb']
  by_cases h : i < 8
  · simp [h, show i < 16 by omega, show i < 24 by omega]
  · by_cases h2 : i < 16
    · simp [h, h2, show i < 24 by omega, show i - 8 < 8 by omega, show 8 + (i - 8) = i by omega]
    · by_cases h3 : i < 24
      · simp [h2, h3, show i - 16 < 8 by omega, show 16 + (i - 16) = i by omega]
      · simp [h3, show i - 24 < 8 by omega, show 24 + (i - 24) = i by omega]

theorem bytes16_be16 (b1 b0 : Byte) : bytes16 (be16 b1 b0) = [b1, b0] := by
  simp only [bytes16, List.cons.injEq, and_true]
  refine ⟨?_, ?_⟩ <;> apply BitVec.eq_of_getLsbD_eq <;> intro i hi <;>
    simp only [be16, BitVec.getLsbD_append, BitVec.getLsbD_extractLsb']
  · simp [hi]
  · simp [hi]

theorem bytes24_be24 (b2 b1 b0 : Byte) : bytes24 (be24 b2 b1 b0) = [b2, b1, b0] := by
  simp only [bytes24, List.cons.injEq, and_true]
  refine ⟨?_, ?_, ?_⟩ <;> apply BitVec.eq_of_getLsbD_eq <;> intro i hi <;>
    simp only [be24, BitVec.getLsbD_append, BitVec.getLsbD_extractLsb']
  · simp [hi]
  · simp [hi, show 8 + i < 16 by omega]
  · simp [hi, show i < 16 by omega]

theorem bytes32_be32 (b3 b2 b1 b0 : Byte) : bytes32 (be32 b3 b2 b1 b0) = [b3, b2, b1, b0] := by
  simp only [bytes32, List.cons.injEq, and_true]
  refine ⟨?_, ?_, ?_, ?_⟩ <;> apply BitVec.eq_of_getLsbD_eq <;> intro i hi <;>
    simp only [be32, BitVec.getLsbD_append, BitVec.getLsbD_extractLsb']
  · simp [hi]
  · simp [hi, show 16 + i < 24 by omega]
  · simp [hi, show 8 + i < 16 by omega, show 8 + i < 24 by omega]
  · simp [hi, show i < 16 by omega, show i < 24 by omega]

/-! ### Reading what was encoded -/

section
variable (bs : List Byte)

@[simp] theorem take8_cons (b : Byte) (k : Byte → List Byte → Option (Instr × List Byte)) :
    take8 (b :: bs) k = k b bs := rfl

@[simp] theorem take16_bytes16 (v : U16) (k : U16 → List Byte → Option (Instr × List Byte)) :
    take16 (bytes16 v ++ bs) k = k v bs := by
  simp only [bytes16, take16, List.cons_append, List.nil_append, be16_bytes]

@[simp] theorem take24_bytes24 (v : U24) (k : U24 → List Byte → Option (Instr × List Byte)) :
    take24 (bytes24 v ++ bs) k = k v bs := by
  simp only [bytes24, take24, List.cons_append, List.nil_append, be24_bytes]

@[simp] theorem take32_bytes32 (v : U32) (k : U32 → List Byte → Option (Instr × List Byte)) :
    take32 (bytes32 v ++ bs) k = k v bs := by
  simp only [bytes32, take32, List.cons_append, List.nil_append, be32_bytes]

@[simp] theorem takeRgba_bytesRgba (c : Rgba) (k : Rgba → List Byte → Option (Instr × List Byte)) :
    takeRgba (bytesRgba c ++ bs) k = k c bs := rfl

theorem takeBytes_append (front : List Byte) (k : List Byte → List Byte → Option (Instr × List Byte)) :
    takeBytes front.length (front ++ bs) k = k front bs := by
  induction front generalizing k with
  | nil => rfl
  | cons b front ih => simpa [takeBytes] using ih fun f r => k (b :: f) r

theorem takeGlyphs_bytesGlyphs {glyphs : List Byte} (h : glyphs.length ≤ 255)
    (k : List Byte → List Byte → Option (Instr × List Byte)) :
    takeGlyphs (bytesGlyphs glyphs ++ bs) k = k glyphs bs := by
  have hn : (BitVec.ofNat 8 glyphs.length).toNat = glyphs.length := by
    simp only [BitVec.toNat_ofNat]
    omega
  simp only [takeGlyphs, bytesGlyphs, List.cons_append, take8_cons, hn]
  exact takeBytes_append bs glyphs k

end

/-! ### Where an answer came from -/

section
variable {bs : List Byte} {r : Instr × List Byte}

theorem take8_some {k : Byte → List Byte → Option (Instr × List Byte)} (h : take8 bs k = some r) :
    ∃ b rest, bs = b :: rest ∧ k b rest = some r := by
  match bs, h with
  | b :: rest, h => exact ⟨b, rest, rfl, h⟩

theorem take16_some {k : U16 → List Byte → Option (Instr × List Byte)} (h : take16 bs k = some r) :
    ∃ v rest, bs = bytes16 v ++ rest ∧ k v rest = some r := by
  match bs, h with
  | b1 :: b0 :: rest, h => exact ⟨be16 b1 b0, rest, by simp [bytes16_be16], h⟩

theorem take24_some {k : U24 → List Byte → Option (Instr × List Byte)} (h : take24 bs k = some r) :
    ∃ v rest, bs = bytes24 v ++ rest ∧ k v rest = some r := by
  match bs, h with
  | b2 :: b1 :: b0 :: rest, h => exact ⟨be24 b2 b1 b0, rest, by simp [bytes24_be24], h⟩

theorem take32_some {k : U32 → List Byte → Option (Instr × List Byte)} (h : take32 bs k = some r) :
    ∃ v rest, bs = bytes32 v ++ rest ∧ k v rest = some r := by
  match bs, h with
  | b3 :: b2 :: b1 :: b0 :: rest, h => exact ⟨be32 b3 b2 b1 b0, rest, by simp [bytes32_be32], h⟩

theorem takeRgba_some {k : Rgba → List Byte → Option (Instr × List Byte)} (h : takeRgba bs k = some r) :
    ∃ c rest, bs = bytesRgba c ++ rest ∧ k c rest = some r := by
  match bs, h with
  | r :: g :: b :: a :: rest, h => exact ⟨⟨r, g, b, a⟩, rest, rfl, h⟩

theorem takeBytes_some {n : Nat} {k : List Byte → List Byte → Option (Instr × List Byte)}
    (h : takeBytes n bs k = some r) : ∃ front rest, front.length = n ∧ bs = front ++ rest ∧ k front rest = some r := by
  induction n generalizing bs k with
  | zero => exact ⟨[], bs, rfl, rfl, h⟩
  | succ n ih =>
    match bs, h with
    | b :: bs, h =>
      obtain ⟨front, rest, h1, h2, h3⟩ := ih h
      exact ⟨b :: front, rest, by simp [h1], by simp [h2], h3⟩

theorem takeGlyphs_some {k : List Byte → List Byte → Option (Instr × List Byte)}
    (h : takeGlyphs bs k = some r) :
    ∃ glyphs rest, glyphs.length ≤ 255 ∧ bs = bytesGlyphs glyphs ++ rest ∧ k glyphs rest = some r := by
  obtain ⟨n, rest, rfl, hk⟩ := take8_some h
  obtain ⟨front, rest, h1, rfl, hf⟩ := takeBytes_some hk
  have hn := n.isLt
  exact ⟨front, rest, by omega, by simp [bytesGlyphs, h1], hf⟩

end

end Sys2Proof
end

