-- ==== Sys2Proof/Laws/Parameters.lean ====
section
/-! SUPPORT. What a legal opcode map and legal parameters are, said once, and that the spec's defaults are
legal. -/

namespace Sys2Proof

/-! ### Opcode maps -/

theorem Operation.mem_all (op : Operation) : op ∈ Operation.all := by cases op <;> decide

/-- What a legal opcode map is. -/
theorem OpcodeMap.wf_iff {map : OpcodeMap} :
    map.wf = true ↔
      (∀ op, map.operationAt (map.codeOf op) = some op ∧ op.mayHaveCode (map.codeOf op) = true) ∧
        ∀ code : Byte, (match map.operationAt code with
          | some op => map.codeOf op == code
          | none => isUnassigned code) = true := by
  simp only [OpcodeMap.wf, Bool.and_eq_true, List.all_eq_true, beq_iff_eq, decide_eq_true_eq]
  exact and_congr_left' ⟨fun h op => h op op.mem_all, fun h op _ => h op⟩

/-- Under a legal map the code of an operation picks that operation. -/
theorem OpcodeMap.operationAt_codeOf {map : OpcodeMap} (h : map.wf = true) (op : Operation) :
    map.operationAt (map.codeOf op) = some op := ((OpcodeMap.wf_iff.1 h).1 op).1

/-- An instruction is encoded with its operation's code. -/
theorem Instr.opcode_of_operation {map : OpcodeMap} {i : Instr} {op : Operation} (h : i.operation = some op) :
    i.opcode map = map.codeOf op := by
  rw [Instr.operation, Sum.getLeft?_eq_some_iff] at h
  rw [Instr.opcode, h, Sum.elim_inl]

/-- Under a legal map no two operations have one code. -/
theorem OpcodeMap.codeOf_injective {map : OpcodeMap} (h : map.wf = true) {a b : Operation}
    (hc : map.codeOf a = map.codeOf b) : a = b := by
  have ha := OpcodeMap.operationAt_codeOf h a
  rw [hc, OpcodeMap.operationAt_codeOf h b] at ha
  exact (Option.some.inj ha).symm

/-- Under a legal map the code of an operation is the only one that picks it. -/
theorem OpcodeMap.codeOf_of_operationAt {map : OpcodeMap} (h : map.wf = true) {code : Byte} {op : Operation}
    (ho : map.operationAt code = some op) : map.codeOf op = code := by
  simpa only [ho, beq_iff_eq] using (OpcodeMap.wf_iff.1 h).2 code

/-- Under a legal map a code without an operation is one of 30_encoding R87's. -/
theorem OpcodeMap.isUnassigned_of_operationAt {map : OpcodeMap} (h : map.wf = true) {code : Byte}
    (ho : map.operationAt code = none) : isUnassigned code = true := by
  simpa only [ho] using (OpcodeMap.wf_iff.1 h).2 code

/-- No operation has a code of 30_encoding R87. -/
theorem Operation.not_isUnassigned {op : Operation} {code : Byte} (h : op.mayHaveCode code = true) :
    isUnassigned code = false := by
  cases op <;> simp_all [Operation.mayHaveCode, isUnassigned] <;> omega

/-- Under a legal map the codes of 30_encoding R87 have no operation. -/
theorem OpcodeMap.operationAt_of_isUnassigned {map : OpcodeMap} (h : map.wf = true) {code : Byte}
    (hu : isUnassigned code = true) : map.operationAt code = none := by
  cases ho : map.operationAt code with
  | none => rfl
  | some op =>
    have hc := ((OpcodeMap.wf_iff.1 h).1 op).2
    rw [OpcodeMap.codeOf_of_operationAt h ho] at hc
    rw [Operation.not_isUnassigned hc] at hu
    exact absurd hu (by decide)

theorem standardMap_wf : standardMap.wf = true := by decide +kernel

/-! ### Parameters -/

/-- What legal parameters are. -/
theorem Params.wf_iff {p : Params} :
    p.wf = true ↔ 65790 < p.memSize ∧ p.ioLast < p.memSize ∧ p.codeBase ≤ p.memSize ∧
      (0 ≤ p.spReset ∧ p.spReset ≤ p.memSize) ∧ p.opcodeMap.wf = true := by
  simp only [Params.wf, Bool.and_eq_true, decide_eq_true_eq, and_assoc]

/-- RET_BYTE is not 0: it is in the range of the control-flow family. -/
theorem Params.retByte_ne_zero {p : Params} (h : p.wf = true) : p.retByte ≠ 0#8 := by
  have hc := ((OpcodeMap.wf_iff.1 (Params.wf_iff.1 h).2.2.2.2).1 .ret).2
  intro hz
  rw [Params.retByte] at hz
  rw [hz] at hc
  exact absurd hc (by decide)

theorem Params.standard_wf : Params.standard.wf = true := by decide +kernel

end Sys2Proof
end

