-- ==== Sys2Proof/Laws/State.lean ====
section
/-! SUPPORT. One lemma for each field of State and each named update of it, true by definition, so that no
later proof unfolds a record update. -/

namespace Sys2Proof.Machine

variable (s : State)

/-! ### setReg -/

@[simp] theorem setReg_regs (i : Reg) (v : Byte) : (s.setReg i v).regs = s.regs.set i v := rfl
@[simp] theorem setReg_pc (i : Reg) (v : Byte) : (s.setReg i v).pc = s.pc := rfl
@[simp] theorem setReg_carry (i : Reg) (v : Byte) : (s.setReg i v).carry = s.carry := rfl
@[simp] theorem setReg_sp (i : Reg) (v : Byte) : (s.setReg i v).sp = s.sp := rfl
@[simp] theorem setReg_mem (i : Reg) (v : Byte) : (s.setReg i v).mem = s.mem := rfl
@[simp] theorem setReg_drive (i : Reg) (v : Byte) : (s.setReg i v).drive = s.drive := rfl
@[simp] theorem setReg_ft (i : Reg) (v : Byte) : (s.setReg i v).ft = s.ft := rfl
@[simp] theorem setReg_cs (i : Reg) (v : Byte) : (s.setReg i v).cs = s.cs := rfl
@[simp] theorem setReg_status (i : Reg) (v : Byte) : (s.setReg i v).status = s.status := rfl
@[simp] theorem setReg_persist (i : Reg) (v : Byte) : (s.setReg i v).persist = s.persist := rfl
@[simp] theorem setReg_draws (i : Reg) (v : Byte) : (s.setReg i v).draws = s.draws := rfl
@[simp] theorem setReg_diags (i : Reg) (v : Byte) : (s.setReg i v).diags = s.diags := rfl
@[simp] theorem setReg_params (i : Reg) (v : Byte) : (s.setReg i v).params = s.params := rfl
@[simp] theorem setReg_host (i : Reg) (v : Byte) : (s.setReg i v).host = s.host := rfl
@[simp] theorem setReg_drawn (i : Reg) (v : Byte) : (s.setReg i v).drawn = s.drawn := rfl

/-! ### setByte -/

@[simp] theorem setByte_regs (a : Nat) (v : Byte) : (s.setByte a v).regs = s.regs := rfl
@[simp] theorem setByte_pc (a : Nat) (v : Byte) : (s.setByte a v).pc = s.pc := rfl
@[simp] theorem setByte_carry (a : Nat) (v : Byte) : (s.setByte a v).carry = s.carry := rfl
@[simp] theorem setByte_sp (a : Nat) (v : Byte) : (s.setByte a v).sp = s.sp := rfl
@[simp] theorem setByte_mem (a : Nat) (v : Byte) : (s.setByte a v).mem = storeCell s.mem a v := rfl
@[simp] theorem setByte_drive (a : Nat) (v : Byte) : (s.setByte a v).drive = s.drive := rfl
@[simp] theorem setByte_ft (a : Nat) (v : Byte) : (s.setByte a v).ft = s.ft := rfl
@[simp] theorem setByte_cs (a : Nat) (v : Byte) : (s.setByte a v).cs = s.cs := rfl
@[simp] theorem setByte_status (a : Nat) (v : Byte) : (s.setByte a v).status = s.status := rfl
@[simp] theorem setByte_persist (a : Nat) (v : Byte) : (s.setByte a v).persist = s.persist := rfl
@[simp] theorem setByte_draws (a : Nat) (v : Byte) : (s.setByte a v).draws = s.draws := rfl
@[simp] theorem setByte_diags (a : Nat) (v : Byte) : (s.setByte a v).diags = s.diags := rfl
@[simp] theorem setByte_params (a : Nat) (v : Byte) : (s.setByte a v).params = s.params := rfl
@[simp] theorem setByte_host (a : Nat) (v : Byte) : (s.setByte a v).host = s.host := rfl
@[simp] theorem setByte_drawn (a : Nat) (v : Byte) : (s.setByte a v).drawn = s.drawn := rfl

/-! ### setDriveByte -/

@[simp] theorem setDriveByte_regs (a : Nat) (v : Byte) : (s.setDriveByte a v).regs = s.regs := rfl
@[simp] theorem setDriveByte_pc (a : Nat) (v : Byte) : (s.setDriveByte a v).pc = s.pc := rfl
@[simp] theorem setDriveByte_carry (a : Nat) (v : Byte) : (s.setDriveByte a v).carry = s.carry := rfl
@[simp] theorem setDriveByte_sp (a : Nat) (v : Byte) : (s.setDriveByte a v).sp = s.sp := rfl
@[simp] theorem setDriveByte_mem (a : Nat) (v : Byte) : (s.setDriveByte a v).mem = s.mem := rfl
@[simp] theorem setDriveByte_drive (a : Nat) (v : Byte) : (s.setDriveByte a v).drive = ⟨s.drive.len, storeCell s.drive.cells a v⟩ := rfl
@[simp] theorem setDriveByte_ft (a : Nat) (v : Byte) : (s.setDriveByte a v).ft = s.ft := rfl
@[simp] theorem setDriveByte_cs (a : Nat) (v : Byte) : (s.setDriveByte a v).cs = s.cs := rfl
@[simp] theorem setDriveByte_status (a : Nat) (v : Byte) : (s.setDriveByte a v).status = s.status := rfl
@[simp] theorem setDriveByte_persist (a : Nat) (v : Byte) : (s.setDriveByte a v).persist = s.persist := rfl
@[simp] theorem setDriveByte_draws (a : Nat) (v : Byte) : (s.setDriveByte a v).draws = s.draws := rfl
@[simp] theorem setDriveByte_diags (a : Nat) (v : Byte) : (s.setDriveByte a v).diags = s.diags := rfl
@[simp] theorem setDriveByte_params (a : Nat) (v : Byte) : (s.setDriveByte a v).params = s.params := rfl
@[simp] theorem setDriveByte_host (a : Nat) (v : Byte) : (s.setDriveByte a v).host = s.host := rfl
@[simp] theorem setDriveByte_drawn (a : Nat) (v : Byte) : (s.setDriveByte a v).drawn = s.drawn := rfl

/-! ### copyFromDrive -/

@[simp] theorem copyFromDrive_regs (d m n : Nat) : (s.copyFromDrive d m n).regs = s.regs := rfl
@[simp] theorem copyFromDrive_pc (d m n : Nat) : (s.copyFromDrive d m n).pc = s.pc := rfl
@[simp] theorem copyFromDrive_carry (d m n : Nat) : (s.copyFromDrive d m n).carry = s.carry := rfl
@[simp] theorem copyFromDrive_sp (d m n : Nat) : (s.copyFromDrive d m n).sp = s.sp := rfl
@[simp] theorem copyFromDrive_mem (d m n : Nat) : (s.copyFromDrive d m n).mem = copyCells s.drive.cells n d s.mem m := rfl
@[simp] theorem copyFromDrive_drive (d m n : Nat) : (s.copyFromDrive d m n).drive = s.drive := rfl
@[simp] theorem copyFromDrive_ft (d m n : Nat) : (s.copyFromDrive d m n).ft = s.ft := rfl
@[simp] theorem copyFromDrive_cs (d m n : Nat) : (s.copyFromDrive d m n).cs = s.cs := rfl
@[simp] theorem copyFromDrive_status (d m n : Nat) : (s.copyFromDrive d m n).status = s.status := rfl
@[simp] theorem copyFromDrive_persist (d m n : Nat) : (s.copyFromDrive d m n).persist = s.persist := rfl
@[simp] theorem copyFromDrive_draws (d m n : Nat) : (s.copyFromDrive d m n).draws = s.draws := rfl
@[simp] theorem copyFromDrive_diags (d m n : Nat) : (s.copyFromDrive d m n).diags = s.diags := rfl
@[simp] theorem copyFromDrive_params (d m n : Nat) : (s.copyFromDrive d m n).params = s.params := rfl
@[simp] theorem copyFromDrive_host (d m n : Nat) : (s.copyFromDrive d m n).host = s.host := rfl
@[simp] theorem copyFromDrive_drawn (d m n : Nat) : (s.copyFromDrive d m n).drawn = s.drawn := rfl

/-! ### copyToDrive -/

@[simp] theorem copyToDrive_regs (m d n : Nat) : (s.copyToDrive m d n).regs = s.regs := rfl
@[simp] theorem copyToDrive_pc (m d n : Nat) : (s.copyToDrive m d n).pc = s.pc := rfl
@[simp] theorem copyToDrive_carry (m d n : Nat) : (s.copyToDrive m d n).carry = s.carry := rfl
@[simp] theorem copyToDrive_sp (m d n : Nat) : (s.copyToDrive m d n).sp = s.sp := rfl
@[simp] theorem copyToDrive_mem (m d n : Nat) : (s.copyToDrive m d n).mem = s.mem := rfl
@[simp] theorem copyToDrive_drive (m d n : Nat) : (s.copyToDrive m d n).drive = ⟨s.drive.len, copyCells s.mem n m s.drive.cells d⟩ := rfl
@[simp] theorem copyToDrive_ft (m d n : Nat) : (s.copyToDrive m d n).ft = s.ft := rfl
@[simp] theorem copyToDrive_cs (m d n : Nat) : (s.copyToDrive m d n).cs = s.cs := rfl
@[simp] theorem copyToDrive_status (m d n : Nat) : (s.copyToDrive m d n).status = s.status := rfl
@[simp] theorem copyToDrive_persist (m d n : Nat) : (s.copyToDrive m d n).persist = s.persist := rfl
@[simp] theorem copyToDrive_draws (m d n : Nat) : (s.copyToDrive m d n).draws = s.draws := rfl
@[simp] theorem copyToDrive_diags (m d n : Nat) : (s.copyToDrive m d n).diags = s.diags := rfl
@[simp] theorem copyToDrive_params (m d n : Nat) : (s.copyToDrive m d n).params = s.params := rfl
@[simp] theorem copyToDrive_host (m d n : Nat) : (s.copyToDrive m d n).host = s.host := rfl
@[simp] theorem copyToDrive_drawn (m d n : Nat) : (s.copyToDrive m d n).drawn = s.drawn := rfl

/-! ### emit -/

@[simp] theorem emit_regs (c : DrawCommand) : (s.emit c).regs = s.regs := rfl
@[simp] theorem emit_pc (c : DrawCommand) : (s.emit c).pc = s.pc := rfl
@[simp] theorem emit_carry (c : DrawCommand) : (s.emit c).carry = s.carry := rfl
@[simp] theorem emit_sp (c : DrawCommand) : (s.emit c).sp = s.sp := rfl
@[simp] theorem emit_mem (c : DrawCommand) : (s.emit c).mem = s.mem := rfl
@[simp] theorem emit_drive (c : DrawCommand) : (s.emit c).drive = s.drive := rfl
@[simp] theorem emit_ft (c : DrawCommand) : (s.emit c).ft = s.ft := rfl
@[simp] theorem emit_cs (c : DrawCommand) : (s.emit c).cs = s.cs := rfl
@[simp] theorem emit_status (c : DrawCommand) : (s.emit c).status = s.status := rfl
@[simp] theorem emit_persist (c : DrawCommand) : (s.emit c).persist = s.persist := rfl
@[simp] theorem emit_draws (c : DrawCommand) : (s.emit c).draws = s.draws ++ [c] := rfl
@[simp] theorem emit_diags (c : DrawCommand) : (s.emit c).diags = s.diags := rfl
@[simp] theorem emit_params (c : DrawCommand) : (s.emit c).params = s.params := rfl
@[simp] theorem emit_host (c : DrawCommand) : (s.emit c).host = s.host := rfl
@[simp] theorem emit_drawn (c : DrawCommand) : (s.emit c).drawn = s.drawn := rfl

/-! ### stopWith -/

@[simp] theorem stopWith_regs (r : FaultRecord) : (stopWith r s).regs = s.regs := rfl
@[simp] theorem stopWith_pc (r : FaultRecord) : (stopWith r s).pc = s.pc := rfl
@[simp] theorem stopWith_carry (r : FaultRecord) : (stopWith r s).carry = s.carry := rfl
@[simp] theorem stopWith_sp (r : FaultRecord) : (stopWith r s).sp = s.sp := rfl
@[simp] theorem stopWith_mem (r : FaultRecord) : (stopWith r s).mem = s.mem := rfl
@[simp] theorem stopWith_drive (r : FaultRecord) : (stopWith r s).drive = s.drive := rfl
@[simp] theorem stopWith_ft (r : FaultRecord) : (stopWith r s).ft = s.ft := rfl
@[simp] theorem stopWith_cs (r : FaultRecord) : (stopWith r s).cs = s.cs := rfl
@[simp] theorem stopWith_status (r : FaultRecord) : (stopWith r s).status = .faulted r := rfl
@[simp] theorem stopWith_persist (r : FaultRecord) : (stopWith r s).persist = s.persist := rfl
@[simp] theorem stopWith_draws (r : FaultRecord) : (stopWith r s).draws = s.draws := rfl
@[simp] theorem stopWith_diags (r : FaultRecord) : (stopWith r s).diags = s.diags ++ [r] := rfl
@[simp] theorem stopWith_params (r : FaultRecord) : (stopWith r s).params = s.params := rfl
@[simp] theorem stopWith_host (r : FaultRecord) : (stopWith r s).host = s.host := rfl
@[simp] theorem stopWith_drawn (r : FaultRecord) : (stopWith r s).drawn = s.drawn := rfl

/-! ### enterFault -/

@[simp] theorem enterFault_regs (f : EngineFault) : (enterFault f s).regs = s.regs := rfl
@[simp] theorem enterFault_pc (f : EngineFault) : (enterFault f s).pc = s.pc := rfl
@[simp] theorem enterFault_carry (f : EngineFault) : (enterFault f s).carry = s.carry := rfl
@[simp] theorem enterFault_sp (f : EngineFault) : (enterFault f s).sp = s.sp := rfl
@[simp] theorem enterFault_mem (f : EngineFault) : (enterFault f s).mem = s.mem := rfl
@[simp] theorem enterFault_drive (f : EngineFault) : (enterFault f s).drive = s.drive := rfl
@[simp] theorem enterFault_ft (f : EngineFault) : (enterFault f s).ft = s.ft := rfl
@[simp] theorem enterFault_cs (f : EngineFault) : (enterFault f s).cs = s.cs := rfl
@[simp] theorem enterFault_status (f : EngineFault) : (enterFault f s).status = .faulted ⟨f, s.pc, s.opcodeHere⟩ := rfl
@[simp] theorem enterFault_persist (f : EngineFault) : (enterFault f s).persist = s.persist := rfl
@[simp] theorem enterFault_draws (f : EngineFault) : (enterFault f s).draws = s.draws := rfl
@[simp] theorem enterFault_diags (f : EngineFault) : (enterFault f s).diags = s.diags ++ [⟨f, s.pc, s.opcodeHere⟩] := rfl
@[simp] theorem enterFault_params (f : EngineFault) : (enterFault f s).params = s.params := rfl
@[simp] theorem enterFault_host (f : EngineFault) : (enterFault f s).host = s.host := rfl
@[simp] theorem enterFault_drawn (f : EngineFault) : (enterFault f s).drawn = s.drawn := rfl

/-! ### addInto -/

@[simp] theorem addInto_regs (rd : Reg) (a b : Byte) : (s.addInto rd a b).regs = s.regs.set rd (addOp s.params.carryPolicy s.carry a b).value := rfl
@[simp] theorem addInto_pc (rd : Reg) (a b : Byte) : (s.addInto rd a b).pc = s.pc := rfl
@[simp] theorem addInto_carry (rd : Reg) (a b : Byte) : (s.addInto rd a b).carry = (addOp s.params.carryPolicy s.carry a b).carry := rfl
@[simp] theorem addInto_sp (rd : Reg) (a b : Byte) : (s.addInto rd a b).sp = s.sp := rfl
@[simp] theorem addInto_mem (rd : Reg) (a b : Byte) : (s.addInto rd a b).mem = s.mem := rfl
@[simp] theorem addInto_drive (rd : Reg) (a b : Byte) : (s.addInto rd a b).drive = s.drive := rfl
@[simp] theorem addInto_ft (rd : Reg) (a b : Byte) : (s.addInto rd a b).ft = s.ft := rfl
@[simp] theorem addInto_cs (rd : Reg) (a b : Byte) : (s.addInto rd a b).cs = s.cs := rfl
@[simp] theorem addInto_status (rd : Reg) (a b : Byte) : (s.addInto rd a b).status = s.status := rfl
@[simp] theorem addInto_persist (rd : Reg) (a b : Byte) : (s.addInto rd a b).persist = s.persist := rfl
@[simp] theorem addInto_draws (rd : Reg) (a b : Byte) : (s.addInto rd a b).draws = s.draws := rfl
@[simp] theorem addInto_diags (rd : Reg) (a b : Byte) : (s.addInto rd a b).diags = s.diags := rfl
@[simp] theorem addInto_params (rd : Reg) (a b : Byte) : (s.addInto rd a b).params = s.params := rfl
@[simp] theorem addInto_host (rd : Reg) (a b : Byte) : (s.addInto rd a b).host = s.host := rfl
@[simp] theorem addInto_drawn (rd : Reg) (a b : Byte) : (s.addInto rd a b).drawn = s.drawn := rfl

/-! ### subInto -/

@[simp] theorem subInto_regs (rd : Reg) (a b : Byte) : (s.subInto rd a b).regs = s.regs.set rd (subOp s.params.carryPolicy s.carry a b).value := rfl
@[simp] theorem subInto_pc (rd : Reg) (a b : Byte) : (s.subInto rd a b).pc = s.pc := rfl
@[simp] theorem subInto_carry (rd : Reg) (a b : Byte) : (s.subInto rd a b).carry = (subOp s.params.carryPolicy s.carry a b).carry := rfl
@[simp] theorem subInto_sp (rd : Reg) (a b : Byte) : (s.subInto rd a b).sp = s.sp := rfl
@[simp] theorem subInto_mem (rd : Reg) (a b : Byte) : (s.subInto rd a b).mem = s.mem := rfl
@[simp] theorem subInto_drive (rd : Reg) (a b : Byte) : (s.subInto rd a b).drive = s.drive := rfl
@[simp] theorem subInto_ft (rd : Reg) (a b : Byte) : (s.subInto rd a b).ft = s.ft := rfl
@[simp] theorem subInto_cs (rd : Reg) (a b : Byte) : (s.subInto rd a b).cs = s.cs := rfl
@[simp] theorem subInto_status (rd : Reg) (a b : Byte) : (s.subInto rd a b).status = s.status := rfl
@[simp] theorem subInto_persist (rd : Reg) (a b : Byte) : (s.subInto rd a b).persist = s.persist := rfl
@[simp] theorem subInto_draws (rd : Reg) (a b : Byte) : (s.subInto rd a b).draws = s.draws := rfl
@[simp] theorem subInto_diags (rd : Reg) (a b : Byte) : (s.subInto rd a b).diags = s.diags := rfl
@[simp] theorem subInto_params (rd : Reg) (a b : Byte) : (s.subInto rd a b).params = s.params := rfl
@[simp] theorem subInto_host (rd : Reg) (a b : Byte) : (s.subInto rd a b).host = s.host := rfl
@[simp] theorem subInto_drawn (rd : Reg) (a b : Byte) : (s.subInto rd a b).drawn = s.drawn := rfl

/-! ### writePair -/

@[simp] theorem writePair_regs (h l : Reg) (v : Nat) : (writePair s h l v).regs = (s.regs.set h (BitVec.ofNat 8 (v / 256))).set l (BitVec.ofNat 8 v) := rfl
@[simp] theorem writePair_pc (h l : Reg) (v : Nat) : (writePair s h l v).pc = s.pc := rfl
@[simp] theorem writePair_carry (h l : Reg) (v : Nat) : (writePair s h l v).carry = s.carry := rfl
@[simp] theorem writePair_sp (h l : Reg) (v : Nat) : (writePair s h l v).sp = s.sp := rfl
@[simp] theorem writePair_mem (h l : Reg) (v : Nat) : (writePair s h l v).mem = s.mem := rfl
@[simp] theorem writePair_drive (h l : Reg) (v : Nat) : (writePair s h l v).drive = s.drive := rfl
@[simp] theorem writePair_ft (h l : Reg) (v : Nat) : (writePair s h l v).ft = s.ft := rfl
@[simp] theorem writePair_cs (h l : Reg) (v : Nat) : (writePair s h l v).cs = s.cs := rfl
@[simp] theorem writePair_status (h l : Reg) (v : Nat) : (writePair s h l v).status = s.status := rfl
@[simp] theorem writePair_persist (h l : Reg) (v : Nat) : (writePair s h l v).persist = s.persist := rfl
@[simp] theorem writePair_draws (h l : Reg) (v : Nat) : (writePair s h l v).draws = s.draws := rfl
@[simp] theorem writePair_diags (h l : Reg) (v : Nat) : (writePair s h l v).diags = s.diags := rfl
@[simp] theorem writePair_params (h l : Reg) (v : Nat) : (writePair s h l v).params = s.params := rfl
@[simp] theorem writePair_host (h l : Reg) (v : Nat) : (writePair s h l v).host = s.host := rfl
@[simp] theorem writePair_drawn (h l : Reg) (v : Nat) : (writePair s h l v).drawn = s.drawn := rfl

/-! ### sampleInputs -/

@[simp] theorem sampleInputs_regs (smp : InputSample) : (sampleInputs smp s).regs = s.regs := rfl
@[simp] theorem sampleInputs_pc (smp : InputSample) : (sampleInputs smp s).pc = s.pc := rfl
@[simp] theorem sampleInputs_carry (smp : InputSample) : (sampleInputs smp s).carry = s.carry := rfl
@[simp] theorem sampleInputs_sp (smp : InputSample) : (sampleInputs smp s).sp = s.sp := rfl
@[simp] theorem sampleInputs_mem (smp : InputSample) : (sampleInputs smp s).mem = storeBytes s.mem s.params.ioBase (sampleBytes smp) := rfl
@[simp] theorem sampleInputs_drive (smp : InputSample) : (sampleInputs smp s).drive = s.drive := rfl
@[simp] theorem sampleInputs_ft (smp : InputSample) : (sampleInputs smp s).ft = s.ft := rfl
@[simp] theorem sampleInputs_cs (smp : InputSample) : (sampleInputs smp s).cs = s.cs := rfl
@[simp] theorem sampleInputs_status (smp : InputSample) : (sampleInputs smp s).status = s.status := rfl
@[simp] theorem sampleInputs_persist (smp : InputSample) : (sampleInputs smp s).persist = s.persist := rfl
@[simp] theorem sampleInputs_draws (smp : InputSample) : (sampleInputs smp s).draws = s.draws := rfl
@[simp] theorem sampleInputs_diags (smp : InputSample) : (sampleInputs smp s).diags = s.diags := rfl
@[simp] theorem sampleInputs_params (smp : InputSample) : (sampleInputs smp s).params = s.params := rfl
@[simp] theorem sampleInputs_host (smp : InputSample) : (sampleInputs smp s).host = s.host := rfl
@[simp] theorem sampleInputs_drawn (smp : InputSample) : (sampleInputs smp s).drawn = s.drawn := rfl

/-! ### onTick -/

@[simp] theorem onTick_regs : (onTick s).regs = s.regs := rfl
@[simp] theorem onTick_pc : (onTick s).pc = s.pc := rfl
@[simp] theorem onTick_carry : (onTick s).carry = s.carry := rfl
@[simp] theorem onTick_sp : (onTick s).sp = s.sp := rfl
@[simp] theorem onTick_mem : (onTick s).mem = s.mem := rfl
@[simp] theorem onTick_drive : (onTick s).drive = s.drive := rfl
@[simp] theorem onTick_ft : (onTick s).ft = s.ft := rfl
@[simp] theorem onTick_cs : (onTick s).cs = s.cs := rfl
@[simp] theorem onTick_status : (onTick s).status = s.status := rfl
@[simp] theorem onTick_persist : (onTick s).persist = s.persist.submit .background s.drive := rfl
@[simp] theorem onTick_draws : (onTick s).draws = s.draws := rfl
@[simp] theorem onTick_diags : (onTick s).diags = s.diags := rfl
@[simp] theorem onTick_params : (onTick s).params = s.params := rfl
@[simp] theorem onTick_host : (onTick s).host = s.host := rfl
@[simp] theorem onTick_drawn : (onTick s).drawn = s.drawn := rfl

/-! ### onServe -/

@[simp] theorem onServe_regs : (onServe s).regs = s.regs := rfl
@[simp] theorem onServe_pc : (onServe s).pc = s.pc := rfl
@[simp] theorem onServe_carry : (onServe s).carry = s.carry := rfl
@[simp] theorem onServe_sp : (onServe s).sp = s.sp := rfl
@[simp] theorem onServe_mem : (onServe s).mem = s.mem := rfl
@[simp] theorem onServe_drive : (onServe s).drive = s.drive := rfl
@[simp] theorem onServe_ft : (onServe s).ft = s.ft := rfl
@[simp] theorem onServe_cs : (onServe s).cs = s.cs := rfl
@[simp] theorem onServe_status : (onServe s).status = s.status := rfl
@[simp] theorem onServe_persist : (onServe s).persist = s.persist.serve := rfl
@[simp] theorem onServe_draws : (onServe s).draws = s.draws := rfl
@[simp] theorem onServe_diags : (onServe s).diags = s.diags := rfl
@[simp] theorem onServe_params : (onServe s).params = s.params := rfl
@[simp] theorem onServe_host : (onServe s).host = s.host := rfl
@[simp] theorem onServe_drawn : (onServe s).drawn = s.drawn := rfl

/-! ### resumeHlt -/

@[simp] theorem resumeHlt_regs : (resumeHlt s).regs = s.regs := rfl
@[simp] theorem resumeHlt_pc : (resumeHlt s).pc = s.pc + 1 := rfl
@[simp] theorem resumeHlt_carry : (resumeHlt s).carry = s.carry := rfl
@[simp] theorem resumeHlt_sp : (resumeHlt s).sp = s.sp := rfl
@[simp] theorem resumeHlt_mem : (resumeHlt s).mem = s.mem := rfl
@[simp] theorem resumeHlt_drive : (resumeHlt s).drive = s.drive := rfl
@[simp] theorem resumeHlt_ft : (resumeHlt s).ft = s.ft := rfl
@[simp] theorem resumeHlt_cs : (resumeHlt s).cs = s.cs := rfl
@[simp] theorem resumeHlt_status : (resumeHlt s).status = .running := rfl
@[simp] theorem resumeHlt_persist : (resumeHlt s).persist = s.persist := rfl
@[simp] theorem resumeHlt_draws : (resumeHlt s).draws = s.draws := rfl
@[simp] theorem resumeHlt_diags : (resumeHlt s).diags = s.diags := rfl
@[simp] theorem resumeHlt_params : (resumeHlt s).params = s.params := rfl
@[simp] theorem resumeHlt_host : (resumeHlt s).host = s.host := rfl
@[simp] theorem resumeHlt_drawn : (resumeHlt s).drawn = s.drawn := rfl

end Sys2Proof.Machine
end

