-- ==== Sys2Proof/Laws/Ops.lean ====
section
/-! SUPPORT. For each shared operation, what it can do, said once: if it answers a next state, then one of
these cases holds. And the operation's answer when its check passes. -/

namespace Sys2Proof.Machine

/-! ### Register operands -/

theorem regOfByte_isSome : ∀ b : Byte, (regOfByte b).isSome = decide (b.toNat ≤ 7) := by decide

/-- Operand bytes 0 to 7 name a register (10_state R21). -/
theorem exists_regOfByte {b : Byte} (h : b.toNat ≤ 7) : ∃ r, regOfByte b = some r := by
  rw [← Option.isSome_iff_exists, regOfByte_isSome]
  simpa using h

theorem regOfByte_eq_none {b : Byte} : regOfByte b = none ↔ 7 < b.toNat := by
  rw [← Option.isNone_iff_eq_none, ← Option.not_isSome, regOfByte_isSome]
  simp

theorem withReg_some {s : State} {k : Nat} {b : Byte} {f : Reg → Result} {r : Reg} (h : regOfByte b = some r) :
    withReg s k b f = f r := by
  simp [withReg, h]

theorem withReg_none {s : State} {k : Nat} {b : Byte} {f : Reg → Result} (h : regOfByte b = none) :
    withReg s k b f = .next (enterFault (.invalidRegisterIndex b (s.pc + k)) s) := by
  simp [withReg, h, raiseFault]

/-- The register check passes a register on, or takes InvalidRegisterIndex. -/
theorem withReg_next {s t : State} {k : Nat} {b : Byte} {f : Reg → Result} (h : withReg s k b f = .next t) :
    (∃ r, regOfByte b = some r ∧ f r = .next t) ∨
      (regOfByte b = none ∧ t = enterFault (.invalidRegisterIndex b (s.pc + k)) s) := by
  cases hb : regOfByte b with
  | some r => exact .inl ⟨r, rfl, by rwa [withReg_some hb] at h⟩
  | none =>
    rw [withReg_none hb] at h
    exact .inr ⟨rfl, by injection h with h; exact h.symm⟩

/-! ### Memory addresses -/

theorem inMemory_iff {size : Nat} {a : Int} : inMemory size a = true ↔ 0 ≤ a ∧ a < (size : Int) := by
  simp [inMemory]

theorem inMemory_toNat {size : Nat} {a : Int} (h : inMemory size a = true) : a.toNat < size := by
  rw [inMemory_iff] at h
  omega

theorem withMem_in {s : State} {a : Int} {f : Nat → Result} (h : inMemory s.params.memSize a = true) :
    withMem s a f = f a.toNat := by
  simp [withMem, h]

theorem withMem_out {s : State} {a : Int} {f : Nat → Result} (h : inMemory s.params.memSize a = false) :
    withMem s a f = .next (enterFault (.memoryAddressOutOfBounds a) s) := by
  simp [withMem, h, raiseFault]

/-- The Memory check passes the address on, or takes MemoryAddressOutOfBounds. -/
theorem withMem_next {s t : State} {a : Int} {f : Nat → Result} (h : withMem s a f = .next t) :
    (inMemory s.params.memSize a = true ∧ f a.toNat = .next t) ∨
      (inMemory s.params.memSize a = false ∧ t = enterFault (.memoryAddressOutOfBounds a) s) := by
  cases ha : inMemory s.params.memSize a with
  | true => exact .inl ⟨rfl, by rwa [withMem_in ha] at h⟩
  | false =>
    rw [withMem_out ha] at h
    exact .inr ⟨rfl, by injection h with h; exact h.symm⟩

/-- No 16-bit address is out of range (40_data_movement R111). -/
theorem absolute_lt {p : Params} (hp : p.wf = true) (addr : U16) : absolute addr < p.memSize := by
  have h := addr.isLt
  have hm := (Params.wf_iff.1 hp).1
  simp only [absolute]
  omega

/-- No register-indexed address is out of range (40_data_movement R120). -/
theorem indexed_lt {s : State} (hp : s.params.wf = true) (base : U16) (ri : Reg) :
    indexed s base ri < s.params.memSize := by
  have h1 := base.isLt
  have h2 := (s.reg ri).isLt
  have hm := (Params.wf_iff.1 hp).1
  simp only [indexed]
  omega

/-! ### Drive addresses -/

theorem withDrive_in {s : State} {d : U32} {r : Result} (h : d.toNat < s.drive.len) : withDrive s d r = r := by
  simp [withDrive, h]

theorem withDrive_out {s : State} {d : U32} {r : Result} (h : s.drive.len ≤ d.toNat) :
    withDrive s d r = .next (enterFault (.driveAddressOutOfBounds d.toNat) s) := by
  simp [withDrive, Nat.not_lt.mpr h, raiseFault]

/-- The Drive check goes on, or takes DriveAddressOutOfBounds. -/
theorem withDrive_next {s t : State} {d : U32} {r : Result} (h : withDrive s d r = .next t) :
    (d.toNat < s.drive.len ∧ r = .next t) ∨
      (s.drive.len ≤ d.toNat ∧ t = enterFault (.driveAddressOutOfBounds d.toNat) s) := by
  by_cases hd : d.toNat < s.drive.len
  · exact .inl ⟨hd, by rwa [withDrive_in hd] at h⟩
  · rw [withDrive_out (Nat.not_lt.mp hd)] at h
    exact .inr ⟨Nat.not_lt.mp hd, by injection h with h; exact h.symm⟩

/-- The block check goes on with both ranges inside, or takes the fault of the first that is not. -/
theorem withBlock_next {s t : State} {d : U32} {m : U24} {n : U16} {r : Result}
    (h : withBlock s d m n r = .next t) :
    (d.toNat + n.toNat ≤ s.drive.len ∧ m.toNat + n.toNat ≤ s.params.memSize ∧ r = .next t) ∨
      (s.drive.len < d.toNat + n.toNat ∧
        t = enterFault (.driveAddressOutOfBounds (max d.toNat s.drive.len)) s) ∨
      (d.toNat + n.toNat ≤ s.drive.len ∧ s.params.memSize < m.toNat + n.toNat ∧
        t = enterFault (.memoryAddressOutOfBounds (max m.toNat s.params.memSize : Nat)) s) := by
  unfold withBlock at h
  split at h
  · exact .inr (.inl ⟨‹_›, by injection h with h; exact h.symm⟩)
  · split at h
    · exact .inr (.inr ⟨by omega, ‹_›, by injection h with h; exact h.symm⟩)
    · exact .inl ⟨by omega, by omega, h⟩

/-! ### Ends of an instruction -/

theorem retire_next {s t : State} {len : Nat} (h : retire len s = .next t) : t = { s with pc := s.pc + len } := by
  injection h with h
  exact h.symm

theorem jumpTo_next {s t : State} {target : Int} (h : jumpTo target s = .next t) :
    t = { s with pc := target } := by
  injection h with h
  exact h.symm

theorem raiseFault_next {s t : State} {f : EngineFault} (h : raiseFault f s = .next t) : t = enterFault f s := by
  injection h with h
  exact h.symm

/-! ### The value stack -/

/-- A push stores below the stack pointer and lowers it, or takes the fault of that address. -/
theorem pushByte_next {s t : State} {v : Byte} {f : State → Result} (h : pushByte s v f = .next t) :
    (inMemory s.params.memSize (s.sp - 1) = true ∧ f { s.setByte (s.sp - 1).toNat v with sp := s.sp - 1 } = .next t) ∨
      (inMemory s.params.memSize (s.sp - 1) = false ∧ t = enterFault (.memoryAddressOutOfBounds (s.sp - 1)) s) :=
  withMem_next h

/-- A pop reads at the stack pointer and raises it, or takes the fault of that address. -/
theorem popByte_next {s t : State} {f : Byte → State → Result} (h : popByte s f = .next t) :
    (inMemory s.params.memSize s.sp = true ∧ f (s.byte s.sp.toNat) { s with sp := s.sp + 1 } = .next t) ∨
      (inMemory s.params.memSize s.sp = false ∧ t = enterFault (.memoryAddressOutOfBounds s.sp) s) :=
  withMem_next h

/-! ### FunctionTable and calls -/

theorem lookupFunction_defineFunction (ft : FunctionTable) (id j : Nat) (target : Int) :
    lookupFunction (defineFunction ft id target) j = if j = id then some target else lookupFunction ft j := by
  induction ft with
  | nil => simp [defineFunction, lookupFunction]
  | cons c rest ih =>
    obtain ⟨k, u⟩ := c
    by_cases h1 : id < k
    · simp [defineFunction, h1, lookupFunction]
    · by_cases h2 : id = k
      · subst h2
        by_cases hj : j = id <;> simp [defineFunction, lookupFunction, hj]
      · by_cases hjk : j = k
        · subst hjk
          simp [defineFunction, h1, h2, lookupFunction, Ne.symm h2]
        · simp [defineFunction, h1, h2, lookupFunction, hjk, ih]

theorem idsWithin_cons {lo k : Nat} {u : Int} {rest : FunctionTable} :
    idsWithin lo ((k, u) :: rest) = true ↔ lo ≤ k ∧ k < 65536 ∧ idsWithin (k + 1) rest = true := by
  simp [idsWithin, and_assoc]

/-- Defining a 16-bit id keeps the table's canonical form. -/
theorem idsWithin_defineFunction {lo id : Nat} {ft : FunctionTable} (target : Int) (hlo : lo ≤ id)
    (hid : id < 65536) (h : idsWithin lo ft = true) : idsWithin lo (defineFunction ft id target) = true := by
  induction ft generalizing lo with
  | nil => simp [defineFunction, idsWithin, hlo, hid]
  | cons c rest ih =>
    obtain ⟨k, u⟩ := c
    rw [idsWithin_cons] at h
    obtain ⟨h1, h2, h3⟩ := h
    by_cases hk : id < k
    · rw [defineFunction, if_pos hk, idsWithin_cons, idsWithin_cons]
      exact ⟨hlo, hid, by omega, h2, h3⟩
    · by_cases he : id = k
      · rw [defineFunction, if_neg hk, if_pos he, idsWithin_cons]
        subst he
        exact ⟨hlo, hid, h3⟩
      · rw [defineFunction, if_neg hk, if_neg he, idsWithin_cons]
        exact ⟨h1, h2, ih (by omega) h3⟩

theorem mem_defineFunction {ft : FunctionTable} {id : Nat} {target : Int} {p : Nat × Int}
    (h : p ∈ defineFunction ft id target) : p = (id, target) ∨ p ∈ ft := by
  induction ft with
  | nil => simpa [defineFunction] using h
  | cons c rest ih =>
    obtain ⟨k, u⟩ := c
    unfold defineFunction at h
    split at h
    · simpa using h
    · split at h
      · rcases List.mem_cons.mp h with h | h
        · exact .inl h
        · exact .inr (List.mem_cons_of_mem _ h)
      · rcases List.mem_cons.mp h with h | h
        · exact .inr (h ▸ List.mem_cons_self)
        · exact (ih h).imp_right (List.mem_cons_of_mem _)

theorem mem_of_lookupFunction {ft : FunctionTable} {id : Nat} {target : Int}
    (h : lookupFunction ft id = some target) : (id, target) ∈ ft := by
  induction ft with
  | nil => simp [lookupFunction] at h
  | cons c rest ih =>
    obtain ⟨k, u⟩ := c
    unfold lookupFunction at h
    split at h
    · simp_all
    · exact List.mem_cons_of_mem _ (ih h)

/-- A call goes to the entry with a record pushed, or takes UnresolvedFunctionReference. -/
theorem callFunction_next {s t : State} {id : U16} {len : Nat} (h : callFunction s id len = .next t) :
    (∃ target, lookupFunction s.ft id.toNat = some target ∧
        t = { s with cs := ⟨s.pc, s.pc + len⟩ :: s.cs, pc := target }) ∨
      (lookupFunction s.ft id.toNat = none ∧ t = enterFault (.unresolvedFunctionReference id) s) := by
  unfold callFunction at h
  split at h
  · exact .inr ⟨‹_›, raiseFault_next h⟩
  · exact .inl ⟨_, ‹_›, jumpTo_next h⟩

/-! ### The scan of FNC -/

theorem cellAt_eq_zero_of_lt {lo hi b : Nat} {m : Cells} (hm : cellsWithin lo hi m = true) (h : b < lo) :
    cellAt m b = 0#8 := by
  induction m generalizing lo with
  | nil => rfl
  | cons c rest ih =>
    obtain ⟨k, w⟩ := c
    rw [cellsWithin_cons] at hm
    have hne : b ≠ k := by omega
    simp only [cellAt, if_neg hne]
    exact ih hm.2.2.2 (by omega)

theorem cellAt_eq_zero_of_ge {lo hi b : Nat} {m : Cells} (hm : cellsWithin lo hi m = true) (h : hi ≤ b) :
    cellAt m b = 0#8 := by
  induction m generalizing lo with
  | nil => rfl
  | cons c rest ih =>
    obtain ⟨k, w⟩ := c
    rw [cellsWithin_cons] at hm
    have hne : b ≠ k := by omega
    simp only [cellAt, if_neg hne]
    exact ih hm.2.2.2

/-- A scan that finds something finds the first address from `k` on that holds RET_BYTE. -/
theorem scanForRet_some {lo size : Nat} {ret : Byte} {m : Cells} {k j : Nat} (hr : ret ≠ 0#8)
    (hm : cellsWithin lo size m = true) (h : scanForRet size ret m k = some j) :
    k ≤ j ∧ j < size ∧ cellAt m j = ret ∧ ∀ a, k ≤ a → a < j → cellAt m a ≠ ret := by
  induction m generalizing lo with
  | nil => simp [scanForRet] at h
  | cons c rest ih =>
    obtain ⟨b, v⟩ := c
    rw [cellsWithin_cons] at hm
    obtain ⟨h1, h2, h3, h4⟩ := hm
    by_cases hc : k ≤ b ∧ v = ret
    · have hj : j = b := by
        simp [scanForRet, hc.1, h2, hc.2] at h
        exact h.symm
      subst hj
      refine ⟨hc.1, h2, by simp [cellAt, hc.2], fun a _ ha => ?_⟩
      have hne : a ≠ j := by omega
      simp only [cellAt, if_neg hne]
      rw [cellAt_eq_zero_of_lt h4 (by omega)]
      exact hr.symm
    · have hrest : scanForRet size ret rest k = some j := by
        have hp : (decide (k ≤ b) && decide (b < size) && v == ret) = false := by
          by_cases hk : k ≤ b
          · have hv : v ≠ ret := fun e => hc ⟨hk, e⟩
            simp [hv]
          · simp [hk]
        simpa [scanForRet, List.find?_cons, hp] using h
      obtain ⟨i1, i2, i3, i4⟩ := ih h4 hrest
      have hbj : b < j := by
        by_contra hle
        rw [cellAt_eq_zero_of_lt h4 (by omega)] at i3
        exact hr i3.symm
      have hne : j ≠ b := by omega
      refine ⟨i1, i2, by simpa [cellAt, hne] using i3, fun a ha1 ha2 => ?_⟩
      by_cases hab : a = b
      · subst hab
        simp only [cellAt, if_pos]
        exact fun e => hc ⟨ha1, e⟩
      · simp only [cellAt, if_neg hab]
        exact i4 a ha1 ha2

/-- A scan that finds nothing: no address from `k` to the end of Memory holds RET_BYTE. -/
theorem scanForRet_none {lo size : Nat} {ret : Byte} {m : Cells} {k : Nat} (hr : ret ≠ 0#8)
    (hm : cellsWithin lo size m = true) (h : scanForRet size ret m k = none) (a : Nat) (ha : k ≤ a) :
    cellAt m a ≠ ret := by
  induction m generalizing lo with
  | nil => exact hr.symm
  | cons c rest ih =>
    obtain ⟨b, v⟩ := c
    rw [cellsWithin_cons] at hm
    obtain ⟨h1, h2, h3, h4⟩ := hm
    simp only [scanForRet, List.find?_cons, Option.map_eq_none_iff] at h
    split at h
    · simp at h
    · rename_i hp
      by_cases hab : a = b
      · subst hab
        simp only [cellAt, if_pos]
        simpa [ha, h2] using hp
      · simp only [cellAt, if_neg hab]
        exact ih h4 (by simpa [scanForRet] using h)

/-! ### Persistence -/

/-- Serving begins the oldest queued write, or changes nothing. -/
theorem Persist.serve_cases (p : Persist) :
    (∃ r rest, p.serving = true ∧ p.writing = none ∧ p.queue = r :: rest ∧
        p.serve = { p with writing := some r, queue := rest }) ∨ p.serve = p := by
  unfold Persist.serve
  split
  · exact .inl ⟨_, _, ‹_›, ‹_›, ‹_›, rfl⟩
  · exact .inr rfl

end Sys2Proof.Machine
end

