-- ==== Sys2Proof/Laws/PerInstr.lean ====
section
/-! SUPPORT. The families of statements made of every instruction, one lemma per constructor. -/

namespace Sys2Proof.Laws

/-- Under every opcode map an instruction's encoding has the length that its row gives it (30_encoding R89,
R90). -/
def EncodedLength.Statement (i : Instr) : Prop := ∀ map : OpcodeMap, (encode map i).length = i.len

theorem EncodedLength.ldv (rd imm : Byte) : EncodedLength.Statement (.ldv rd imm) := fun _ => rfl

theorem EncodedLength.lda (rd : Byte) (addr : U16) : EncodedLength.Statement (.lda rd addr) := fun _ => rfl

theorem EncodedLength.sta (rs : Byte) (addr : U16) : EncodedLength.Statement (.sta rs addr) := fun _ => rfl

theorem EncodedLength.mov (rd rs : Byte) : EncodedLength.Statement (.mov rd rs) := fun _ => rfl

theorem EncodedLength.lvz (rd imm rg : Byte) : EncodedLength.Statement (.lvz rd imm rg) := fun _ => rfl

theorem EncodedLength.lvnz (rd imm rg : Byte) : EncodedLength.Statement (.lvnz rd imm rg) := fun _ => rfl

theorem EncodedLength.psh (rs : Byte) : EncodedLength.Statement (.psh rs) := fun _ => rfl

theorem EncodedLength.psv (imm : Byte) : EncodedLength.Statement (.psv imm) := fun _ => rfl

theorem EncodedLength.pop (rd : Byte) : EncodedLength.Statement (.pop rd) := fun _ => rfl

theorem EncodedLength.popm (addr : U16) : EncodedLength.Statement (.popm addr) := fun _ => rfl

theorem EncodedLength.ldo (rd : Byte) (base : U16) (ri : Byte) : EncodedLength.Statement (.ldo rd base ri) := fun _ => rfl

theorem EncodedLength.sto (rs : Byte) (base : U16) (ri : Byte) : EncodedLength.Statement (.sto rs base ri) := fun _ => rfl

theorem EncodedLength.sva (imm : Byte) (addr : U16) : EncodedLength.Statement (.sva imm addr) := fun _ => rfl

theorem EncodedLength.add (ra rb : Byte) : EncodedLength.Statement (.add ra rb) := fun _ => rfl

theorem EncodedLength.addv (ra imm : Byte) : EncodedLength.Statement (.addv ra imm) := fun _ => rfl

theorem EncodedLength.sub (ra rb : Byte) : EncodedLength.Statement (.sub ra rb) := fun _ => rfl

theorem EncodedLength.subv (ra imm : Byte) : EncodedLength.Statement (.subv ra imm) := fun _ => rfl

theorem EncodedLength.add3 (ra rb rd : Byte) : EncodedLength.Statement (.add3 ra rb rd) := fun _ => rfl

theorem EncodedLength.addv3 (ra imm rd : Byte) : EncodedLength.Statement (.addv3 ra imm rd) := fun _ => rfl

theorem EncodedLength.sub3 (ra rb rd : Byte) : EncodedLength.Statement (.sub3 ra rb rd) := fun _ => rfl

theorem EncodedLength.subv3 (ra imm rd : Byte) : EncodedLength.Statement (.subv3 ra imm rd) := fun _ => rfl

theorem EncodedLength.inc (r : Byte) : EncodedLength.Statement (.inc r) := fun _ => rfl

theorem EncodedLength.dec (r : Byte) : EncodedLength.Statement (.dec r) := fun _ => rfl

theorem EncodedLength.adc (r : Byte) : EncodedLength.Statement (.adc r) := fun _ => rfl

theorem EncodedLength.sbc (r : Byte) : EncodedLength.Statement (.sbc r) := fun _ => rfl

theorem EncodedLength.ccf : EncodedLength.Statement .ccf := fun _ => rfl

theorem EncodedLength.scf : EncodedLength.Statement .scf := fun _ => rfl

theorem EncodedLength.jmp (d : Byte) : EncodedLength.Statement (.jmp d) := fun _ => rfl

theorem EncodedLength.jpz (d rg : Byte) : EncodedLength.Statement (.jpz d rg) := fun _ => rfl

theorem EncodedLength.jpnz (d rg : Byte) : EncodedLength.Statement (.jpnz d rg) := fun _ => rfl

theorem EncodedLength.fnc (id : U16) : EncodedLength.Statement (.fnc id) := fun _ => rfl

theorem EncodedLength.ret : EncodedLength.Statement .ret := fun _ => rfl

theorem EncodedLength.cal (id : U16) : EncodedLength.Statement (.cal id) := fun _ => rfl

theorem EncodedLength.clz (id : U16) (rg : Byte) : EncodedLength.Statement (.clz id rg) := fun _ => rfl

theorem EncodedLength.clnz (id : U16) (rg : Byte) : EncodedLength.Statement (.clnz id rg) := fun _ => rfl

theorem EncodedLength.mlt (ra rb rh rl : Byte) : EncodedLength.Statement (.mlt ra rb rh rl) := fun _ => rfl

theorem EncodedLength.div (ah al bh bl qh ql : Byte) : EncodedLength.Statement (.div ah al bh bl qh ql) := fun _ => rfl

theorem EncodedLength.std (rs : Byte) (d : U32) : EncodedLength.Statement (.std rs d) := fun _ => rfl

theorem EncodedLength.svd (imm : Byte) (d : U32) : EncodedLength.Statement (.svd imm d) := fun _ => rfl

theorem EncodedLength.ldtm (d : U32) (m : U24) : EncodedLength.Statement (.ldtm d m) := fun _ => rfl

theorem EncodedLength.ldml (d : U32) (m : U24) (n : U16) : EncodedLength.Statement (.ldml d m n) := fun _ => rfl

theorem EncodedLength.smdl (m : U24) (d : U32) (n : U16) : EncodedLength.Statement (.smdl m d n) := fun _ => rfl

theorem EncodedLength.txr (rg : Byte) (x y size : U16) (color : Rgba) : EncodedLength.Statement (.txr rg x y size color) := fun _ => rfl

theorem EncodedLength.txl (x y size : U16) (color : Rgba) (glyphs : List Byte) : EncodedLength.Statement (.txl x y size color glyphs) := by
  simp [EncodedLength.Statement, encode, Instr.operandBytes, Instr.len, bytes16, bytesRgba, bytesGlyphs]
  omega

theorem EncodedLength.rct (x y w h : U16) (color : Rgba) : EncodedLength.Statement (.rct x y w h color) := fun _ => rfl

theorem EncodedLength.crc (x y rad : U16) (color : Rgba) : EncodedLength.Statement (.crc x y rad color) := fun _ => rfl

theorem EncodedLength.cls : EncodedLength.Statement .cls := fun _ => rfl

theorem EncodedLength.lne (x1 y1 x2 y2 : U16) (color : Rgba) : EncodedLength.Statement (.lne x1 y1 x2 y2 color) := fun _ => rfl

theorem EncodedLength.mtxr (rg : Byte) (x y px py size : U16) (color : Rgba) : EncodedLength.Statement (.mtxr rg x y px py size color) := fun _ => rfl

theorem EncodedLength.mtxl (x y px py size : U16) (color : Rgba) (glyphs : List Byte) : EncodedLength.Statement (.mtxl x y px py size color glyphs) := by
  simp [EncodedLength.Statement, encode, Instr.operandBytes, Instr.len, bytes16, bytesRgba, bytesGlyphs]
  omega

theorem EncodedLength.mrct (x y px py w h : U16) (color : Rgba) : EncodedLength.Statement (.mrct x y px py w h color) := fun _ => rfl

theorem EncodedLength.mcrc (x y px py rad : U16) (color : Rgba) : EncodedLength.Statement (.mcrc x y px py rad color) := fun _ => rfl

theorem EncodedLength.mlne (x1 y1 x2 y2 px py : U16) (color : Rgba) : EncodedLength.Statement (.mlne x1 y1 x2 y2 px py color) := fun _ => rfl

theorem EncodedLength.ext (code : Byte) : EncodedLength.Statement (.ext code) := fun _ => rfl

theorem EncodedLength.hlt : EncodedLength.Statement .hlt := fun _ => rfl

theorem EncodedLength.unassigned (op : Byte) : EncodedLength.Statement (.unassigned op) := fun _ => rfl

end Sys2Proof.Laws
end

