-- ==== Sys2Proof/Tests/Slice0.lean ====
section
/-! SUPPORT. Tests of one word or one step each, expected results from the spec's 30_encoding R90 and
95_test_vectors; and, for every statement with hypotheses, a case that meets them. -/

namespace Sys2Proof.Tests

open Sys2Proof.Machine

set_option Elab.async false

/-! ## Well-formedness: each check refuses an ill-formed term -/

theorem test_wf_register_above_7 : (Instr.ldv 8 1).wf = false := by decide
theorem test_wf_second_register_above_7 : (Instr.mov 7 255).wf = false := by decide
theorem test_wf_glyphs_above_255 : (Instr.txl 0 0 0 ⟨0, 0, 0, 0⟩ (List.replicate 256 0)).wf = false := by
  decide +kernel
theorem test_wf_indirect_glyphs_above_255 :
    (Instr.mtxl 0 0 0 0 0 ⟨0, 0, 0, 0⟩ (List.replicate 256 0)).wf = false := by decide +kernel
theorem test_wf_assigned_opcode : (Instr.unassigned 0xFE).wf = false := by decide
theorem test_wf_accepts : (Instr.ldv 7 255).wf = true ∧ (Instr.unassigned 0xF0).wf = true ∧
    (Instr.txl 0 0 0 ⟨0, 0, 0, 0⟩ (List.replicate 255 0)).wf = true := by decide +kernel

/-! ## Decoding: one word of each constructor, written from the table of 30_encoding R90 -/

theorem test_decode_ldv : decode standardMap [0x00, 0x00, 0x41] = .ok (.ldv 0 65, []) := by decide
theorem test_decode_lda : decode standardMap [0x01, 0x01, 0x01, 0x00] = .ok (.lda 1 256, []) := by decide
theorem test_decode_sta : decode standardMap [0x02, 0x02, 0x00, 0x10] = .ok (.sta 2 16, []) := by decide
theorem test_decode_mov : decode standardMap [0x03, 0x03, 0x01] = .ok (.mov 3 1, []) := by decide
theorem test_decode_lvz : decode standardMap [0x04, 0x01, 0x09, 0x02] = .ok (.lvz 1 9 2, []) := by decide
theorem test_decode_lvnz : decode standardMap [0x05, 0x01, 0x09, 0x02] = .ok (.lvnz 1 9 2, []) := by decide
theorem test_decode_psh : decode standardMap [0x06, 0x03] = .ok (.psh 3, []) := by decide
theorem test_decode_psv : decode standardMap [0x07, 0xC8] = .ok (.psv 200, []) := by decide
theorem test_decode_pop : decode standardMap [0x08, 0x04] = .ok (.pop 4, []) := by decide
theorem test_decode_popm : decode standardMap [0x09, 0x01, 0x00] = .ok (.popm 256, []) := by decide
theorem test_decode_ldo :
    decode standardMap [0x0A, 0x00, 0x01, 0x00, 0x01] =
      .ok (.ldo 0 256 1, []) := by decide
theorem test_decode_sto :
    decode standardMap [0x0B, 0x00, 0x01, 0x00, 0x01] =
      .ok (.sto 0 256 1, []) := by decide
theorem test_decode_sva : decode standardMap [0x0C, 0x2A, 0x02, 0x00] = .ok (.sva 42 512, []) := by decide
theorem test_decode_add : decode standardMap [0x10, 0x00, 0x01] = .ok (.add 0 1, []) := by decide
theorem test_decode_addv : decode standardMap [0x11, 0x00, 0x05] = .ok (.addv 0 5, []) := by decide
theorem test_decode_sub : decode standardMap [0x12, 0x00, 0x01] = .ok (.sub 0 1, []) := by decide
theorem test_decode_subv : decode standardMap [0x13, 0x05, 0x21] = .ok (.subv 5 33, []) := by decide
theorem test_decode_add3 : decode standardMap [0x14, 0x00, 0x01, 0x02] = .ok (.add3 0 1 2, []) := by decide
theorem test_decode_addv3 : decode standardMap [0x15, 0x00, 0x04, 0x05] = .ok (.addv3 0 4 5, []) := by decide
theorem test_decode_sub3 : decode standardMap [0x16, 0x00, 0x01, 0x02] = .ok (.sub3 0 1 2, []) := by decide
theorem test_decode_subv3 : decode standardMap [0x17, 0x00, 0x09, 0x01] = .ok (.subv3 0 9 1, []) := by decide
theorem test_decode_inc : decode standardMap [0x18, 0x02] = .ok (.inc 2, []) := by decide
theorem test_decode_dec : decode standardMap [0x19, 0x03] = .ok (.dec 3, []) := by decide
theorem test_decode_adc : decode standardMap [0x1A, 0x03] = .ok (.adc 3, []) := by decide
theorem test_decode_sbc : decode standardMap [0x1B, 0x04] = .ok (.sbc 4, []) := by decide
theorem test_decode_ccf : decode standardMap [0x1C] = .ok (.ccf, []) := by decide
theorem test_decode_scf : decode standardMap [0x1D] = .ok (.scf, []) := by decide
theorem test_decode_jmp : decode standardMap [0x30, 0xFA] = .ok (.jmp 250, []) := by decide
theorem test_decode_jpz : decode standardMap [0x31, 0x0A, 0x05] = .ok (.jpz 10 5, []) := by decide
theorem test_decode_jpnz : decode standardMap [0x32, 0xFA, 0x06] = .ok (.jpnz 250 6, []) := by decide
theorem test_decode_fnc : decode standardMap [0x33, 0x01, 0x05] = .ok (.fnc 261, []) := by decide
theorem test_decode_ret : decode standardMap [0x34] = .ok (.ret, []) := by decide
theorem test_decode_cal : decode standardMap [0x35, 0x02, 0x09] = .ok (.cal 521, []) := by decide
theorem test_decode_clz : decode standardMap [0x36, 0x00, 0x07, 0x02] = .ok (.clz 7 2, []) := by decide
theorem test_decode_clnz : decode standardMap [0x37, 0x00, 0x07, 0x02] = .ok (.clnz 7 2, []) := by decide
theorem test_decode_mlt :
    decode standardMap [0x40, 0x00, 0x01, 0x02, 0x03] =
      .ok (.mlt 0 1 2 3, []) := by decide
theorem test_decode_div :
    decode standardMap [0x41, 0x00, 0x01, 0x02, 0x03, 0x04, 0x05] =
      .ok (.div 0 1 2 3 4 5, []) := by decide
theorem test_decode_std :
    decode standardMap [0x60, 0x01, 0x00, 0x02, 0x00, 0x03] =
      .ok (.std 1 131075, []) := by decide
theorem test_decode_svd :
    decode standardMap [0x61, 0x07, 0x00, 0x00, 0x00, 0x0F] =
      .ok (.svd 7 15, []) := by decide
theorem test_decode_ldtm :
    decode standardMap [0x62, 0x00, 0x00, 0x00, 0x03, 0x01, 0x02, 0x00] =
      .ok (.ldtm 3 66048, []) := by decide
theorem test_decode_ldml :
    decode standardMap [0x63, 0x00, 0x00, 0x00, 0x05, 0x00, 0x01, 0x00, 0x00, 0x03] =
      .ok (.ldml 5 256 3, []) := by decide
theorem test_decode_smdl :
    decode standardMap [0x64, 0x00, 0x01, 0x00, 0x00, 0x00, 0x00, 0x08, 0x00, 0x03] =
      .ok (.smdl 256 8 3, []) := by decide
theorem test_decode_txr :
    decode standardMap [0x80, 0x00, 0x00, 0x0A, 0x00, 0x14, 0x00, 0x08, 0xFF, 0x01, 0x02, 0x03] =
      .ok (.txr 0 10 20 8 ⟨255, 1, 2, 3⟩, []) := by decide
theorem test_decode_txl :
    decode standardMap [0x81, 0x00, 0x01, 0x00, 0x02, 0x00, 0x08, 0xFF, 0x00, 0x00, 0xFE, 0x02, 0x21, 0x22] =
      .ok (.txl 1 2 8 ⟨255, 0, 0, 254⟩ [33, 34], []) := by decide
theorem test_decode_rct :
    decode standardMap [0x82, 0x00, 0x01, 0x00, 0x02, 0x00, 0x03, 0x00, 0x04, 0x00, 0x00, 0x00, 0xFF] =
      .ok (.rct 1 2 3 4 ⟨0, 0, 0, 255⟩, []) := by decide
theorem test_decode_crc :
    decode standardMap [0x83, 0x00, 0x64, 0x00, 0x65, 0x00, 0x05, 0x00, 0xFF, 0x00, 0xFF] =
      .ok (.crc 100 101 5 ⟨0, 255, 0, 255⟩, []) := by decide
theorem test_decode_cls : decode standardMap [0x84] = .ok (.cls, []) := by decide
theorem test_decode_lne :
    decode standardMap [0x85, 0x00, 0x00, 0x00, 0x01, 0x00, 0x0A, 0x00, 0x0B, 0xFF, 0xFF, 0xFF, 0xFF] =
      .ok (.lne 0 1 10 11 ⟨255, 255, 255, 255⟩, []) := by decide
theorem test_decode_mtxr :
    decode standardMap [0x86, 0x00, 0x00, 0x0A, 0x00, 0x14, 0x01, 0x00, 0x01, 0x02, 0x00, 0x08, 0xFF, 0xFF, 0xFF, 0xFF] =
      .ok (.mtxr 0 10 20 256 258 8 ⟨255, 255, 255, 255⟩, []) := by decide
theorem test_decode_mtxl :
    decode standardMap [0x87, 0x00, 0x00, 0x00, 0x01, 0x01, 0x00, 0x01, 0x02, 0x00, 0x08, 0xFF, 0x00, 0x00, 0xFF, 0x01, 0x21] =
      .ok (.mtxl 0 1 256 258 8 ⟨255, 0, 0, 255⟩ [33], []) := by decide
theorem test_decode_mrct :
    decode standardMap [0x88, 0x00, 0x02, 0x00, 0x03, 0x01, 0x00, 0x01, 0x02, 0x00, 0x04, 0x00, 0x05, 0x00, 0x00, 0x00, 0xFF] =
      .ok (.mrct 2 3 256 258 4 5 ⟨0, 0, 0, 255⟩, []) := by decide
theorem test_decode_mcrc :
    decode standardMap [0x89, 0x00, 0x06, 0x00, 0x07, 0x01, 0x00, 0x01, 0x02, 0x00, 0x03, 0x00, 0x00, 0xFF, 0xFF] =
      .ok (.mcrc 6 7 256 258 3 ⟨0, 0, 255, 255⟩, []) := by decide
theorem test_decode_mlne :
    decode standardMap [0x8A, 0x00, 0x00, 0x00, 0x01, 0x00, 0x0A, 0x00, 0x0B, 0x01, 0x00, 0x01, 0x02, 0xFF, 0xFF, 0xFF, 0xFF] =
      .ok (.mlne 0 1 10 11 256 258 ⟨255, 255, 255, 255⟩, []) := by decide
theorem test_decode_ext : decode standardMap [0xFE, 0x03] = .ok (.ext 3, []) := by decide
theorem test_decode_hlt : decode standardMap [0xFF] = .ok (.hlt, []) := by decide
theorem test_decode_unassigned : decode standardMap [0x0D] = .ok (.unassigned 0x0D, []) := by decide

/-- R87 lists exactly the bytes that are no opcode of R90. -/
theorem test_unassigned_complement : ∀ op : Byte,
    isUnassigned op = !([0x00, 0x01, 0x02, 0x03, 0x04, 0x05, 0x06, 0x07, 0x08, 0x09, 0x0A, 0x0B, 0x0C,
      0x10, 0x11, 0x12, 0x13, 0x14, 0x15, 0x16, 0x17, 0x18, 0x19, 0x1A, 0x1B, 0x1C, 0x1D,
      0x30, 0x31, 0x32, 0x33, 0x34, 0x35, 0x36, 0x37, 0x40, 0x41, 0x60, 0x61, 0x62, 0x63, 0x64,
      0x80, 0x81, 0x82, 0x83, 0x84, 0x85, 0x86, 0x87, 0x88, 0x89, 0x8A, 0xFE, 0xFF] : List Byte).contains op := by
  decide
/-- Operands that are not there are refused by name. -/
theorem test_decode_short : decode standardMap [0x14, 0x00] = .error (.operandsMissing 0x14) := by decide
/-- The table's numbering: the opcode is the least significant byte of the word. -/
theorem test_table_word : decodeTableWord 24 0x410700 = some (.ldv 7 65) := by decide

/-- A legal opcode map but R90's: LDV and LDA, JMP and RET change their codes. -/
def swappedMap : OpcodeMap := [(0x01, .ldv), (0x00, .lda), (0x34, .jmp), (0x30, .ret)] ++ standardMap
theorem test_swapped_legal : swappedMap.wf = true := by decide +kernel
theorem test_swapped_decode : decode swappedMap [0x01, 0x07, 0x41] = .ok (.ldv 7 65, []) := by decide
theorem test_swapped_encode : encode swappedMap (.lda 1 256) = [0x00, 0x01, 0x01, 0x00] := by decide
/-- The checks on an opcode map: a code of two operations, an operation without a code, a code of another
family. -/
theorem test_map_refused : OpcodeMap.wf [(0x00, .ldv), (0x00, .lda)] = false ∧ OpcodeMap.wf [] = false ∧
    OpcodeMap.wf ([(0x10, .ldv), (0x00, .add)] ++ standardMap) = false := by decide +kernel
/-- The checks on the parameters: a Memory too small, a code base past it, a stack pointer past it. -/
theorem test_params_refused : { Params.standard with memSize := 65790, codeBase := 0, spReset := 0 }.wf = false ∧
    { Params.standard with codeBase := 524289 }.wf = false ∧
    { Params.standard with spReset := 524289 }.wf = false := by decide +kernel

/-! ## One step of each instruction, from 95_test_vectors unless marked -/

/-- These bytes at an address, and an engine cycle with this sample as the next event. -/
def sampled (smp : InputSample) (a : Nat) (bytes : List Byte) (s : State) : State :=
  { s with pc := a, mem := storeBytes s.mem a bytes, host := [.cycle smp] }

/-- These bytes at an address, and an engine cycle with a sample of zeros as the next event. -/
def placed (a : Nat) (bytes : List Byte) (s : State) : State := sampled ⟨0, 0, 0, 0, 0⟩ a bytes s

/-- These bytes at 65,536, in the state after reset. -/
def fresh (bytes : List Byte) : State := placed 65536 bytes State.reset

/-- The same, with r0 to r3 as given. -/
def withRegs (r0 r1 r2 r3 : Byte) (bytes : List Byte) : State :=
  { fresh bytes with regs := ⟨r0, r1, r2, r3, 0, 0, 0, 0⟩ }

/-- The same as `fresh`, with a Drive of 16 bytes holding these. -/
def withDrive16 (front bytes : List Byte) : State := { fresh bytes with drive := ⟨16, cellsOfBytes 0 front⟩ }

/-- The same as `fresh`, with these bytes in Memory at 256. -/
def withData (data bytes : List Byte) : State :=
  placed 65536 bytes { State.reset with mem := storeBytes [] 256 data }

/-- What is seen of the next state; none if there is none. -/
def seen {α : Type} (f : State → α) (s : State) : Option α :=
  match step s with
  | .next t => some (f t)
  | .fault _ => none
  | .refused _ => none

/-- The fault of the next state. -/
def faulted (t : State) : Option (EngineFault × Int × Option Byte) :=
  match t.status with
  | .faulted r => some (r.kind, r.pc, r.opcode)
  | .running | .waitingFrame | .checkpointing | .terminated => none

/-- S5. -/
theorem test_ldv :
    seen (fun t => (t.regs.r0, t.pc))
      (fresh [0x00, 0x00, 0x41]) =
      some (65, 65539) := by decide +kernel
/-- DM2. -/
theorem test_lda_sample :
    seen (fun t => t.regs.r0)
      (sampled ⟨33, 0, 0, 0, 0⟩ 65536 [0x01, 0x00, 0xFF, 0xF7] State.reset) =
      some 33 := by decide +kernel
/-- R112. -/
theorem test_sta :
    seen (fun t => (t.byte 16, t.pc))
      (withRegs 0 0 9 0 [0x02, 0x02, 0x00, 0x10]) =
      some (9, 65540) := by decide +kernel
/-- R113. -/
theorem test_mov :
    seen (fun t => (t.regs.r3, t.regs.r1))
      (withRegs 0 5 0 0 [0x03, 0x03, 0x01]) =
      some (5, 5) := by decide +kernel
/-- DM5. -/
theorem test_lvz_alias :
    seen (fun t => (t.regs.r1, t.pc))
      (withRegs 3 0 0 0 [0x04, 0x01, 0x09, 0x01]) =
      some (9, 65540) := by decide +kernel
/-- DM6. -/
theorem test_lvz_untaken :
    seen (fun t => (t.regs.r1, t.pc))
      (withRegs 3 5 0 0 [0x04, 0x01, 0x09, 0x01]) =
      some (5, 65540) := by decide +kernel
/-- R115. -/
theorem test_lvnz :
    seen (fun t => t.regs.r1)
      (withRegs 0 0 3 0 [0x05, 0x01, 0x09, 0x02]) =
      some 9 := by decide +kernel
/-- DM7. -/
theorem test_lvnz_guard_fault :
    seen (fun t => faulted t)
      (fresh [0x05, 0x00, 0x09, 0x08]) =
      some (some (.invalidRegisterIndex 8 65539, 65536, some 5)) := by decide +kernel
/-- R116. -/
theorem test_psh :
    seen (fun t => (t.sp, t.byte 524287))
      (withRegs 11 0 0 0 [0x06, 0x00]) =
      some (524287, 11) := by decide +kernel
/-- DM10. -/
theorem test_psh_full :
    seen (fun t => (faulted t, t.sp))
      ({ fresh [0x06, 0x00] with sp := 0 }) =
      some (some (.memoryAddressOutOfBounds (-1), 65536, some 6), 0) := by decide +kernel
/-- R117. -/
theorem test_psv :
    seen (fun t => (t.sp, t.byte 524287))
      (fresh [0x07, 0xC8]) =
      some (524287, 200) := by decide +kernel
/-- R118. -/
theorem test_pop :
    seen (fun t => (t.regs.r4, t.sp, t.byte 524287))
      ({ fresh [0x08, 0x04] with sp := 524287, mem := storeBytes (fresh [0x08, 0x04]).mem 524287 [11] }) =
      some (11, 524288, 11) := by decide +kernel
/-- DM9. -/
theorem test_pop_empty :
    seen (fun t => faulted t)
      (fresh [0x08, 0x00]) =
      some (some (.memoryAddressOutOfBounds 524288, 65536, some 8)) := by decide +kernel
/-- R119. -/
theorem test_popm :
    seen (fun t => (t.byte 256, t.sp))
      ({ fresh [0x09, 0x01, 0x00] with sp := 524287, mem := storeBytes (fresh [0x09, 0x01, 0x00]).mem 524287 [11] }) =
      some (11, 524288) := by decide +kernel
/-- DM12, with 77 at 65,790. -/
theorem test_ldo_no_wrap :
    seen (fun t => t.regs.r0)
      (placed 65536 [0x0A, 0x00, 0xFF, 0xFF, 0x01] { State.reset with regs := ⟨0, 255, 0, 0, 0, 0, 0, 0⟩, mem := [(65790, 77)] }) =
      some 77 := by decide +kernel
/-- DM13. -/
theorem test_sto_own_operand :
    seen (fun t => (t.byte 65540, t.pc))
      (withRegs 0x1C 5 0 0 [0x0B, 0x00, 0xFF, 0xFF, 0x01]) =
      some (0x1C, 65541) := by decide +kernel
/-- DM14. -/
theorem test_sva : seen (fun t => t.byte 512) (fresh [0x0C, 0x2A, 0x02, 0x00]) = some 42 := by decide +kernel
/-- AR1. -/
theorem test_add :
    seen (fun t => (t.regs.r0, t.carry))
      (withRegs 200 100 0 0 [0x10, 0x00, 0x01]) =
      some (44, true) := by decide +kernel
/-- AR2. -/
theorem test_add_overwrite :
    seen (fun t => (t.regs.r0, t.carry))
      ({ withRegs 1 2 0 0 [0x10, 0x00, 0x01] with carry := true, params := { Params.standard with carryPolicy := .overwrite } }) =
      some (3, false) := by decide +kernel
/-- AR3. -/
theorem test_addv :
    seen (fun t => (t.regs.r0, t.carry))
      (withRegs 1 0 0 0 [0x11, 0x00, 0xFF]) =
      some (0, true) := by decide +kernel
/-- AR4. -/
theorem test_sub :
    seen (fun t => (t.regs.r0, t.carry))
      (withRegs 5 7 0 0 [0x12, 0x00, 0x01]) =
      some (254, true) := by decide +kernel
/-- AR5. -/
theorem test_sub_unsigned :
    seen (fun t => (t.regs.r0, t.carry))
      (withRegs 200 100 0 0 [0x12, 0x00, 0x01]) =
      some (100, false) := by decide +kernel
/-- AR6. -/
theorem test_subv :
    seen (fun t => (t.regs.r0, t.carry))
      (withRegs 9 0 0 0 [0x13, 0x00, 0x09]) =
      some (0, false) := by decide +kernel
/-- R146. -/
theorem test_add3 :
    seen (fun t => (t.regs.r0, t.regs.r1, t.regs.r2, t.carry))
      (withRegs 255 1 7 0 [0x14, 0x00, 0x01, 0x02]) =
      some (255, 1, 0, true) := by decide +kernel
/-- AR8. -/
theorem test_addv3 :
    seen (fun t => (t.regs.r3, t.regs.r0, t.carry))
      (withRegs 10 0 0 0 [0x15, 0x00, 0x05, 0x03]) =
      some (15, 10, false) := by decide +kernel
/-- AR9. -/
theorem test_sub3 :
    seen (fun t => (t.regs.r2, t.regs.r0, t.carry))
      (withRegs 3 4 0 0 [0x16, 0x00, 0x01, 0x02]) =
      some (255, 3, true) := by decide +kernel
/-- AR10. -/
theorem test_subv3 :
    seen (fun t => (t.regs.r1, t.regs.r0, t.carry))
      (fresh [0x17, 0x00, 0x01, 0x01]) =
      some (255, 0, true) := by decide +kernel
/-- AR11. -/
theorem test_inc :
    seen (fun t => (t.regs.r0, t.carry))
      (withRegs 255 0 0 0 [0x18, 0x00]) =
      some (0, true) := by decide +kernel
/-- AR13. -/
theorem test_dec :
    seen (fun t => (t.regs.r0, t.carry))
      (fresh [0x19, 0x00]) =
      some (255, true) := by decide +kernel
/-- AR15. -/
theorem test_adc :
    seen (fun t => (t.regs.r3, t.carry))
      ({ withRegs 0 0 0 255 [0x1A, 0x03] with carry := true }) =
      some (0, true) := by decide +kernel
/-- AR16. -/
theorem test_sbc :
    seen (fun t => (t.regs.r3, t.carry))
      ({ fresh [0x1B, 0x03] with carry := true }) =
      some (255, true) := by decide +kernel
/-- AR17. -/
theorem test_sbc_fault :
    seen (fun t => faulted t)
      (fresh [0x1B, 0x09]) =
      some (some (.invalidRegisterIndex 9 65537, 65536, some 0x1B)) := by decide +kernel
/-- AR18. -/
theorem test_ccf :
    seen (fun t => t.carry)
      ({ fresh [0x1C] with carry := true }) =
      some false := by decide +kernel
/-- AR19. -/
theorem test_scf : seen (fun t => t.carry) (fresh [0x1D]) = some true := by decide +kernel
/-- CF4. -/
theorem test_jmp_backward : seen (fun t => t.pc) (fresh [0x30, 0x80]) = some 65409 := by decide +kernel
/-- CF1. -/
theorem test_jmp_idle : seen (fun t => t.pc) (fresh [0x30, 0xFF]) = some 65536 := by decide +kernel
/-- CF5. -/
theorem test_jpz :
    seen (fun t => t.pc)
      (placed 100 [0x31, 0x0A, 0x00] State.reset) =
      some 111 := by decide +kernel
/-- CF6. -/
theorem test_jpz_untaken :
    seen (fun t => t.pc)
      (placed 100 [0x31, 0x0A, 0x00] { State.reset with regs := ⟨1, 0, 0, 0, 0, 0, 0, 0⟩ }) =
      some 103 := by decide +kernel
/-- CF7. -/
theorem test_jpnz :
    seen (fun t => t.pc)
      (placed 65547 [0x32, 0xFA, 0x00] { State.reset with regs := ⟨4, 0, 0, 0, 0, 0, 0, 0⟩ }) =
      some 65542 := by decide +kernel
/-- S3. -/
theorem test_fnc :
    seen (fun t => (t.pc, t.ft, t.regs.r0))
      (fresh [0x33, 0x00, 0x01, 0x18, 0x00, 0x34]) =
      some (65542, [(1, 65539)], 0) := by decide +kernel
/-- CF10. -/
theorem test_fnc_no_ret :
    seen (fun t => (faulted t, t.ft))
      (fresh [0x33, 0x00, 0x09, 0x18, 0x00]) =
      some (some (.memoryAddressOutOfBounds 524288, 65536, some 0x33), []) := by decide +kernel
/-- R178. -/
theorem test_ret :
    seen (fun t => (t.pc, t.cs))
      ({ fresh [0x34] with cs := [⟨65545, 65548⟩] }) =
      some (65548, []) := by decide +kernel
/-- CF17. -/
theorem test_ret_empty :
    seen (fun t => faulted t)
      (fresh [0x34]) =
      some (some (.emptyCallStack, 65536, some 0x34)) := by decide +kernel
/-- P2. -/
theorem test_cal :
    seen (fun t => (t.pc, t.cs))
      (placed 65545 [0x35, 0x00, 0x01] { State.reset with ft := [(1, 65539)] }) =
      some (65539, [⟨65545, 65548⟩]) := by decide +kernel
/-- CF13. -/
theorem test_cal_unresolved :
    seen (fun t => faulted t)
      (fresh [0x35, 0x00, 0x09]) =
      some (some (.unresolvedFunctionReference 9, 65536, some 0x35)) := by decide +kernel
/-- CF15. -/
theorem test_clz :
    seen (fun t => (t.pc, t.cs))
      (placed 200 [0x36, 0x00, 0x07, 0x01] { State.reset with ft := [(7, 300)] }) =
      some (300, [⟨200, 204⟩]) := by decide +kernel
/-- CF14. -/
theorem test_clz_untaken :
    seen (fun t => (t.pc, t.cs))
      (withRegs 0 5 0 0 [0x36, 0x00, 0x09, 0x01]) =
      some (65540, []) := by decide +kernel
/-- CF16. -/
theorem test_clnz :
    seen (fun t => (t.pc, t.cs))
      (placed 200 [0x37, 0x00, 0x07, 0x02] { State.reset with ft := [(7, 300)], regs := ⟨0, 0, 5, 0, 0, 0, 0, 0⟩ }) =
      some (300, [⟨200, 204⟩]) := by decide +kernel
/-- S9. -/
theorem test_mlt :
    seen (fun t => (t.regs.r2, t.regs.r3))
      (withRegs 200 3 0 0 [0x40, 0x00, 0x01, 0x02, 0x03]) =
      some (2, 88) := by decide +kernel
/-- WM2. -/
theorem test_mlt_one_destination :
    seen (fun t => t.regs.r2)
      (withRegs 200 3 0 0 [0x40, 0x00, 0x01, 0x02, 0x02]) =
      some 88 := by decide +kernel
/-- WM5. -/
theorem test_div :
    seen (fun t => (t.regs.r0, t.regs.r1))
      (withRegs 2 88 0 7 [0x41, 0x00, 0x01, 0x02, 0x03, 0x00, 0x01]) =
      some (0, 85) := by decide +kernel
/-- WM8. -/
theorem test_div_by_zero :
    seen (fun t => faulted t)
      (fresh [0x41, 0x00, 0x01, 0x02, 0x03, 0x04, 0x05]) =
      some (some (.divideByZero, 65536, some 0x41)) := by decide +kernel
/-- DR1. -/
theorem test_std :
    seen (fun t => (t.driveByte 3, t.persist.backing.cells))
      ({ withDrive16 [] [0x60, 0x00, 0x00, 0x00, 0x00, 0x03] with regs := ⟨65, 0, 0, 0, 0, 0, 0, 0⟩ }) =
      some (65, []) := by decide +kernel
/-- DR4. -/
theorem test_std_register_first :
    seen (fun t => faulted t)
      (withDrive16 [] [0x60, 0x09, 0x00, 0x00, 0x00, 0x10]) =
      some (some (.invalidRegisterIndex 9 65537, 65536, some 0x60)) := by decide +kernel
/-- DR2. -/
theorem test_svd :
    seen (fun t => t.driveByte 15)
      (withDrive16 [] [0x61, 0x07, 0x00, 0x00, 0x00, 0x0F]) =
      some 7 := by decide +kernel
/-- DR3. -/
theorem test_svd_at_length :
    seen (fun t => faulted t)
      (withDrive16 [] [0x61, 0x07, 0x00, 0x00, 0x00, 0x10]) =
      some (some (.driveAddressOutOfBounds 16, 65536, some 0x61)) := by decide +kernel
/-- DR5. -/
theorem test_ldtm :
    seen (fun t => t.byte 512)
      (withDrive16 [0, 0, 0, 65] [0x62, 0x00, 0x00, 0x00, 0x03, 0x00, 0x02, 0x00]) =
      some 65 := by decide +kernel
/-- DR6. -/
theorem test_ldtm_drive_first :
    seen (fun t => faulted t)
      (withDrive16 [] [0x62, 0x00, 0x00, 0x00, 0x10, 0xFF, 0xFF, 0xFF]) =
      some (some (.driveAddressOutOfBounds 16, 65536, some 0x62)) := by decide +kernel
/-- DR8. -/
theorem test_ldml :
    seen (fun t => (t.byte 256, t.byte 257, t.byte 258))
      (withDrive16 [1, 2, 3] [0x63, 0x00, 0x00, 0x00, 0x00, 0x00, 0x01, 0x00, 0x00, 0x03]) =
      some (1, 2, 3) := by decide +kernel
/-- DR9. -/
theorem test_ldml_empty :
    seen (fun t => (faulted t, t.pc))
      (withDrive16 [] [0x63, 0xFF, 0xFF, 0xFF, 0xFF, 0xFF, 0xFF, 0xFF, 0x00, 0x00]) =
      some (none, 65546) := by decide +kernel
/-- DR12. -/
theorem test_smdl :
    seen (fun t => (t.driveByte 8, t.driveByte 9, t.driveByte 10))
      ({ withData [1, 2, 3] [0x64, 0x00, 0x01, 0x00, 0x00, 0x00, 0x00, 0x08, 0x00, 0x03] with drive := ⟨16, []⟩ }) =
      some (1, 2, 3) := by decide +kernel
/-- DR11. -/
theorem test_smdl_memory_end :
    seen (fun t => faulted t)
      (withDrive16 [] [0x64, 0x07, 0xFF, 0xFF, 0x00, 0x00, 0x00, 0x00, 0x00, 0x02]) =
      some (some (.memoryAddressOutOfBounds 524288, 65536, some 0x64)) := by decide +kernel
/-- PR1. -/
theorem test_txr :
    seen (fun t => t.draws)
      (withRegs 33 0 0 0 [0x80, 0x00, 0x00, 0x0A, 0x00, 0x14, 0x00, 0x08, 0xFF, 0xFF, 0xFF, 0xFF]) =
      some [.text [33] 10 20 8 ⟨255, 255, 255, 255⟩] := by decide +kernel
/-- PR3. -/
theorem test_txl :
    seen (fun t => (t.draws, t.pc))
      (fresh [0x81, 0x00, 0x00, 0x00, 0x00, 0x00, 0x08, 0xFF, 0x00, 0x00, 0xFF, 0x02, 0x21, 0x22]) =
      some ([.text [33, 34] 0 0 8 ⟨255, 0, 0, 255⟩], 65550) := by decide +kernel
/-- PR4. -/
theorem test_rct :
    seen (fun t => t.draws)
      (fresh [0x82, 0x00, 0x01, 0x00, 0x02, 0x00, 0x03, 0x00, 0x04, 0x00, 0x00, 0x00, 0xFF]) =
      some [.rect 1 2 3 4 ⟨0, 0, 0, 255⟩] := by decide +kernel
/-- PR5. -/
theorem test_crc :
    seen (fun t => t.draws)
      (fresh [0x83, 0x00, 0x64, 0x00, 0x64, 0x00, 0x05, 0x00, 0xFF, 0x00, 0xFF]) =
      some [.circle 100 100 5 ⟨0, 255, 0, 255⟩] := by decide +kernel
/-- PR6. -/
theorem test_cls :
    seen (fun t => (t.draws, t.status, t.pc))
      (fresh [0x84]) =
      some ([.present], .waitingFrame, 65536) := by decide +kernel
/-- PR6. -/
theorem test_cls_retires :
    seen (fun t => (t.draws, t.status, t.pc))
      ({ State.reset with status := .waitingFrame, draws := [.present], host := [.frameReady] }) =
      some ([.present, .clear], .running, 65537) := by decide +kernel
/-- PR7. -/
theorem test_lne :
    seen (fun t => t.draws)
      (fresh [0x85, 0x00, 0x00, 0x00, 0x00, 0x00, 0x0A, 0x00, 0x0A, 0xFF, 0xFF, 0xFF, 0xFF]) =
      some [.line 0 0 10 10 ⟨255, 255, 255, 255⟩] := by decide +kernel
/-- PR9. -/
theorem test_mtxr_input_registers :
    seen (fun t => t.draws)
      (sampled ⟨0, 100, 50, 0, 0⟩ 65536 [0x86, 0x00, 0x00, 0x00, 0x00, 0x00, 0xFF, 0xF8, 0xFF, 0xFA, 0x00, 0x08, 0xFF, 0xFF, 0xFF, 0xFF] State.reset) =
      some [.text [0] 100 50 8 ⟨255, 255, 255, 255⟩] := by decide +kernel
/-- PR13. -/
theorem test_mtxl :
    seen (fun t => (t.draws, t.pc))
      (withData [0, 5, 0, 7] [0x87, 0x00, 0x00, 0x00, 0x00, 0x01, 0x00, 0x01, 0x02, 0x00, 0x08, 0xFF, 0x00, 0x00, 0xFF, 0x01, 0x21]) =
      some ([.text [33] 5 7 8 ⟨255, 0, 0, 255⟩], 65553) := by decide +kernel
/-- PR10. -/
theorem test_mrct_wraps :
    seen (fun t => t.draws)
      (withData [255, 255, 0, 0] [0x88, 0x00, 0x02, 0x00, 0x03, 0x01, 0x00, 0x01, 0x02, 0x00, 0x04, 0x00, 0x04, 0x00, 0x00, 0x00, 0xFF]) =
      some [.rect 1 3 4 4 ⟨0, 0, 0, 255⟩] := by decide +kernel
/-- PR11. -/
theorem test_mcrc :
    seen (fun t => t.draws)
      (withData [0, 10] [0x89, 0x00, 0x00, 0x00, 0x00, 0x01, 0x00, 0x01, 0x00, 0x00, 0x03, 0x00, 0x00, 0xFF, 0xFF]) =
      some [.circle 10 10 3 ⟨0, 0, 255, 255⟩] := by decide +kernel
/-- PR12. -/
theorem test_mlne :
    seen (fun t => t.draws)
      (withData [0, 1, 0, 2] [0x8A, 0x00, 0x00, 0x00, 0x00, 0x00, 0x0A, 0x00, 0x0A, 0x01, 0x00, 0x01, 0x02, 0xFF, 0xFF, 0xFF, 0xFF]) =
      some [.line 1 2 11 12 ⟨255, 255, 255, 255⟩] := by decide +kernel
/-- TE1. -/
theorem test_ext :
    seen (fun t => (t.regs.r7, t.pc))
      (placed 70000 [0xFE, 0x03] State.reset) =
      some (3, 65536) := by decide +kernel
/-- TE3. -/
theorem test_hlt :
    seen (fun t => (t.status, t.persist.queue, t.pc))
      (withDrive16 [0, 0, 0, 65] [0xFF]) =
      some (.checkpointing, [⟨0, .foreground, ⟨16, [(3, 65)]⟩⟩], 65536) := by decide +kernel
/-- TE4. -/
theorem test_hlt_io_error :
    seen (fun t => (faulted t, t.persist.serving))
      ({ State.reset with status := .checkpointing, host := [.ioError], persist := { Persist.reset ⟨0, []⟩ with writing := some ⟨0, .foreground, ⟨0, []⟩⟩ } }) =
      some (some (.ioFault .driveImage .write, 65536, some 0), false) := by decide +kernel
/-- EN1. -/
theorem test_unassigned :
    seen (fun t => (t.pc, faulted t))
      (fresh [0x0D]) =
      some (65537, none) := by decide +kernel
/-- EN3. -/
theorem test_fetch_operand_past_end :
    seen (fun t => faulted t)
      (placed 524287 [0x30] State.reset) =
      some (some (.memoryAddressOutOfBounds 524288, 524287, some 0x30)) := by decide +kernel
/-- EN4. -/
theorem test_fetch_opcode_past_end :
    seen (fun t => faulted t)
      (placed 524288 [] State.reset) =
      some (some (.memoryAddressOutOfBounds 524288, 524288, none)) := by decide +kernel
/-- EN6. -/
theorem test_fetch_count_past_end :
    seen (fun t => faulted t)
      (placed 524285 [0x81, 0x00, 0x00] State.reset) =
      some (some (.memoryAddressOutOfBounds 524288, 524285, some 0x81)) := by decide +kernel
/-- S10. -/
theorem test_sample :
    seen (fun t => readBytes t.mem 65527 9)
      (sampled ⟨33, 100, 50, 640, 480⟩ 65536 [0x1C] State.reset) =
      some [0x21, 0x00, 0x64, 0x00, 0x32, 0x02, 0x80, 0x01, 0xE0] := by decide +kernel
/-- R261: the diagnostic's codes. -/
theorem test_fault_codes : [EngineFault.ioFault .driveImage .write, .invalidRegisterIndex 8 0,
    .unresolvedFunctionReference 9, .emptyCallStack, .driveAddressOutOfBounds 16, .divideByZero,
    .memoryAddressOutOfBounds (-1)].map EngineFault.code = [1, 2, 3, 4, 5, 6, 7] := by decide
/-- FA5: a faulted engine runs no cycle. -/
theorem test_faulted_stops : step { State.reset with
      status := .faulted ⟨.emptyCallStack, 65536, some 0x34⟩, host := [.cycle ⟨0, 0, 0, 0, 0⟩] } =
    .fault (.engineFaulted ⟨.emptyCallStack, 65536, some 0x34⟩) := rfl
/-- R5: FNC's scan stops at the opcode of RET under the machine's own map. -/
theorem test_fnc_swapped : seen (fun t => (t.pc, t.ft))
    { fresh [0x33, 0x00, 0x01, 0x34, 0x30] with params := { Params.standard with opcodeMap := swappedMap } } =
    some (65541, [(1, 65539)]) := by decide +kernel
/-- R5: the Memory of a machine of 65,800 bytes ends there. -/
theorem test_small_memory : seen (fun t => faulted t)
    { placed 65799 [0x30] State.reset with params := { Params.standard with memSize := 65800 } } =
    some (some (.memoryAddressOutOfBounds 65800, 65799, some 0x30)) := by decide +kernel
/-- R302: a load of a one-byte image and a two-byte drive. -/
theorem test_boot : (match boot Params.standard (some [0x84]) (some [7, 0]) with
    | .ok s => (s.pc, s.sp, s.byte 65536, s.drive, s.persist.backing) ==
        (65536, 524288, 0x84, ⟨2, [(0, 7)]⟩, ⟨2, [(0, 7)]⟩)
    | .error _ => false) = true := by decide +kernel
/-- R261, R265: a file that cannot be read. -/
theorem test_boot_faults : (match boot Params.standard none (some []), boot Params.standard (some []) none with
    | .error f, .error g => (f, g) == (.ioFault .codeImage .read, .ioFault .driveImage .read)
    | _, _ => false) = true := by decide +kernel
/-- R285: a new run has the committed image, not the Drive of the run before. -/
theorem test_restart : (match restart (some [0x84]) { withDrive16 [1, 2] [] with
      persist := Persist.reset ⟨16, [(3, 9)]⟩ } with
    | .ok s => (s.drive, s.pc, s.byte 65536) == (⟨16, [(3, 9)]⟩, 65536, 0x84)
    | .error _ => false) = true := by decide +kernel
/-- The host's placing: INC 0 of the table, run as the first instruction after reset. -/
theorem test_withFetchWord : seen (fun t => (t.regs.r0, t.pc)) (State.reset.withFetchWord 16 0x18) =
    some (1, 65538) := by decide +kernel

/-! ## Cases that meet the hypotheses of the statements

`witness_<Name>` gives, for the statement of that name, a state and operands that meet its hypotheses, each
clause at a boundary value. -/

/-- HLT of a Drive that holds 65 at byte 3, its write in flight, the store about to answer. -/
def checkpointing : State := { withDrive16 [0, 0, 0, 65] [0xFF] with
  status := .checkpointing, host := [.committed],
  persist := { Persist.reset ⟨16, []⟩ with writing := some ⟨0, .foreground, ⟨16, [(3, 65)]⟩⟩, nextId := 1 } }

/-- It is a legal state. -/
theorem test_checkpointing_legal : checkpointing.Inv where
  params_wf := Params.standard_wf
  mem_wf := by decide +kernel
  drive_wf := by decide +kernel
  ft_wf := rfl
  ft_targets := by intro p hp; cases hp
  cs_records := by intro r hr; cases hr
  sp_range := by decide +kernel
  backing_wf := by decide +kernel
  snapshots_wf := by decide +kernel
  numbers_rise := by decide +kernel
  writing_served := by intro h; cases h
  persist_fits := ⟨rfl, rfl, [], _, [], rfl, rfl, rfl, (by intro q hq; cases hq), (by intro q hq; cases hq)⟩
  diagnosed := rfl

theorem witness_LdvLoadsImmediate : regOfByte 7#8 = some .r7 ∧ 7 < (8#8 : Byte).toNat := by decide
theorem witness_LdaLoadsByte : regOfByte 0#8 = some .r0 ∧ 7 < (255#8 : Byte).toNat ∧
    (∃ s smp before, s = sampleInputs smp before ∧ s.params.ioBase ≤ (0xFFF7#16 : U16).toNat ∧
      (0xFFFF#16 : U16).toNat ≤ s.params.ioLast) :=
  ⟨by decide, by decide, sampleInputs ⟨33, 0, 0, 0, 0⟩ State.reset, _, _, rfl, by decide, by decide⟩
theorem witness_LdoStoUseIndexedAddress : regOfByte 7#8 = some .r7 ∧ regOfByte 0#8 = some .r0 ∧
    7 < (8#8 : Byte).toNat := by decide
theorem witness_StaSvaStoreOneByte : regOfByte 7#8 = some .r7 ∧ 7 < (8#8 : Byte).toNat ∧
    (State.reset.params.ioBase ≤ 65527 ∧ 65527 ≤ State.reset.params.ioLast) ∧
    (State.reset.params.ioBase ≤ 65535 ∧ 65535 ≤ State.reset.params.ioLast) := by decide
theorem witness_MovCopiesRegister : regOfByte 7#8 = some .r7 ∧ regOfByte 7#8 = some .r7 ∧
    7 < (8#8 : Byte).toNat := by decide
theorem witness_LvzLvnzLoadOnGuard : regOfByte 1#8 = some .r1 ∧ 7 < (8#8 : Byte).toNat ∧
    State.reset.reg .r1 = 0#8 ∧ (withRegs 0 1 0 0 []).reg .r1 ≠ 0#8 := by decide
theorem witness_PshPsvPush :
    (0 ≤ State.reset.sp ∧ State.reset.sp ≤ (State.reset.params.memSize : Int) ∧ 0 < State.reset.sp) ∧
    (∃ s : State, 0 ≤ s.sp ∧ s.sp ≤ (s.params.memSize : Int) ∧ s.sp = 0) ∧
    (∃ s : State, 0 ≤ s.sp ∧ s.sp ≤ (s.params.memSize : Int) ∧ s.sp = 1) ∧
    regOfByte 7#8 = some .r7 ∧ 7 < (8#8 : Byte).toNat :=
  ⟨by decide, ⟨{ State.reset with sp := 0 }, by decide⟩, ⟨{ State.reset with sp := 1 }, by decide⟩, by decide,
    by decide⟩
theorem witness_PopPopmPop : (0 ≤ State.reset.sp ∧ State.reset.sp ≤ (State.reset.params.memSize : Int) ∧
      State.reset.sp = (State.reset.params.memSize : Int)) ∧
    (∃ s : State, 0 ≤ s.sp ∧ s.sp ≤ (s.params.memSize : Int) ∧ s.sp < (s.params.memSize : Int) ∧
      s.sp = 524287) ∧
    (∃ s : State, 0 ≤ s.sp ∧ s.sp ≤ (s.params.memSize : Int) ∧ s.sp < (s.params.memSize : Int) ∧ s.sp = 0) ∧
    regOfByte 7#8 = some .r7 ∧ 7 < (8#8 : Byte).toNat :=
  ⟨by decide, ⟨{ State.reset with sp := 524287 }, by decide⟩, ⟨{ State.reset with sp := 0 }, by decide⟩,
    by decide, by decide⟩
theorem witness_AdditionsAddAndCarry : regOfByte 0#8 = some .r0 ∧ 7 < (8#8 : Byte).toNat ∧
    Params.standard.carryPolicy = .sticky ∧
    { Params.standard with carryPolicy := .overwrite }.carryPolicy = .overwrite := by decide
theorem witness_SubtractionsSubtractAndBorrow : regOfByte 7#8 = some .r7 ∧ 7 < (8#8 : Byte).toNat ∧
    Params.standard.carryPolicy = .sticky ∧
    { Params.standard with carryPolicy := .overwrite }.carryPolicy = .overwrite := by decide
theorem witness_AdcSbcUseCarry : regOfByte 7#8 = some .r7 ∧ 7 < (8#8 : Byte).toNat ∧
    State.reset.carry = false ∧ { State.reset with carry := true }.carry = true := by decide
theorem witness_JumpsAreRelative : regOfByte 7#8 = some .r7 ∧ 7 < (8#8 : Byte).toNat ∧
    State.reset.reg .r1 = 0#8 ∧ (withRegs 0 1 0 0 []).reg .r1 ≠ 0#8 ∧
    inMemory State.reset.params.memSize 524288 = false ∧ inMemory State.reset.params.memSize (-1) = false := by
  decide
/-- A RET byte at once after FNC, and one in the last byte of Memory. -/
theorem witness_FncDefinesAndSkips_found : Params.standard.wf = true ∧
    (Memory.wf 524288 (fresh [0x33, 0, 5, 0x34]).mem = true ∧ 0 ≤ (fresh [0x33, 0, 5, 0x34]).pc + 3 ∧
      IsFirstRet (fresh [0x33, 0, 5, 0x34]) ((fresh [0x33, 0, 5, 0x34]).pc + 3) 65539) ∧
    (Memory.wf 524288 [(524287, 0x34)] = true ∧
      IsFirstRet { State.reset with mem := [(524287, 0x34)], pc := 524284 } 524287 524287) := by
  refine ⟨Params.standard_wf, ⟨by decide +kernel, by decide +kernel, by decide +kernel, by decide +kernel,
    by decide +kernel, ?_⟩, by decide +kernel, by decide +kernel, by decide +kernel, by decide +kernel, ?_⟩
  · intro a h1 h2
    change (65536 + 3 : Int) ≤ a at h1
    omega
  · intro a h1 h2
    omega
/-- No RET byte from `A + 3` on; and `A + 3` past the end of Memory. -/
theorem witness_FncDefinesAndSkips_faults : State.reset.params.wf = true ∧
    (Memory.wf State.reset.params.memSize State.reset.mem = true ∧
      inMemory State.reset.params.memSize (State.reset.pc + 3) = true ∧
      ∀ a : Nat, State.reset.pc + 3 ≤ a → a < State.reset.params.memSize →
        State.reset.byte a ≠ State.reset.params.retByte) ∧
    inMemory State.reset.params.memSize ({ State.reset with pc := 524285 }.pc + 3) = false :=
  ⟨Params.standard_wf, ⟨by decide, by decide, fun _ _ _ => (Params.retByte_ne_zero Params.standard_wf).symm⟩,
    by decide⟩
theorem witness_RetPopsAndResumes : { State.reset with cs := [⟨65545, 65548⟩] }.cs = ⟨65545, 65548⟩ :: [] ∧
    State.reset.cs = [] := by decide
theorem witness_CallsPushAndEnter : lookupFunction [(7, 300)] (7#16 : U16).toNat = some 300 ∧
    lookupFunction State.reset.ft (9#16 : U16).toNat = none ∧ regOfByte 7#8 = some .r7 ∧ 7 < (8#8 : Byte).toNat ∧
    State.reset.reg .r7 = 0#8 ∧ (withRegs 0 1 0 0 []).reg .r1 ≠ 0#8 := by decide
theorem witness_UnassignedIsNoOp : standardMap.wf = true ∧ isUnassigned 0x0D = true ∧ isUnassigned 0xFD = true :=
  ⟨standardMap_wf, by decide, by decide⟩
theorem witness_MltMultiplies : regOfByte 2#8 = some .r2 ∧ 7 < (8#8 : Byte).toNat ∧ Reg.r2 ≠ .r3 := by decide
theorem witness_DivDivides : regOfByte 7#8 = some .r7 ∧ 7 < (8#8 : Byte).toNat ∧
    ((State.reset.reg .r2).toNat * 256 + (State.reset.reg .r3).toNat = 0) ∧
    (((withRegs 2 88 0 1 []).reg .r2).toNat * 256 + ((withRegs 2 88 0 1 []).reg .r3).toNat ≠ 0) := by decide
theorem witness_StdSvdStoreDriveByte : regOfByte 7#8 = some .r7 ∧ 7 < (8#8 : Byte).toNat ∧
    (15#32 : U32).toNat < (withDrive16 [] []).drive.len ∧ (withDrive16 [] []).drive.len ≤ (16#32 : U32).toNat := by
  decide
theorem witness_LdtmCopiesDriveByte :
    ((15#32 : U32).toNat < (withDrive16 [] []).drive.len ∧ (0x07FFFF#24 : U24).toNat < State.reset.params.memSize) ∧
    (withDrive16 [] []).drive.len ≤ (16#32 : U32).toNat ∧
    ((15#32 : U32).toNat < (withDrive16 [] []).drive.len ∧ State.reset.params.memSize ≤ (0x080000#24 : U24).toNat) ∧
    (State.reset.params.ioBase ≤ (0x00FFF7#24 : U24).toNat ∧
      (0x00FFFF#24 : U24).toNat ≤ State.reset.params.ioLast) := by decide
/-- A block up to both ends; one past the Drive's end; one past Memory's end; and none. -/
theorem witness_LdmlCopiesBlockToMemory :
    (0#16 : U16) = 0#16 ∧ (2#16 : U16) ≠ 0#16 ∧
    ((14#32 : U32).toNat + (2#16 : U16).toNat ≤ (withDrive16 [] []).drive.len ∧
      (0x07FFFE#24 : U24).toNat + (2#16 : U16).toNat ≤ State.reset.params.memSize) ∧
    (withDrive16 [] []).drive.len < (15#32 : U32).toNat + (2#16 : U16).toNat ∧
    ((14#32 : U32).toNat + (2#16 : U16).toNat ≤ (withDrive16 [] []).drive.len ∧
      State.reset.params.memSize < (0x07FFFF#24 : U24).toNat + (2#16 : U16).toNat) := by decide
theorem witness_SmdlCopiesBlockToDrive :
    (0#16 : U16) = 0#16 ∧ (3#16 : U16) ≠ 0#16 ∧
    ((13#32 : U32).toNat + (3#16 : U16).toNat ≤ (withDrive16 [] []).drive.len ∧
      (0x07FFFD#24 : U24).toNat + (3#16 : U16).toNat ≤ State.reset.params.memSize) ∧
    (withDrive16 [] []).drive.len < (14#32 : U32).toNat + (3#16 : U16).toNat ∧
    ((13#32 : U32).toNat + (3#16 : U16).toNat ≤ (withDrive16 [] []).drive.len ∧
      State.reset.params.memSize < (0x07FFFE#24 : U24).toNat + (3#16 : U16).toNat) ∧
    (∃ s smp before, s = sampleInputs smp before ∧ s.params.ioBase ≤ 65535 ∧ 65535 ≤ s.params.ioLast) :=
  ⟨by decide, by decide, by decide, by decide, by decide,
    sampleInputs ⟨33, 0, 0, 0, 0⟩ State.reset, _, _, rfl, by decide, by decide⟩
theorem witness_DirectDrawsEmitOneRecord : regOfByte 7#8 = some .r7 ∧ 7 < (8#8 : Byte).toNat := by decide
theorem witness_IndirectDrawsAreDisplaced : regOfByte 0#8 = some .r0 ∧ 7 < (8#8 : Byte).toNat := by decide
theorem witness_ClsPresentsWaitsClears :
    (∃ s smp rest, s.status = .waitingFrame ∧ NextEvent s (.cycle smp) rest) ∧
    (∃ s rest, s.status = .waitingFrame ∧ s.persist.ioPending = false ∧ NextEvent s .frameReady rest) :=
  ⟨⟨{ State.reset with status := .waitingFrame, host := [.cycle ⟨1, 2, 3, 4, 5⟩] }, _, [], rfl, rfl⟩,
    ⟨{ State.reset with status := .waitingFrame, host := [.frameReady, .tick] }, [.tick], rfl, rfl, rfl⟩⟩
theorem witness_HltCheckpointsAndGoesOn :
    (∃ r rest, checkpointing.status = .checkpointing ∧ checkpointing.persist.writing = some r ∧
      r.origin = .foreground ∧ NextEvent checkpointing .committed rest) ∧
    (∃ s r rest, s.status = .checkpointing ∧ s.persist.writing = some r ∧
      r.origin = .foreground ∧ NextEvent s .ioError rest) :=
  ⟨⟨_, [], rfl, rfl, rfl, rfl⟩, ⟨{ checkpointing with host := [.ioError] }, _, [], rfl, rfl, rfl, rfl⟩⟩
theorem witness_RegisterBytesNameRegisters : 7 < (8#8 : Byte).toNat ∧ 7 < (255#8 : Byte).toNat := by decide
theorem witness_DecodeEncodeRoundTrip : swappedMap.wf = true ∧ (Instr.mtxl 1 2 3 4 5 ⟨6, 7, 8, 9⟩ [10, 11]).encodable = true ∧
    (Instr.unassigned 0xFD).encodable = true := ⟨test_swapped_legal, by decide, by decide⟩
theorem witness_DecodedBytesAreTheEncoding : swappedMap.wf = true ∧
    decode swappedMap [0x18, 0x07, 0x34] = .ok (.inc 7, [0x34]) := ⟨test_swapped_legal, by decide⟩
theorem witness_EveryOpcodeDecodes : swappedMap.wf = true ∧
    maxInstrLen ≤ (List.replicate 270 (255 : Byte)).length + 1 :=
  ⟨test_swapped_legal, by rw [List.length_replicate]; decide⟩
theorem witness_RegisterCheckComesFirst :
    (Instr.lvz 7 1 8).regOperands.find? (fun p => decide (7 < p.2.toNat)) = some (3, 8) ∧
    (Instr.div 9 1 2 3 4 255).regOperands.find? (fun p => decide (7 < p.2.toNat)) = some (1, 9) := by decide
theorem witness_StepRunsDecodedInstruction : ∃ s u smp rest i more,
    s.status = .running ∧ NextEvent s (.cycle smp) rest ∧ u = sampleInputs smp { s with host := rest } ∧
    inMemory u.params.memSize u.pc = true ∧
    decode u.params.opcodeMap (fetchBytes u u.pc.toNat) = .ok (i, more) :=
  ⟨fresh [0x18, 0x02], _, _, [], .inc 2, List.replicate 269 0, rfl, rfl, rfl, by decide +kernel, by decide +kernel⟩
/-- The instruction ends with the last byte of Memory. -/
theorem witness_StepRunsEncodedInstruction : ∃ s u smp rest, ∃ (i : Instr) (A : Nat),
    s.status = .running ∧ NextEvent s (.cycle smp) rest ∧ u = sampleInputs smp { s with host := rest } ∧
    u.params.opcodeMap.wf = true ∧ u.pc = A ∧ A + i.len ≤ u.params.memSize ∧ i.encodable = true ∧
    ∀ k, k < i.len → u.byte (A + k) = (encode u.params.opcodeMap i).getD k 0#8 :=
  ⟨placed 524286 [0x18, 0x02] State.reset, _, _, [], .inc 2, 524286, rfl, rfl, rfl, standardMap_wf, rfl,
    by decide +kernel, rfl, by decide +kernel⟩
/-- The program counter just past Memory; and a one-byte JMP in its last byte. -/
theorem witness_FetchOutOfRangeFaults :
    (∃ s u smp rest, s.status = .running ∧ NextEvent s (.cycle smp) rest ∧
      u = sampleInputs smp { s with host := rest } ∧ inMemory u.params.memSize u.pc = false) ∧
    (∃ s u smp rest, ∃ A : Nat, s.status = .running ∧ NextEvent s (.cycle smp) rest ∧
      u = sampleInputs smp { s with host := rest } ∧ u.params.opcodeMap.wf = true ∧ u.pc = A ∧
      A < u.params.memSize ∧
      ∀ i : Instr, i.opcode u.params.opcodeMap = u.byte A → i.encodable = true →
        (∀ k, k < i.len → A + k < u.params.memSize →
          u.byte (A + k) = (encode u.params.opcodeMap i).getD k 0#8) →
        u.params.memSize < A + i.len) := by
  refine ⟨⟨placed 524288 [] State.reset, _, _, [], rfl, rfl, rfl, by decide +kernel⟩,
    ⟨placed 524287 [0x30] State.reset, _, _, [], 524287, rfl, rfl, rfl, standardMap_wf, rfl,
      by decide +kernel, ?_⟩⟩
  intro i hop henc hagree
  have hbyte : (sampleInputs ⟨0, 0, 0, 0, 0⟩ { placed 524287 [0x30] State.reset with host := [] }).byte 524287 =
      standardMap.codeOf .jmp := by decide +kernel
  change i.opcode standardMap = (sampleInputs ⟨0, 0, 0, 0, 0⟩
    { placed 524287 [0x30] State.reset with host := [] }).byte 524287 at hop
  rw [hbyte] at hop
  cases i
  case jmp d =>
    change 524288 < 524287 + 2
    decide
  case unassigned op =>
    change op = standardMap.codeOf .jmp at hop
    subst hop
    exact absurd henc (by decide)
  all_goals
    rw [Instr.opcode_of_operation rfl] at hop
    exact absurd (OpcodeMap.codeOf_injective standardMap_wf hop) (by decide)
theorem witness_SampleFillsInputRegisters : State.reset.params.ioBase = 65527 ∧
    ¬ (65527 ≤ 65526 ∧ 65526 ≤ 65527 + 8) ∧ ¬ (65527 ≤ 65536 ∧ 65536 ≤ 65527 + 8) := by decide
/-- The images of a run; a code image one byte too long; a drive image one byte too long. -/
theorem witness_BootLoadsImages : Params.standard.wf = true ∧
    (Params.standard.codeBase + [0x84#8].length ≤ Params.standard.memSize ∧
      [7#8, 0#8].length ≤ 4294967296) ∧
    (∃ bytes : List Byte, Params.standard.memSize < Params.standard.codeBase + bytes.length) ∧
    ∃ bytes : List Byte, 4294967296 < bytes.length :=
  ⟨Params.standard_wf, by decide, ⟨List.replicate 458753 0, by rw [List.length_replicate]; decide⟩,
    ⟨List.replicate 4294967297 0, by rw [List.length_replicate]; decide⟩⟩
theorem witness_RestartReloadsCommittedImage : checkpointing.Inv ∧
    checkpointing.params.codeBase + [0x84#8].length ≤ checkpointing.params.memSize ∧
    checkpointing.status = .checkpointing ∧ ∃ u, step checkpointing = .next u ∧ u.status = .running :=
  ⟨test_checkpointing_legal, by decide, rfl, _, rfl, rfl⟩
theorem witness_FaultEntryRecords : (∃ A : Nat, State.reset.pc = A ∧ A < State.reset.params.memSize) ∧
    inMemory State.reset.params.memSize { State.reset with pc := 524288 }.pc = false :=
  ⟨⟨65536, rfl, by decide⟩, by decide⟩
theorem witness_NoInstructionStopsTheEngine : ∃ i s t r,
    s.status = .running ∧ exec i s = .next t ∧ t.status = .faulted r :=
  ⟨.ret, State.reset, _, _, rfl, rfl, rfl⟩
theorem witness_FaultedIsFinal : ∃ s r, s.status = .faulted r ∧
    (∃ smp rest, NextEvent s (.cycle smp) rest) ∧ ∃ u t, u.status = .faulted r ∧ step u = .next t :=
  ⟨{ State.reset with status := .faulted ⟨.divideByZero, 0, some 0x41⟩, host := [.cycle ⟨0, 0, 0, 0, 0⟩] }, _, rfl,
    ⟨_, [], rfl⟩,
    { State.reset with status := .faulted ⟨.divideByZero, 0, some 0x41⟩, host := [.serve] }, _, rfl, rfl⟩
theorem witness_TerminatedIsFinal :
    (∃ s smp rest, s.status = .terminated ∧ NextEvent s (.cycle smp) rest ∧ s.persist.writing = none) ∧
    (∃ t, step { checkpointing with status := .terminated } = .next t) ∧
    ∃ t, step { checkpointing with status := .terminated, host := [.ioError] } = .next t :=
  ⟨⟨{ State.reset with status := .terminated, host := [.cycle ⟨0, 0, 0, 0, 0⟩] }, _, [], rfl, rfl, rfl⟩,
    ⟨_, rfl⟩, ⟨_, rfl⟩⟩
/-- A Drive image being written for the timer, and the store about to fail it. -/
def failing : State := { State.reset with
  host := [.ioError]
  persist := { Persist.reset ⟨0, []⟩ with writing := some ⟨0, .background, ⟨0, []⟩⟩, nextId := 1 } }
theorem witness_BackgroundFailureStopsEngine :
    (∃ q, failing.status = .running ∧ failing.persist.writing = some q ∧ NextEvent failing .ioError []) ∧
    (∃ s q, s.status = .checkpointing ∧ q.origin = .background ∧ s.persist.writing = some q ∧
      NextEvent s .ioError []) ∧
    (∃ s q, s.status = .waitingFrame ∧ s.persist.writing = some q ∧ NextEvent s .ioError []) ∧
    ∃ s, s.status = .waitingFrame ∧ s.persist.ioPending = true ∧ NextEvent s .frameReady [] :=
  ⟨⟨_, rfl, rfl, rfl⟩, ⟨{ failing with status := .checkpointing }, _, rfl, rfl, rfl, rfl⟩,
    ⟨{ failing with status := .waitingFrame }, _, rfl, rfl, rfl⟩,
    ⟨{ State.reset with
      status := .waitingFrame
      host := [.frameReady]
      persist := { Persist.reset ⟨0, []⟩ with serving := false, ioPending := true } }, rfl, rfl, rfl⟩⟩
theorem witness_CarryHasFewWriters : ∃ i s t, exec i s = .next t ∧ t.carry ≠ s.carry ∧
    s.params.carryPolicy = .sticky ∧
    ∃ u v, exec .scf u = .next v ∧ u.params.carryPolicy = .sticky ∧ u.carry = true :=
  ⟨.scf, State.reset, _, rfl, by decide, rfl, { State.reset with carry := true }, _, rfl, rfl, rfl⟩
theorem witness_StateHasFewWriters :
    (∃ i s t, exec i s = .next t ∧ t.regs ≠ s.regs) ∧
    (∃ i s t, exec i s = .next t ∧ t.mem ≠ s.mem) ∧ (∃ i s t, exec i s = .next t ∧ t.sp ≠ s.sp) ∧
    (∃ i s t, exec i s = .next t ∧ t.cs ≠ s.cs) ∧ (∃ i s t, exec i s = .next t ∧ t.draws ≠ s.draws) ∧
    (∃ i s t, exec i s = .next t ∧ t.persist ≠ s.persist ∧ t.status ≠ s.status) ∧
    (∃ i s t, exec i s = .next t ∧ t.drive ≠ s.drive) ∧ (∃ i s t, exec i s = .next t ∧ t.ft ≠ s.ft) ∧
    ∃ i s t, exec i s = .next t ∧ t.diags ≠ s.diags ∧ t.status ≠ s.status :=
  ⟨⟨.ldv 7 2, State.reset, _, rfl, by decide⟩,
    ⟨.sva 1 2, State.reset, _, rfl, by decide⟩, ⟨.psv 1, State.reset, _, rfl, by decide⟩,
    ⟨.ret, { State.reset with cs := [⟨0, 3⟩] }, _, rfl, by decide⟩, ⟨.cls, State.reset, _, rfl, by decide⟩,
    ⟨.hlt, State.reset, _, rfl, by decide, by decide⟩, ⟨.svd 1 15, withDrive16 [] [], _, rfl, by decide⟩,
    ⟨.fnc 5, { State.reset with mem := [(65539, 0x34)] }, _, rfl, by decide⟩,
    ⟨.ret, State.reset, _, rfl, by decide, by decide⟩⟩
theorem witness_ControlTransfersAreFew : ∃ i s t, exec i s = .next t ∧
    ¬ isOneOf i [.jmp, .jpz, .jpnz, .fnc, .ret, .cal, .clz, .clnz, .cls, .ext, .hlt] :=
  ⟨.inc 7, State.reset, _, rfl, by rintro ⟨op, h, he⟩; cases he; exact absurd h (by decide)⟩
theorem witness_CallThenReturnResumes : ∃ (s : State) (id : U16) (target : Int), ∃ rg g,
    regOfByte rg = some g ∧ s.reg g = 0#8 ∧ (∃ rg g, regOfByte rg = some g ∧ s.reg g ≠ 0#8) ∧
    lookupFunction s.ft id.toNat = some target :=
  ⟨{ State.reset with ft := [(65535, 300)], regs := ⟨1, 0, 0, 0, 0, 0, 0, 0⟩ }, 0xFFFF, 300, 7, .r7, by decide,
    by decide, ⟨0, .r0, by decide, by decide⟩, by decide⟩
/-- The last byte of the Drive, brought back by itself and as the last of a block of 16. -/
theorem witness_DriveRoundTrip : (15#32 : U32).toNat < (withDrive16 [] []).drive.len ∧
    regOfByte 7#8 = some .r7 ∧ (0x07FFFF#24 : U24).toNat < State.reset.params.memSize ∧
    ((0#32 : U32).toNat ≤ (15#32 : U32).toNat ∧ (15#32 : U32).toNat < (0#32 : U32).toNat + (16#16 : U16).toNat ∧
      (0#32 : U32).toNat + (16#16 : U16).toNat ≤ (withDrive16 [] []).drive.len ∧
      (0x07FFF0#24 : U24).toNat + (16#16 : U16).toNat ≤ State.reset.params.memSize) := by decide
theorem witness_WaitsLeaveTheEngineAlone :
    (∃ s t, s.status = .waitingFrame ∧ step s = .next t ∧ t.status = .running) ∧
    ∃ t, checkpointing.status = .checkpointing ∧ step checkpointing = .next t ∧ t.status = .running :=
  ⟨⟨{ State.reset with status := .waitingFrame, host := [.frameReady] }, _, rfl, rfl, rfl⟩, ⟨_, rfl, rfl, rfl⟩⟩
theorem witness_BoundaryEventsActAlone :
    (∃ s rest, s.status = .running ∧ NextEvent s .tick rest) ∧
    (∃ s rest r queue, s.status = .waitingFrame ∧ s.persist.serving = true ∧ s.persist.writing = none ∧
      s.persist.queue = r :: queue ∧ NextEvent s .serve rest) ∧
    (∃ s rest, s.status = .checkpointing ∧ NextEvent s .terminate rest) ∧
    (∃ s rest r, s.status = .running ∧ s.persist.writing = some r ∧ NextEvent s .committed rest) ∧
    (∃ s rest r, s.status = .waitingFrame ∧ s.persist.writing = some r ∧ NextEvent s .committed rest) ∧
    ∃ s rest r, s.status = .checkpointing ∧ r.origin = .background ∧ s.persist.writing = some r ∧
      NextEvent s .committed rest :=
  ⟨⟨{ withDrive16 [1] [] with host := [.tick] }, [], rfl, rfl⟩,
    ⟨{ State.reset with
      status := .waitingFrame
      host := [.serve]
      persist := (Persist.reset ⟨0, []⟩).submit .background ⟨0, []⟩ }, [], _, [], rfl, rfl, rfl, rfl, rfl⟩,
    ⟨{ checkpointing with host := [.terminate] }, [], rfl, rfl⟩,
    ⟨{ failing with host := [.committed] }, [], _, rfl, rfl, rfl⟩,
    ⟨{ failing with host := [.committed], status := .waitingFrame }, [], _, rfl, rfl, rfl⟩,
    ⟨{ failing with host := [.committed], status := .checkpointing }, [], _, rfl, rfl, rfl, rfl⟩⟩
theorem witness_HltRetiresCommitted : checkpointing.Inv ∧ checkpointing.status = .checkpointing ∧
    ∃ t, step checkpointing = .next t ∧ t.status = .running := ⟨test_checkpointing_legal, rfl, _, rfl, rfl⟩
theorem witness_BackingChangesOnlyByCommit :
    ∃ t, step checkpointing = .next t ∧ t.persist.backing ≠ checkpointing.persist.backing :=
  ⟨_, rfl, by decide +kernel⟩
theorem witness_CommitsInSnapshotOrder : checkpointing.Inv ∧
    ∃ t, step checkpointing = .next t ∧ t.persist.lastCommitted ≠ checkpointing.persist.lastCommitted :=
  ⟨test_checkpointing_legal, _, rfl, by decide +kernel⟩
theorem witness_RequestsKeptInOrder :
    (∃ t, step checkpointing = .next t ∧ checkpointing.persist.pending ≠ t.persist.pending) ∧
    (∃ t, step failing = .next t ∧ failing.persist.pending ≠ t.persist.pending) ∧
    ∃ t, step { failing with host := [.tick] } = .next t :=
  ⟨⟨_, rfl, by decide +kernel⟩, ⟨_, rfl, by decide +kernel⟩, ⟨_, rfl⟩⟩
theorem witness_EqualBytesAreEqualData : Memory.wf 524288 [(0, 1), (524287, 2)] = true ∧
    Drive.wf ⟨16, [(15, 3)]⟩ = true := by decide
theorem witness_InvariantKeptByStep : checkpointing.Inv ∧ ∃ t, step checkpointing = .next t :=
  ⟨test_checkpointing_legal, _, rfl⟩

end Sys2Proof.Tests
end

section
/-! SUPPORT. The rules that the statements about instructions share: what a register, a Memory byte and an
input register read after a write, and what each check and each end of an instruction answers, in the terms
of Safety.lean. -/

namespace Sys2Proof.Machine

/-! ### Reading what was written -/

@[simp] theorem reg_setReg_same (s : State) (d : Reg) (v : Byte) : (s.setReg d v).reg d = v :=
  Regs.get_set_same s.regs d v

theorem reg_setReg_ne (s : State) {d q : Reg} (v : Byte) (h : q ≠ d) : (s.setReg d v).reg q = s.reg q :=
  Regs.get_set_ne s.regs v h

@[simp] theorem byte_setByte_same (s : State) (a : Nat) (v : Byte) : (s.setByte a v).byte a = v :=
  cellAt_storeCell_same s.mem a v

theorem byte_setByte_ne (s : State) {a b : Nat} (v : Byte) (h : b ≠ a) : (s.setByte a v).byte b = s.byte b :=
  cellAt_storeCell_ne s.mem v h

/-- An input register holds its byte of the last sample, whatever it held before (20_memory R57, R58). -/
theorem byte_sampleInputs_of_input (s : State) (smp : InputSample) {a : Nat} (hlo : s.params.ioBase ≤ a)
    (hhi : a ≤ s.params.ioLast) :
    (sampleInputs smp s).byte a = (sampleBytes smp).getD (a - s.params.ioBase) 0#8 := by
  have hin : s.params.ioBase ≤ a ∧ a < s.params.ioBase + (sampleBytes smp).length := by
    rw [sampleBytes_length]
    exact ⟨hlo, Nat.lt_succ_of_le hhi⟩
  rw [State.byte, sampleInputs_mem, cellAt_storeBytes, if_pos hin]

/-! ### Checks and ends of an instruction

Each rule takes the answer `res` and an equation for it, so that the rules for the operands of one
instruction chain in the order of its checks. -/

/-- A register check is the statement `OnReg` of its operand. -/
theorem onReg_of_eq_withReg {res : Result} {s : State} {k : Nat} {b : Byte} {f : Reg → Result} {P : Reg → Prop}
    (hres : res = withReg s k b f) (hP : ∀ r, res = f r → P r) : OnReg res s k b P :=
  ⟨fun r hr => hP r (hres.trans (withReg_some hr)),
    fun hb => hres.trans (withReg_none (regOfByte_eq_none.2 hb))⟩

theorem completes_of_eq_retire {res : Result} {len : Nat} {u : State} {P : State → Prop}
    (hres : res = retire len u) (hP : P { u with pc := u.pc + len }) : Completes res P :=
  ⟨_, hres, hP⟩

theorem writesReg_setReg (s : State) (d : Reg) (v : Byte) (len : Nat) :
    WritesReg s { s.setReg d v with pc := s.pc + len } d v len :=
  ⟨reg_setReg_same s d v, fun _ hq => reg_setReg_ne s v hq, fun _ => rfl, rfl⟩

theorem storesByte_setByte (s : State) (a : Nat) (v : Byte) (len : Nat) :
    StoresByte s { s.setByte a v with pc := s.pc + len } a v len :=
  ⟨byte_setByte_same s a v, fun _ hb => byte_setByte_ne s v hb, fun _ => rfl, rfl⟩

theorem onlyMoves_setPc (s : State) (target : Int) : OnlyMoves s { s with pc := target } target :=
  ⟨fun _ => rfl, fun _ => rfl, rfl⟩

/-! ### Pushing -/

/-- The stack pointer falls by one, `v` is stored there, and the program counter moves on by `len`; all
else is as before (40_data_movement R116). -/
def PushesByte (s t : State) (v : Byte) (len : Nat) : Prop :=
  t.byte (s.sp - 1).toNat = v ∧ SameMemoryBut (s.sp - 1).toNat s t ∧ SameRegs s t ∧
    t = { s with mem := t.mem, sp := s.sp - 1, pc := s.pc + len }

/-- A push that finds room goes on. -/
theorem pushByte_of_pos {s : State} (v : Byte) (f : State → Result) (hpos : 0 < s.sp)
    (hle : s.sp ≤ (s.params.memSize : Int)) :
    pushByte s v f = f { s.setByte (s.sp - 1).toNat v with sp := s.sp - 1 } :=
  withMem_in (inMemory_iff.2 (by omega))

/-- A push with the stack full down to address 0 faults (40_data_movement R116). -/
theorem pushByte_of_full {s : State} (v : Byte) (f : State → Result) (hfull : s.sp = 0) :
    pushByte s v f = .next (enterFault (.memoryAddressOutOfBounds (s.sp - 1)) s) := by
  have hout : inMemory s.params.memSize (s.sp - 1) = false := by
    simp [inMemory, hfull]
  exact withMem_out hout

/-- What an instruction that pushes and is done answers, for every stack pointer of a legal state. -/
theorem pushes_of_eq_pushByte {res : Result} {s : State} {v : Byte} {len : Nat}
    (hle : s.sp ≤ (s.params.memSize : Int)) (hres : res = pushByte s v fun t => retire len t) :
    (0 < s.sp → Completes res fun t => PushesByte s t v len) ∧
      (s.sp = 0 → Faults res s (.memoryAddressOutOfBounds (s.sp - 1))) := by
  constructor
  · intro hpos
    refine completes_of_eq_retire (hres.trans (pushByte_of_pos v _ hpos hle)) ?_
    exact ⟨byte_setByte_same s _ v, fun _ hb => byte_setByte_ne s v hb, fun _ => rfl, rfl⟩
  · intro hfull
    exact hres.trans (pushByte_of_full v _ hfull)

end Sys2Proof.Machine
end

section
/-! PROOFS. The statements of data movement and stack (40_data_movement). -/

namespace Sys2Proof.Machine

/-! ### What each instruction does (40_data_movement R110 to R117, R122) -/

theorem exec_ldv (rd imm : Byte) (s : State) :
    exec (.ldv rd imm) s = withReg s 1 rd fun d => retire 3 (s.setReg d imm) := rfl

theorem exec_lda (rd : Byte) (addr : U16) (s : State) :
    exec (.lda rd addr) s = withReg s 1 rd fun d => retire 4 (s.setReg d (s.byte addr.toNat)) := rfl

theorem exec_sta (rs : Byte) (addr : U16) (s : State) :
    exec (.sta rs addr) s = withReg s 1 rs fun r => retire 4 (s.setByte (absolute addr) (s.reg r)) := rfl

theorem exec_sva (imm : Byte) (addr : U16) (s : State) :
    exec (.sva imm addr) s = retire 4 (s.setByte (absolute addr) imm) := rfl

theorem exec_mov (rd rs : Byte) (s : State) :
    exec (.mov rd rs) s = withReg s 1 rd fun d => withReg s 2 rs fun r => retire 3 (s.setReg d (s.reg r)) := rfl

theorem exec_lvz (rd imm rg : Byte) (s : State) :
    exec (.lvz rd imm rg) s = withReg s 1 rd fun d => withReg s 3 rg fun g =>
      if s.reg g = 0#8 then retire 4 (s.setReg d imm) else retire 4 s := rfl

theorem exec_lvnz (rd imm rg : Byte) (s : State) :
    exec (.lvnz rd imm rg) s = withReg s 1 rd fun d => withReg s 3 rg fun g =>
      if s.reg g ≠ 0#8 then retire 4 (s.setReg d imm) else retire 4 s := rfl

theorem exec_psh (rs : Byte) (s : State) :
    exec (.psh rs) s = withReg s 1 rs fun r => pushByte s (s.reg r) fun t => retire 2 t := rfl

theorem exec_psv (imm : Byte) (s : State) : exec (.psv imm) s = pushByte s imm fun t => retire 2 t := rfl

/-! ### The statements -/

/-- Settles O1: the register check, then one register write. -/
theorem ldvLoadsImmediate : Obligations.LdvLoadsImmediate := by
  intro rd imm s
  refine ⟨rfl, onReg_of_eq_withReg (exec_ldv rd imm s) fun d hd => ?_⟩
  exact completes_of_eq_retire hd (writesReg_setReg s d imm 3)

/-- Settles O2: LDA checks no address, and the byte it reads is the sample's where the address is an input
register's. -/
theorem ldaLoadsByte : Obligations.LdaLoadsByte := by
  intro rd addr s
  refine ⟨rfl, onReg_of_eq_withReg (exec_lda rd addr s) fun d hd => ?_⟩
  refine completes_of_eq_retire hd ⟨writesReg_setReg s d _ 4, ?_⟩
  intro smp before hs hlo hhi
  subst hs
  calc ((sampleInputs smp before).setReg d ((sampleInputs smp before).byte addr.toNat)).reg d
      = (sampleInputs smp before).byte addr.toNat := reg_setReg_same _ d _
    _ = (sampleBytes smp).getD (addr.toNat - before.params.ioBase) 0#8 :=
        byte_sampleInputs_of_input before smp hlo hhi

/-- Settles O4: STA and SVA are one byte write each, STA's after the register check. -/
theorem staSvaStoreOneByte : Obligations.StaSvaStoreOneByte := by
  refine ⟨fun rs addr s => ⟨rfl, ?sta⟩, fun imm addr s => ⟨rfl, ?sva⟩, ?sample⟩
  case sta =>
    refine onReg_of_eq_withReg (exec_sta rs addr s) fun r hr => ?_
    exact completes_of_eq_retire hr (storesByte_setByte s (absolute addr) (s.reg r) 4)
  case sva =>
    exact completes_of_eq_retire (exec_sva imm addr s) (storesByte_setByte s (absolute addr) imm 4)
  case sample =>
    intro t smp a hlo hhi
    exact byte_sampleInputs_of_input t smp hlo hhi

/-- Settles O5: the check of `rd` comes first, then that of `rs`, then the register write. -/
theorem movCopiesRegister : Obligations.MovCopiesRegister := by
  intro rd rs s
  refine ⟨rfl, onReg_of_eq_withReg (exec_mov rd rs s) fun d hd => onReg_of_eq_withReg hd fun r hr => ?_⟩
  exact completes_of_eq_retire hr (writesReg_setReg s d (s.reg r) 3)

/-- Settles O6: both register checks stand before the test of the guard. -/
theorem lvzLvnzLoadOnGuard : Obligations.LvzLvnzLoadOnGuard := by
  refine ⟨fun rd imm rg s => ⟨rfl, ?lvz⟩, fun rd imm rg s => ⟨rfl, ?lvnz⟩⟩
  case lvz =>
    refine onReg_of_eq_withReg (exec_lvz rd imm rg s) fun d hd => onReg_of_eq_withReg hd fun g hg => ⟨?_, ?_⟩
    · intro hzero
      exact completes_of_eq_retire (hg.trans (if_pos hzero)) (writesReg_setReg s d imm 4)
    · intro hnonzero
      exact completes_of_eq_retire (hg.trans (if_neg hnonzero)) (onlyMoves_setPc s (s.pc + 4))
  case lvnz =>
    refine onReg_of_eq_withReg (exec_lvnz rd imm rg s) fun d hd => onReg_of_eq_withReg hd fun g hg => ⟨?_, ?_⟩
    · intro hnonzero
      exact completes_of_eq_retire (hg.trans (if_pos hnonzero)) (writesReg_setReg s d imm 4)
    · intro hzero
      exact completes_of_eq_retire (hg.trans (if_neg (not_not.2 hzero))) (onlyMoves_setPc s (s.pc + 4))

/-- Settles O7: PSH and PSV are one push each, PSH's after the register check. -/
theorem pshPsvPush : Obligations.PshPsvPush := by
  intro s _ hle
  refine ⟨fun rs => ⟨rfl, ?psh⟩, fun imm => ⟨rfl, ?psv⟩⟩
  case psh =>
    refine onReg_of_eq_withReg (exec_psh rs s) fun r hr => ?_
    exact pushes_of_eq_pushByte hle hr
  case psv =>
    exact pushes_of_eq_pushByte hle (exec_psv imm s)

end Sys2Proof.Machine
end

section
/-! SUPPORT. The rules of the additions and of the carry flag: what `addInto` answers in the terms of
Safety.lean, and what an instruction answers that moves a register by 1 when C is set, or writes C alone. -/

namespace Sys2Proof.Machine

/-! ### The addition and its carry (41_arithmetic R140) -/

@[simp] theorem carryAfter_sticky (before event : Bool) : carryAfter .sticky before event = (before || event) := rfl

@[simp] theorem carryAfter_overwrite (before event : Bool) : carryAfter .overwrite before event = event := rfl

theorem addOp_value_toNat (policy : CarryPolicy) (carry : Bool) (a b : Byte) :
    (addOp policy carry a b).value.toNat = (a.toNat + b.toNat) % 256 :=
  BitVec.toNat_ofNat (a.toNat + b.toNat) 8

theorem addOp_carry (policy : CarryPolicy) (carry : Bool) (a b : Byte) :
    (addOp policy carry a b).carry = carryAfter policy carry (decide (a.toNat + b.toNat > 255)) := rfl

theorem reg_addInto_same (s : State) (d : Reg) (a b : Byte) :
    (s.addInto d a b).reg d = (addOp s.params.carryPolicy s.carry a b).value :=
  reg_setReg_same s d _

theorem reg_addInto_ne (s : State) {d q : Reg} (a b : Byte) (h : q ≠ d) : (s.addInto d a b).reg q = s.reg q :=
  reg_setReg_ne s _ h

/-- `addInto` at the end of an instruction is the statement `AddsInto`, under both values of CARRY_POLICY. -/
theorem addsInto_addInto (s : State) (d : Reg) (a b : Byte) (len : Nat) :
    AddsInto s { s.addInto d a b with pc := s.pc + len } d a b len := by
  refine ⟨?value, ?sticky, ?overwrite, fun _ hq => reg_addInto_ne s a b hq, fun _ => rfl, rfl⟩
  case value =>
    calc ((s.addInto d a b).reg d).toNat
        = (addOp s.params.carryPolicy s.carry a b).value.toNat := congrArg BitVec.toNat (reg_addInto_same s d a b)
      _ = (a.toNat + b.toNat) % 256 := addOp_value_toNat _ _ a b
  case sticky =>
    intro hpolicy
    rw [addInto_carry, addOp_carry, hpolicy, carryAfter_sticky]
  case overwrite =>
    intro hpolicy
    rw [addInto_carry, addOp_carry, hpolicy, carryAfter_overwrite]

/-! ### Steps of exactly 1 (41_arithmetic R152, R153) -/

theorem byte_sub_one_toNat (v : Byte) : ((v - 1#8).toNat : Int) = (v.toNat - 1 : Int) % 256 := by
  have hsub : (v - 1#8).toNat = (255 + v.toNat) % 256 := BitVec.toNat_sub v 1#8
  omega

/-- A fact about the value that was written is a fact about the register after the write. -/
theorem WritesReg.about_reg {s t : State} {d : Reg} {v : Byte} {len : Nat} (h : WritesReg s t d v len)
    (P : Byte → Prop) (hP : P v) : WritesReg s t d (t.reg d) len ∧ P (t.reg d) := by
  obtain ⟨rfl, hframe⟩ := h
  exact ⟨⟨rfl, hframe⟩, hP⟩

/-- ADC and SBC differ only in the value that they write: one register write with C set, none with C clear,
and C itself is kept. -/
theorem writesIfCarry_of_eq_ite {res : Result} {s : State} {a : Reg} {v : Byte} {len : Nat}
    (hres : res = if s.carry then retire len (s.setReg a v) else retire len s) (P : Byte → Prop) (hP : P v) :
    (s.carry = true → Completes res fun t => WritesReg s t a (t.reg a) len ∧ P (t.reg a)) ∧
      (s.carry = false → Completes res fun t => OnlyMoves s t (s.pc + len)) := by
  constructor
  · intro hset
    exact completes_of_eq_retire (hres.trans (if_pos hset)) ((writesReg_setReg s a v len).about_reg P hP)
  · intro hclear
    exact completes_of_eq_retire (hres.trans (if_neg (Bool.eq_false_iff.1 hclear))) (onlyMoves_setPc s (s.pc + len))

/-! ### Writing C alone (41_arithmetic R154, R155) -/

theorem completes_of_eq_retire_carry {res : Result} {s : State} {c : Bool} {len : Nat}
    (hres : res = retire len { s with carry := c }) :
    Completes res fun t => SameRegs s t ∧ SameMemory s t ∧ t = { s with carry := c, pc := s.pc + len } :=
  completes_of_eq_retire hres ⟨fun _ => rfl, fun _ => rfl, rfl⟩

end Sys2Proof.Machine
end

section
/-! PROOFS. The statements of arithmetic and carry (41_arithmetic). -/

namespace Sys2Proof.Machine

/-! ### What each instruction does (41_arithmetic R142, R143, R146, R147, R150, R152 to R155) -/

theorem exec_add (ra rb : Byte) (s : State) :
    exec (.add ra rb) s = withReg s 1 ra fun a => withReg s 2 rb fun b =>
      retire 3 (s.addInto a (s.reg a) (s.reg b)) := rfl

theorem exec_addv (ra imm : Byte) (s : State) :
    exec (.addv ra imm) s = withReg s 1 ra fun a => retire 3 (s.addInto a (s.reg a) imm) := rfl

theorem exec_add3 (ra rb rd : Byte) (s : State) :
    exec (.add3 ra rb rd) s = withReg s 1 ra fun a => withReg s 2 rb fun b => withReg s 3 rd fun d =>
      retire 4 (s.addInto d (s.reg a) (s.reg b)) := rfl

theorem exec_addv3 (ra imm rd : Byte) (s : State) :
    exec (.addv3 ra imm rd) s = withReg s 1 ra fun a => withReg s 3 rd fun d =>
      retire 4 (s.addInto d (s.reg a) imm) := rfl

theorem exec_inc (r : Byte) (s : State) :
    exec (.inc r) s = withReg s 1 r fun a => retire 2 (s.addInto a (s.reg a) 1#8) := rfl

theorem exec_adc (r : Byte) (s : State) :
    exec (.adc r) s = withReg s 1 r fun a =>
      if s.carry then retire 2 (s.setReg a (s.reg a + 1#8)) else retire 2 s := rfl

theorem exec_sbc (r : Byte) (s : State) :
    exec (.sbc r) s = withReg s 1 r fun a =>
      if s.carry then retire 2 (s.setReg a (s.reg a - 1#8)) else retire 2 s := rfl

theorem exec_ccf (s : State) : exec .ccf s = retire 1 { s with carry := false } := rfl

theorem exec_scf (s : State) : exec .scf s = retire 1 { s with carry := true } := rfl

/-! ### The statements -/

/-- Settles O9: the register checks in operand order, then one `addInto` of sources read before the write. -/
theorem additionsAddAndCarry : Obligations.AdditionsAddAndCarry := by
  refine ⟨fun ra rb s => ⟨rfl, ?add⟩, fun ra imm s => ⟨rfl, ?addv⟩, fun ra rb rd s => ⟨rfl, ?add3⟩,
    fun ra imm rd s => ⟨rfl, ?addv3⟩, fun r s => ⟨rfl, ?inc⟩⟩
  case add =>
    refine onReg_of_eq_withReg (exec_add ra rb s) fun a ha => onReg_of_eq_withReg ha fun b hb => ?_
    exact completes_of_eq_retire hb (addsInto_addInto s a (s.reg a) (s.reg b) 3)
  case addv =>
    refine onReg_of_eq_withReg (exec_addv ra imm s) fun a ha => ?_
    exact completes_of_eq_retire ha (addsInto_addInto s a (s.reg a) imm 3)
  case add3 =>
    refine onReg_of_eq_withReg (exec_add3 ra rb rd s) fun a ha => onReg_of_eq_withReg ha fun b hb =>
      onReg_of_eq_withReg hb fun d hd => ?_
    exact completes_of_eq_retire hd (addsInto_addInto s d (s.reg a) (s.reg b) 4)
  case addv3 =>
    refine onReg_of_eq_withReg (exec_addv3 ra imm rd s) fun a ha => onReg_of_eq_withReg ha fun d hd => ?_
    exact completes_of_eq_retire hd (addsInto_addInto s d (s.reg a) imm 4)
  case inc =>
    refine onReg_of_eq_withReg (exec_inc r s) fun a ha => ?_
    exact completes_of_eq_retire ha (addsInto_addInto s a (s.reg a) 1#8 2)

/-- Settles O11: with C set the register moves by exactly 1 mod 256; with C clear only `pc` moves. -/
theorem adcSbcUseCarry : Obligations.AdcSbcUseCarry := by
  refine ⟨fun r s => ⟨rfl, ?adc⟩, fun r s => ⟨rfl, ?sbc⟩⟩
  case adc =>
    refine onReg_of_eq_withReg (exec_adc r s) fun a ha => ?_
    exact writesIfCarry_of_eq_ite ha (fun v => v.toNat = ((s.reg a).toNat + 1) % 256)
      (BitVec.toNat_add (s.reg a) 1#8)
  case sbc =>
    refine onReg_of_eq_withReg (exec_sbc r s) fun a ha => ?_
    exact writesIfCarry_of_eq_ite ha (fun v => (v.toNat : Int) = ((s.reg a).toNat - 1 : Int) % 256)
      (byte_sub_one_toNat (s.reg a))

/-- Settles O12: each is one write of C. -/
theorem ccfScfWriteCarry : Obligations.CcfScfWriteCarry := by
  intro s
  exact ⟨rfl, rfl, completes_of_eq_retire_carry (exec_ccf s), completes_of_eq_retire_carry (exec_scf s)⟩

end Sys2Proof.Machine
end

section
/-! SUPPORT. The rules of control flow: what a jump and the fetch after it answer in the terms of Safety.lean,
and the two readings of a displacement. -/

namespace Sys2Proof.Machine

theorem completes_of_eq_jumpTo {res : Result} {target : Int} {u : State} {P : State → Prop}
    (hres : res = jumpTo target u) (hP : P { u with pc := target }) : Completes res P :=
  ⟨_, hres, hP⟩

theorem sext8_eq_toInt (v : Byte) : sext8 v = v.toInt := by
  rw [sext8, BitVec.toInt_eq_toNat_cond]
  split <;> split <;> omega

theorem relative_eq_sext8 (s : State) (d : Byte) : relative s d = s.pc + sext8 d + 1 := by
  rw [relative, sext8_eq_toInt]

/-- A pc-relative jump is one move to the target, which no check looks at (42_control_flow R171). -/
theorem completes_onlyMoves_of_eq_jumpTo {res : Result} {s : State} {d : Byte}
    (hres : res = jumpTo (relative s d) s) : Completes res fun t => OnlyMoves s t (s.pc + sext8 d + 1) :=
  completes_of_eq_jumpTo (hres.trans (by rw [relative_eq_sext8])) (onlyMoves_setPc s _)

theorem completes_onlyMoves_of_eq_retire {res : Result} {s : State} {len : Nat} (hres : res = retire len s) :
    Completes res fun t => OnlyMoves s t (s.pc + len) :=
  completes_of_eq_retire hres (onlyMoves_setPc s _)

/-- No instruction is fetched outside Memory (10_state R25). -/
theorem fetch_of_pc_out {s : State} (hout : inMemory s.params.memSize s.pc = false) :
    fetch s = .error (.memoryAddressOutOfBounds s.pc) := by
  simp [fetch, hout]

theorem runInstruction_of_fetch_error {s : State} {f : EngineFault} (h : fetch s = .error f) :
    Faults (runInstruction s) s f := by
  simp [Faults, runInstruction, raiseFault, h]

end Sys2Proof.Machine
end

section
/-! PROOFS. The statements of control flow (42_control_flow). -/

namespace Sys2Proof.Machine

/-! ### What each instruction does (42_control_flow R172 to R174, R178) -/

theorem exec_jmp (d : Byte) (s : State) : exec (.jmp d) s = jumpTo (relative s d) s := rfl

theorem exec_jpz (d rg : Byte) (s : State) :
    exec (.jpz d rg) s = withReg s 2 rg fun g =>
      if s.reg g = 0#8 then jumpTo (relative s d) s else retire 3 s := rfl

theorem exec_jpnz (d rg : Byte) (s : State) :
    exec (.jpnz d rg) s = withReg s 2 rg fun g =>
      if s.reg g ≠ 0#8 then jumpTo (relative s d) s else retire 3 s := rfl

theorem exec_ret_cons {s : State} {record : ReturnRecord} {rest : List ReturnRecord} (hcs : s.cs = record :: rest) :
    exec .ret s = jumpTo record.resume { s with cs := rest } := by
  change execRet s = _
  rw [execRet, hcs]

theorem exec_ret_nil {s : State} (hcs : s.cs = []) : Faults (exec .ret s) s .emptyCallStack := by
  change execRet s = _
  rw [execRet, hcs, raiseFault]

/-! ### The statements -/

/-- Settles O13: the register check stands before the test of the guard, no check looks at the target, and the
fetch is what faults on it. -/
theorem jumpsAreRelative : Obligations.JumpsAreRelative := by
  refine ⟨fun d s => ⟨rfl, ?jmp⟩, fun d rg s => ⟨rfl, ?jpz⟩, fun d rg s => ⟨rfl, ?jpnz⟩, ?outOfRange⟩
  case jmp =>
    exact completes_onlyMoves_of_eq_jumpTo (exec_jmp d s)
  case jpz =>
    refine onReg_of_eq_withReg (exec_jpz d rg s) fun g hg => ⟨?_, ?_⟩
    · intro hzero
      exact completes_onlyMoves_of_eq_jumpTo (hg.trans (if_pos hzero))
    · intro hnonzero
      exact completes_onlyMoves_of_eq_retire (hg.trans (if_neg hnonzero))
  case jpnz =>
    refine onReg_of_eq_withReg (exec_jpnz d rg s) fun g hg => ⟨?_, ?_⟩
    · intro hnonzero
      exact completes_onlyMoves_of_eq_jumpTo (hg.trans (if_pos hnonzero))
    · intro hzero
      exact completes_onlyMoves_of_eq_retire (hg.trans (if_neg (not_not.2 hzero)))
  case outOfRange =>
    intro t hout
    exact ⟨_, runInstruction_of_fetch_error (fetch_of_pc_out hout)⟩

/-- Settles O15: by the two forms of the CallStack; the record's site is never read. -/
theorem retPopsAndResumes : Obligations.RetPopsAndResumes := by
  intro s
  refine ⟨rfl, ?pops, exec_ret_nil⟩
  intro record rest hcs
  exact completes_of_eq_jumpTo (exec_ret_cons hcs) ⟨fun _ => rfl, fun _ => rfl, rfl⟩

end Sys2Proof.Machine
end

section
/-! SUPPORT. The rules of a register pair: the bounds of the 16-bit values, and what the two registers hold after
a pair is written. -/

namespace Sys2Proof.Machine

/-! ### Bounds (43_wide_math R201, R202) -/

/-- A product of two bytes fits a register pair, so MLT loses nothing. -/
theorem byte_mul_byte_lt (a b : Byte) : a.toNat * b.toNat < 65536 :=
  Nat.mul_lt_mul'' a.isLt b.isLt

theorem pairValue_lt (s : State) (h l : Reg) : pairValue s h l < 65536 := by
  have hhigh := (s.reg h).isLt
  have hlow := (s.reg l).isLt
  rw [pairValue]
  omega

/-- A quotient is no more than its dividend, so DIV loses nothing either. -/
theorem pairValue_div_lt (s : State) (h l : Reg) (v : Nat) : pairValue s h l / v < 65536 :=
  Nat.lt_of_le_of_lt (Nat.div_le_self _ v) (pairValue_lt s h l)

/-! ### Reading what was written (43_wide_math R200) -/

/-- The low byte is written last, so its register holds it whatever the other register is. -/
theorem reg_writePair_low (s : State) (h l : Reg) (v : Nat) : (writePair s h l v).reg l = BitVec.ofNat 8 v :=
  reg_setReg_same _ l _

theorem reg_writePair_high (s : State) {h l : Reg} (v : Nat) (hne : h ≠ l) :
    (writePair s h l v).reg h = BitVec.ofNat 8 (v / 256) :=
  (reg_setReg_ne _ _ hne).trans (reg_setReg_same s h _)

theorem reg_writePair_ne (s : State) {h l q : Reg} (v : Nat) (hh : q ≠ h) (hl : q ≠ l) :
    (writePair s h l v).reg q = s.reg q :=
  (reg_setReg_ne _ _ hl).trans (reg_setReg_ne s _ hh)

/-- `writePair` of a 16-bit value at the end of an instruction is the statement `WritesPair`. -/
theorem writesPair_writePair (s : State) (h l : Reg) {v : Nat} (len : Nat) (hv : v < 65536) :
    WritesPair s { writePair s h l v with pc := s.pc + len } h l v len := by
  refine ⟨?low, ?high, fun _ hh hl => reg_writePair_ne s v hh hl, fun _ => rfl, rfl⟩
  case low =>
    calc ((writePair s h l v).reg l).toNat
        = (BitVec.ofNat 8 v).toNat := congrArg BitVec.toNat (reg_writePair_low s h l v)
      _ = v % 256 := BitVec.toNat_ofNat v 8
  case high =>
    intro hne
    calc ((writePair s h l v).reg h).toNat
        = (BitVec.ofNat 8 (v / 256)).toNat := congrArg BitVec.toNat (reg_writePair_high s v hne)
      _ = v / 256 % 256 := BitVec.toNat_ofNat (v / 256) 8
      _ = v / 256 := Nat.mod_eq_of_lt (Nat.div_lt_of_lt_mul hv)

end Sys2Proof.Machine
end

section
/-! PROOFS. The statements of wide math (43_wide_math). -/

namespace Sys2Proof.Machine

/-! ### What each instruction does (43_wide_math R201, R202) -/

theorem exec_mlt (ra rb rh rl : Byte) (s : State) :
    exec (.mlt ra rb rh rl) s = withReg s 1 ra fun a => withReg s 2 rb fun b => withReg s 3 rh fun h =>
      withReg s 4 rl fun l => retire 5 (writePair s h l ((s.reg a).toNat * (s.reg b).toNat)) := rfl

theorem exec_div (ah al bh bl qh ql : Byte) (s : State) :
    exec (.div ah al bh bl qh ql) s = withReg s 1 ah fun a1 => withReg s 2 al fun a0 =>
      withReg s 3 bh fun b1 => withReg s 4 bl fun b0 => withReg s 5 qh fun q1 => withReg s 6 ql fun q0 =>
        if pairValue s b1 b0 = 0 then raiseFault .divideByZero s
        else retire 7 (writePair s q1 q0 (pairValue s a1 a0 / pairValue s b1 b0)) := rfl

/-! ### The statements -/

/-- Settles O18: the four register checks in operand order, then one pair write of a product that fits 16
bits. -/
theorem mltMultiplies : Obligations.MltMultiplies := by
  intro ra rb rh rl s
  refine ⟨rfl, onReg_of_eq_withReg (exec_mlt ra rb rh rl s) fun a ha => onReg_of_eq_withReg ha fun b hb =>
    onReg_of_eq_withReg hb fun h hh => onReg_of_eq_withReg hh fun l hl => ?_⟩
  exact completes_of_eq_retire hl (writesPair_writePair s h l 5 (byte_mul_byte_lt (s.reg a) (s.reg b)))

/-- Settles O19: the six register checks in operand order stand before the test of the divisor; past it there
is one pair write of a quotient no more than the dividend. -/
theorem divDivides : Obligations.DivDivides := by
  intro ah al bh bl qh ql s
  refine ⟨rfl, onReg_of_eq_withReg (exec_div ah al bh bl qh ql s) fun a1 ha1 =>
    onReg_of_eq_withReg ha1 fun a0 ha0 => onReg_of_eq_withReg ha0 fun b1 hb1 =>
    onReg_of_eq_withReg hb1 fun b0 hb0 => onReg_of_eq_withReg hb0 fun q1 hq1 =>
    onReg_of_eq_withReg hq1 fun q0 hq0 => ⟨?zero, ?nonzero⟩⟩
  case zero =>
    intro hzero
    exact hq0.trans (if_pos hzero)
  case nonzero =>
    intro hnonzero
    exact completes_of_eq_retire (hq0.trans (if_neg hnonzero))
      (writesPair_writePair s q1 q0 7 (pairValue_div_lt s a1 a0 (pairValue s b1 b0)))

end Sys2Proof.Machine
end

section
/-! SUPPORT. The rules of Drive I/O: what a Drive byte and a Memory byte read after a store or a block copy, and
what the Drive check and the block check answer in the terms of Safety.lean. -/

namespace Sys2Proof.Machine

/-! ### Reading what was written (44_drive_io R210) -/

@[simp] theorem driveByte_setDriveByte_same (s : State) (a : Nat) (v : Byte) : (s.setDriveByte a v).driveByte a = v :=
  cellAt_storeCell_same s.drive.cells a v

theorem driveByte_setDriveByte_ne (s : State) {a b : Nat} (v : Byte) (h : b ≠ a) :
    (s.setDriveByte a v).driveByte b = s.driveByte b :=
  cellAt_storeCell_ne s.drive.cells v h

/-- `setDriveByte` at the end of an instruction is the statement `StoresDriveByte`. -/
theorem storesDriveByte_setDriveByte (s : State) (a : Nat) (v : Byte) (len : Nat) :
    StoresDriveByte s { s.setDriveByte a v with pc := s.pc + len } a v len :=
  ⟨driveByte_setDriveByte_same s a v, fun _ hb => driveByte_setDriveByte_ne s v hb, rfl, fun _ => rfl,
    fun _ => rfl, rfl⟩

/-- `cellAt_copyCells` in the form in which the statements count a block's bytes. -/
theorem cellAt_copyCells_in (src dst : Cells) {n i : Nat} (f t : Nat) (hi : i < n) :
    cellAt (copyCells src n f dst t) (t + i) = cellAt src (f + i) := by
  rw [cellAt_copyCells, if_pos ⟨Nat.le_add_right t i, Nat.add_lt_add_left hi t⟩, Nat.add_sub_cancel_left]

theorem cellAt_copyCells_out (src dst : Cells) {n t b : Nat} (f : Nat) (hb : ¬ (t ≤ b ∧ b < t + n)) :
    cellAt (copyCells src n f dst t) b = cellAt dst b := by
  rw [cellAt_copyCells, if_neg hb]

theorem byte_copyFromDrive_in (s : State) {n i : Nat} (d m : Nat) (hi : i < n) :
    (s.copyFromDrive d m n).byte (m + i) = s.driveByte (d + i) :=
  cellAt_copyCells_in s.drive.cells s.mem d m hi

theorem byte_copyFromDrive_out (s : State) {m n a : Nat} (d : Nat) (ha : ¬ (m ≤ a ∧ a < m + n)) :
    (s.copyFromDrive d m n).byte a = s.byte a :=
  cellAt_copyCells_out s.drive.cells s.mem d ha

theorem driveByte_copyToDrive_in (s : State) {n i : Nat} (m d : Nat) (hi : i < n) :
    (s.copyToDrive m d n).driveByte (d + i) = s.byte (m + i) :=
  cellAt_copyCells_in s.mem s.drive.cells m d hi

theorem driveByte_copyToDrive_out (s : State) {d n a : Nat} (m : Nat) (ha : ¬ (d ≤ a ∧ a < d + n)) :
    (s.copyToDrive m d n).driveByte a = s.driveByte a :=
  cellAt_copyCells_out s.mem s.drive.cells m ha

/-- The `n` Memory bytes from `m` on become the Drive bytes from `d` on, and the program counter moves on by
`len`; all else is as before (44_drive_io R214). -/
def CopiesToMemory (s t : State) (d m n len : Nat) : Prop :=
  (∀ i, i < n → t.byte (m + i) = s.driveByte (d + i)) ∧
    (∀ a, ¬ (m ≤ a ∧ a < m + n) → t.byte a = s.byte a) ∧ SameRegs s t ∧ t = { s with mem := t.mem, pc := s.pc + len }

/-- The `n` Drive bytes from `d` on become the Memory bytes from `m` on, the Drive's length stays, and the
program counter moves on by `len`; all else is as before (44_drive_io R215). -/
def CopiesToDrive (s t : State) (m d n len : Nat) : Prop :=
  (∀ i, i < n → t.driveByte (d + i) = s.byte (m + i)) ∧
    (∀ a, ¬ (d ≤ a ∧ a < d + n) → t.driveByte a = s.driveByte a) ∧
    t.drive.len = s.drive.len ∧ SameRegs s t ∧ SameMemory s t ∧ t = { s with drive := t.drive, pc := s.pc + len }

theorem copiesToMemory_copyFromDrive (s : State) (d m n len : Nat) :
    CopiesToMemory s { s.copyFromDrive d m n with pc := s.pc + len } d m n len :=
  ⟨fun _ hi => byte_copyFromDrive_in s d m hi, fun _ ha => byte_copyFromDrive_out s d ha, fun _ => rfl, rfl⟩

theorem copiesToDrive_copyToDrive (s : State) (m d n len : Nat) :
    CopiesToDrive s { s.copyToDrive m d n with pc := s.pc + len } m d n len :=
  ⟨fun _ hi => driveByte_copyToDrive_in s m d hi, fun _ ha => driveByte_copyToDrive_out s m ha, rfl,
    fun _ => rfl, fun _ => rfl, rfl⟩

/-! ### Checks of one address (20_memory R52, R53) -/

theorem withMem_of_lt {s : State} {a : Nat} (f : Nat → Result) (h : a < s.params.memSize) : withMem s a f = f a :=
  withMem_in (inMemory_iff.2 (by omega))

theorem withMem_of_le {s : State} {a : Nat} (f : Nat → Result) (h : s.params.memSize ≤ a) :
    withMem s a f = .next (enterFault (.memoryAddressOutOfBounds a) s) := by
  have hout : inMemory s.params.memSize a = false := by
    rw [inMemory, decide_eq_false_iff_not]
    omega
  exact withMem_out hout

/-- What an instruction that checks a Drive address, stores a byte there and is done answers. -/
theorem storesDriveByte_of_eq_withDrive {res : Result} {s : State} {d : U32} {v : Byte} {len : Nat}
    (hres : res = withDrive s d (retire len (s.setDriveByte d.toNat v))) :
    (d.toNat < s.drive.len → Completes res fun t => StoresDriveByte s t d.toNat v len) ∧
      (s.drive.len ≤ d.toNat → Faults res s (.driveAddressOutOfBounds d.toNat)) := by
  constructor
  · intro hin
    exact completes_of_eq_retire (hres.trans (withDrive_in hin)) (storesDriveByte_setDriveByte s d.toNat v len)
  · intro hout
    exact hres.trans (withDrive_out hout)

/-! ### The check of a block (44_drive_io R214, R215) -/

theorem withBlock_in {s : State} {d : U32} {m : U24} {n : U16} {next : Result}
    (hdrive : d.toNat + n.toNat ≤ s.drive.len) (hmem : m.toNat + n.toNat ≤ s.params.memSize) :
    withBlock s d m n next = next := by
  rw [withBlock, if_neg (Nat.not_lt.2 hdrive), if_neg (Nat.not_lt.2 hmem)]

theorem withBlock_drive_out {s : State} {d : U32} {m : U24} {n : U16} {next : Result}
    (hdrive : s.drive.len < d.toNat + n.toNat) :
    withBlock s d m n next = .next (enterFault (.driveAddressOutOfBounds (max d.toNat s.drive.len)) s) := by
  rw [withBlock, if_pos hdrive, raiseFault]

theorem withBlock_mem_out {s : State} {d : U32} {m : U24} {n : U16} {next : Result}
    (hdrive : d.toNat + n.toNat ≤ s.drive.len) (hmem : s.params.memSize < m.toNat + n.toNat) :
    withBlock s d m n next =
      .next (enterFault (.memoryAddressOutOfBounds (max m.toNat s.params.memSize : Nat)) s) := by
  rw [withBlock, if_neg (Nat.not_lt.2 hdrive), if_pos hmem, raiseFault]

/-- LDML and SMDL differ only in the copy they end in: `copied` is the state after it, and `P` what is said of
that state once the program counter has moved on. -/
theorem copiesBlock_of_eq_withBlock {res : Result} {s copied : State} {d : U32} {m : U24} {n : U16} {len : Nat}
    {P : State → Prop}
    (hres : res = if n = 0#16 then retire len s else withBlock s d m n (retire len copied))
    (hP : P { copied with pc := copied.pc + len }) :
    (n = 0#16 → Completes res fun t => OnlyMoves s t (s.pc + len)) ∧
    (n ≠ 0#16 → d.toNat + n.toNat ≤ s.drive.len → m.toNat + n.toNat ≤ s.params.memSize → Completes res P) ∧
    (n ≠ 0#16 → s.drive.len < d.toNat + n.toNat →
      Faults res s (.driveAddressOutOfBounds (max d.toNat s.drive.len))) ∧
    (n ≠ 0#16 → d.toNat + n.toNat ≤ s.drive.len → s.params.memSize < m.toNat + n.toNat →
      Faults res s (.memoryAddressOutOfBounds (max m.toNat s.params.memSize : Nat))) := by
  refine ⟨?empty, ?inside, ?pastDrive, ?pastMemory⟩
  case empty =>
    intro hzero
    exact completes_onlyMoves_of_eq_retire (hres.trans (if_pos hzero))
  case inside =>
    intro hn hdrive hmem
    exact completes_of_eq_retire ((hres.trans (if_neg hn)).trans (withBlock_in hdrive hmem)) hP
  case pastDrive =>
    intro hn hdrive
    exact (hres.trans (if_neg hn)).trans (withBlock_drive_out hdrive)
  case pastMemory =>
    intro hn hdrive hmem
    exact (hres.trans (if_neg hn)).trans (withBlock_mem_out hdrive hmem)

end Sys2Proof.Machine
end

section
/-! PROOFS. The statements of Drive I/O (44_drive_io). -/

namespace Sys2Proof.Machine

/-! ### What each instruction does (44_drive_io R211 to R215) -/

theorem exec_std (rs : Byte) (d : U32) (s : State) :
    exec (.std rs d) s = withReg s 1 rs fun r =>
      withDrive s d (retire 6 (s.setDriveByte d.toNat (s.reg r))) := rfl

theorem exec_svd (imm : Byte) (d : U32) (s : State) :
    exec (.svd imm d) s = withDrive s d (retire 6 (s.setDriveByte d.toNat imm)) := rfl

theorem exec_ldtm (d : U32) (m : U24) (s : State) :
    exec (.ldtm d m) s =
      withDrive s d (withMem s m.toNat fun a => retire 8 (s.setByte a (s.driveByte d.toNat))) := rfl

theorem exec_ldml (d : U32) (m : U24) (n : U16) (s : State) :
    exec (.ldml d m n) s = if n = 0#16 then retire 10 s
      else withBlock s d m n (retire 10 (s.copyFromDrive d.toNat m.toNat n.toNat)) := rfl

theorem exec_smdl (m : U24) (d : U32) (n : U16) (s : State) :
    exec (.smdl m d n) s = if n = 0#16 then retire 10 s
      else withBlock s d m n (retire 10 (s.copyToDrive m.toNat d.toNat n.toNat)) := rfl

/-! ### The statements -/

/-- Settles O20: STD's register check, then for both the Drive check and one byte write. -/
theorem stdSvdStoreDriveByte : Obligations.StdSvdStoreDriveByte := by
  refine ⟨fun rs d s => ⟨rfl, ?std⟩, fun imm d s => ⟨rfl, ?svd⟩⟩
  case std =>
    refine onReg_of_eq_withReg (exec_std rs d s) fun r hr => ?_
    exact storesDriveByte_of_eq_withDrive hr
  case svd =>
    exact storesDriveByte_of_eq_withDrive (exec_svd imm d s)

/-- Settles O21: the Drive check, then the Memory check, then one byte write, over which the next sample writes
where the address is an input register's. -/
theorem ldtmCopiesDriveByte : Obligations.LdtmCopiesDriveByte := by
  intro d m s
  refine ⟨rfl, ?copies, ?pastDrive, ?pastMemory, ?sample⟩
  case copies =>
    intro hdrive hmem
    have hchecked := ((exec_ldtm d m s).trans (withDrive_in hdrive)).trans (withMem_of_lt _ hmem)
    exact completes_of_eq_retire hchecked (storesByte_setByte s m.toNat (s.driveByte d.toNat) 8)
  case pastDrive =>
    intro hdrive
    exact (exec_ldtm d m s).trans (withDrive_out hdrive)
  case pastMemory =>
    intro hdrive hmem
    exact ((exec_ldtm d m s).trans (withDrive_in hdrive)).trans (withMem_of_le _ hmem)
  case sample =>
    intro t smp hlo hhi
    exact byte_sampleInputs_of_input t smp hlo hhi

/-- Settles O22: the block check, then one `copyFromDrive`, which writes the block's addresses and no other. -/
theorem ldmlCopiesBlockToMemory : Obligations.LdmlCopiesBlockToMemory := by
  intro d m n s
  exact ⟨rfl, copiesBlock_of_eq_withBlock (exec_ldml d m n s)
    (copiesToMemory_copyFromDrive s d.toNat m.toNat n.toNat 10)⟩

/-- Settles O23: the block check, then one `copyToDrive`; what it reads from an input register is the byte of
the cycle's sample. -/
theorem smdlCopiesBlockToDrive : Obligations.SmdlCopiesBlockToDrive := by
  intro m d n s
  obtain ⟨hempty, hinside, hpastDrive, hpastMemory⟩ :=
    copiesBlock_of_eq_withBlock (P := fun t => CopiesToDrive s t m.toNat d.toNat n.toNat 10) (exec_smdl m d n s)
      (copiesToDrive_copyToDrive s m.toNat d.toNat n.toNat 10)
  refine ⟨rfl, hempty, hinside, hpastDrive, hpastMemory, ?sample⟩
  intro before smp a hs hlo hhi
  subst hs
  exact byte_sampleInputs_of_input before smp hlo hhi

end Sys2Proof.Machine
end

section
/-! SUPPORT. The rules of presentation: one record at the end of an instruction, in the terms of Safety.lean. -/

namespace Sys2Proof.Machine

/-- `emit` at the end of an instruction is the statement `Emits`. -/
theorem emits_emit (s : State) (c : DrawCommand) (len : Nat) :
    Emits s { s.emit c with pc := s.pc + len } c len :=
  ⟨fun _ => rfl, fun _ => rfl, rfl⟩

/-- What an instruction that emits a record and is done answers (45_presentation R230). -/
theorem completes_emits_of_eq_retire {res : Result} {s : State} {c : DrawCommand} {len : Nat}
    (hres : res = retire len (s.emit c)) : Completes res fun t => Emits s t c len :=
  completes_of_eq_retire hres (emits_emit s c len)

end Sys2Proof.Machine
end

section
/-! PROOFS. The statements of presentation (45_presentation). -/

namespace Sys2Proof.Machine

/-! ### What each instruction does (45_presentation R232, R234, R235, R236) -/

theorem exec_txr (rg : Byte) (x y size : U16) (color : Rgba) (s : State) :
    exec (.txr rg x y size color) s =
      withReg s 1 rg fun g => retire 12 (s.emit (.text [s.reg g] x y size color)) := rfl

theorem exec_rct (x y w h : U16) (color : Rgba) (s : State) :
    exec (.rct x y w h color) s = retire 13 (s.emit (.rect x y w h color)) := rfl

theorem exec_crc (x y rad : U16) (color : Rgba) (s : State) :
    exec (.crc x y rad color) s = retire 11 (s.emit (.circle x y rad color)) := rfl

theorem exec_lne (x1 y1 x2 y2 : U16) (color : Rgba) (s : State) :
    exec (.lne x1 y1 x2 y2 color) s = retire 13 (s.emit (.line x1 y1 x2 y2 color)) := rfl

/-! ### The statements -/

/-- Settles O24: TXR's register check, then for all four one `emit` of the operands. -/
theorem directDrawsEmitOneRecord : Obligations.DirectDrawsEmitOneRecord := by
  refine ⟨fun rg x y size color s => ⟨rfl, ?txr⟩, fun x y w h color s => ⟨rfl, ?rct⟩,
    fun x y rad color s => ⟨rfl, ?crc⟩, fun x1 y1 x2 y2 color s => ⟨rfl, ?lne⟩⟩
  case txr =>
    refine onReg_of_eq_withReg (exec_txr rg x y size color s) fun g hg => ?_
    exact completes_emits_of_eq_retire hg
  case rct =>
    exact completes_emits_of_eq_retire (exec_rct x y w h color s)
  case crc =>
    exact completes_emits_of_eq_retire (exec_crc x y rad color s)
  case lne =>
    exact completes_emits_of_eq_retire (exec_lne x1 y1 x2 y2 color s)

end Sys2Proof.Machine
end

section
/-! SUPPORT. The rules of the encoding: what the operand reader of each operation gives back, where its answer
came from, and how many bytes it needs. Each is said of one field first, so that an operation is a chain of its
fields in the order of its layout (30_encoding R90). -/

namespace Sys2Proof

/-! ### Reading the operands that were written (30_encoding R81, R90) -/

/-- The operand reader of an instruction's operation reads back what the encoder wrote for it. -/
theorem decodeOperands_operandBytes {i : Instr} {op : Operation} (hop : i.operation = some op)
    (henc : i.encodable = true) (rest : List Byte) :
    decodeOperands op (i.operandBytes ++ rest) = some (i, rest) := by
  cases i
  case unassigned => cases hop
  case txl | mtxl =>
    cases hop
    simp [decodeOperands, Instr.operandBytes, List.append_assoc, takeGlyphs_bytesGlyphs rest (of_decide_eq_true henc)]
  all_goals
    cases hop
    simp [decodeOperands, Instr.operandBytes, List.append_assoc]

/-! ### Where an answer came from, and how many bytes it needs (30_encoding R85, R89) -/

/-- An operation's reader, once the bytes `done` are read, answers `o` on the bytes `bs` left: each answer is an
instruction of that operation, whose operand bytes are `done` and those taken from `bs`; and `n` bytes are enough
for an answer. -/
def ReadsOperands (op : Operation) (n : Nat) (done bs : List Byte) (o : Option (Instr × List Byte)) : Prop :=
  (∀ i rest, o = some (i, rest) →
    done ++ bs = i.operandBytes ++ rest ∧ i.operation = some op ∧ i.encodable = true) ∧
  (n ≤ bs.length → o.isSome = true)

section
variable {op : Operation} {n : Nat} {done bs : List Byte}

theorem readsOperands_some {i : Instr} (hbytes : i.operandBytes = done) (hop : i.operation = some op)
    (henc : i.encodable = true) : ReadsOperands op n done bs (some (i, bs)) := by
  refine ⟨?_, fun _ => rfl⟩
  rintro _ _ ⟨⟩
  exact ⟨by rw [hbytes], hop, henc⟩

theorem readsOperands_take8 {k : Byte → List Byte → Option (Instr × List Byte)}
    (hk : ∀ b rest, ReadsOperands op n (done ++ [b]) rest (k b rest)) :
    ReadsOperands op (n + 1) done bs (take8 bs k) := by
  refine ⟨fun i rest h => ?_, fun hn => ?_⟩
  · obtain ⟨b, left, rfl, hb⟩ := take8_some h
    simpa using (hk b left).1 i rest hb
  · match bs, hn with
    | b :: left, hn => exact (hk b left).2 (by simpa using hn)

theorem readsOperands_take16 {k : U16 → List Byte → Option (Instr × List Byte)}
    (hk : ∀ v rest, ReadsOperands op n (done ++ bytes16 v) rest (k v rest)) :
    ReadsOperands op (n + 2) done bs (take16 bs k) := by
  refine ⟨fun i rest h => ?_, fun hn => ?_⟩
  · obtain ⟨v, left, rfl, hv⟩ := take16_some h
    simpa using (hk v left).1 i rest hv
  · match bs, hn with
    | b1 :: b0 :: left, hn => exact (hk (be16 b1 b0) left).2 (by simpa using hn)

theorem readsOperands_take24 {k : U24 → List Byte → Option (Instr × List Byte)}
    (hk : ∀ v rest, ReadsOperands op n (done ++ bytes24 v) rest (k v rest)) :
    ReadsOperands op (n + 3) done bs (take24 bs k) := by
  refine ⟨fun i rest h => ?_, fun hn => ?_⟩
  · obtain ⟨v, left, rfl, hv⟩ := take24_some h
    simpa using (hk v left).1 i rest hv
  · match bs, hn with
    | b2 :: b1 :: b0 :: left, hn => exact (hk (be24 b2 b1 b0) left).2 (by simpa using hn)

theorem readsOperands_take32 {k : U32 → List Byte → Option (Instr × List Byte)}
    (hk : ∀ v rest, ReadsOperands op n (done ++ bytes32 v) rest (k v rest)) :
    ReadsOperands op (n + 4) done bs (take32 bs k) := by
  refine ⟨fun i rest h => ?_, fun hn => ?_⟩
  · obtain ⟨v, left, rfl, hv⟩ := take32_some h
    simpa using (hk v left).1 i rest hv
  · match bs, hn with
    | b3 :: b2 :: b1 :: b0 :: left, hn => exact (hk (be32 b3 b2 b1 b0) left).2 (by simpa using hn)

theorem readsOperands_takeRgba {k : Rgba → List Byte → Option (Instr × List Byte)}
    (hk : ∀ c rest, ReadsOperands op n (done ++ bytesRgba c) rest (k c rest)) :
    ReadsOperands op (n + 4) done bs (takeRgba bs k) := by
  refine ⟨fun i rest h => ?_, fun hn => ?_⟩
  · obtain ⟨c, left, rfl, hc⟩ := takeRgba_some h
    simpa using (hk c left).1 i rest hc
  · match bs, hn with
    | r :: g :: b :: a :: left, hn => exact (hk ⟨r, g, b, a⟩ left).2 (by simpa using hn)

theorem takeBytes_isSome {m : Nat} {k : List Byte → List Byte → Option (Instr × List Byte)}
    (hk : ∀ front rest, front.length = m → n ≤ rest.length → (k front rest).isSome = true)
    (hn : n + m ≤ bs.length) : (takeBytes m bs k).isSome = true := by
  induction m generalizing bs k with
  | zero => exact hk [] bs rfl hn
  | succ m ih =>
    match bs, hn with
    | b :: left, hn =>
      exact ih (fun front rest hlen => hk (b :: front) rest (by simp [hlen])) (by simpa [← Nat.add_assoc] using hn)

/-- A count byte counts at most 255 glyphs. -/
theorem readsOperands_takeGlyphs {k : List Byte → List Byte → Option (Instr × List Byte)}
    (hk : ∀ glyphs rest, glyphs.length ≤ 255 →
      ReadsOperands op n (done ++ bytesGlyphs glyphs) rest (k glyphs rest)) :
    ReadsOperands op (n + 256) done bs (takeGlyphs bs k) := by
  refine ⟨fun i rest h => ?_, fun hn => ?_⟩
  · obtain ⟨glyphs, left, hlen, rfl, hg⟩ := takeGlyphs_some h
    simpa using (hk glyphs left hlen).1 i rest hg
  · match bs, hn with
    | count :: left, hn =>
      have hcount := count.isLt
      have hleft : n + 255 ≤ left.length := by simpa using hn
      exact takeBytes_isSome (fun glyphs rest hlen => (hk glyphs rest (by omega)).2)
        (Nat.le_trans (by omega) hleft)

end

/-- What an operation's reader answers is an instruction of that operation, written in the bytes it took; and the
operand bytes of the longest instruction are enough for an answer: MTXL's five words, its colour, its count byte
and 255 glyphs. -/
theorem readsOperands_decodeOperands (op : Operation) (bs : List Byte) :
    ReadsOperands op 270 [] bs (decodeOperands op bs) := by
  unfold decodeOperands
  cases op with
  | ccf | scf | ret | cls | hlt => exact readsOperands_some rfl rfl rfl
  | psh | psv | pop | inc | dec | adc | sbc | jmp | ext =>
    exact readsOperands_take8 fun _ _ => readsOperands_some rfl rfl rfl
  | ldv | mov | add | addv | sub | subv | jpz | jpnz =>
    exact readsOperands_take8 fun _ _ => readsOperands_take8 fun _ _ => readsOperands_some rfl rfl rfl
  | lvz | lvnz | add3 | addv3 | sub3 | subv3 =>
    exact readsOperands_take8 fun _ _ => readsOperands_take8 fun _ _ => readsOperands_take8 fun _ _ =>
      readsOperands_some rfl rfl rfl
  | mlt =>
    exact readsOperands_take8 fun _ _ => readsOperands_take8 fun _ _ => readsOperands_take8 fun _ _ =>
      readsOperands_take8 fun _ _ => readsOperands_some rfl rfl rfl
  | div =>
    exact readsOperands_take8 fun _ _ => readsOperands_take8 fun _ _ => readsOperands_take8 fun _ _ =>
      readsOperands_take8 fun _ _ => readsOperands_take8 fun _ _ => readsOperands_take8 fun _ _ =>
      readsOperands_some rfl rfl rfl
  | popm | fnc | cal => exact readsOperands_take16 fun _ _ => readsOperands_some rfl rfl rfl
  | lda | sta | sva =>
    exact readsOperands_take8 fun _ _ => readsOperands_take16 fun _ _ => readsOperands_some rfl rfl rfl
  | clz | clnz =>
    exact readsOperands_take16 fun _ _ => readsOperands_take8 fun _ _ => readsOperands_some rfl rfl rfl
  | ldo | sto =>
    exact readsOperands_take8 fun _ _ => readsOperands_take16 fun _ _ => readsOperands_take8 fun _ _ =>
      readsOperands_some rfl rfl rfl
  | std | svd =>
    exact readsOperands_take8 fun _ _ => readsOperands_take32 fun _ _ => readsOperands_some rfl rfl rfl
  | ldtm =>
    exact readsOperands_take32 fun _ _ => readsOperands_take24 fun _ _ => readsOperands_some rfl rfl rfl
  | ldml =>
    exact readsOperands_take32 fun _ _ => readsOperands_take24 fun _ _ => readsOperands_take16 fun _ _ =>
      readsOperands_some rfl rfl rfl
  | smdl =>
    exact readsOperands_take24 fun _ _ => readsOperands_take32 fun _ _ => readsOperands_take16 fun _ _ =>
      readsOperands_some rfl rfl rfl
  | txr =>
    exact readsOperands_take8 fun _ _ => readsOperands_take16 fun _ _ => readsOperands_take16 fun _ _ =>
      readsOperands_take16 fun _ _ => readsOperands_takeRgba fun _ _ => readsOperands_some rfl rfl rfl
  | crc =>
    exact readsOperands_take16 fun _ _ => readsOperands_take16 fun _ _ => readsOperands_take16 fun _ _ =>
      readsOperands_takeRgba fun _ _ => readsOperands_some rfl rfl rfl
  | txl =>
    exact readsOperands_take16 fun _ _ => readsOperands_take16 fun _ _ => readsOperands_take16 fun _ _ =>
      readsOperands_takeRgba fun _ _ => readsOperands_takeGlyphs fun _ _ hlen =>
      readsOperands_some rfl rfl (decide_eq_true hlen)
  | rct | lne =>
    exact readsOperands_take16 fun _ _ => readsOperands_take16 fun _ _ => readsOperands_take16 fun _ _ =>
      readsOperands_take16 fun _ _ => readsOperands_takeRgba fun _ _ => readsOperands_some rfl rfl rfl
  | mtxr =>
    exact readsOperands_take8 fun _ _ => readsOperands_take16 fun _ _ => readsOperands_take16 fun _ _ =>
      readsOperands_take16 fun _ _ => readsOperands_take16 fun _ _ => readsOperands_take16 fun _ _ =>
      readsOperands_takeRgba fun _ _ => readsOperands_some rfl rfl rfl
  | mtxl =>
    exact readsOperands_take16 fun _ _ => readsOperands_take16 fun _ _ => readsOperands_take16 fun _ _ =>
      readsOperands_take16 fun _ _ => readsOperands_take16 fun _ _ => readsOperands_takeRgba fun _ _ =>
      readsOperands_takeGlyphs fun _ _ hlen => readsOperands_some rfl rfl (decide_eq_true hlen)
  | mcrc =>
    exact readsOperands_take16 fun _ _ => readsOperands_take16 fun _ _ => readsOperands_take16 fun _ _ =>
      readsOperands_take16 fun _ _ => readsOperands_take16 fun _ _ => readsOperands_takeRgba fun _ _ =>
      readsOperands_some rfl rfl rfl
  | mrct | mlne =>
    exact readsOperands_take16 fun _ _ => readsOperands_take16 fun _ _ => readsOperands_take16 fun _ _ =>
      readsOperands_take16 fun _ _ => readsOperands_take16 fun _ _ => readsOperands_take16 fun _ _ =>
      readsOperands_takeRgba fun _ _ => readsOperands_some rfl rfl rfl

/-! ### Opcode and length -/

/-- An instruction has an operation, or is the unassigned opcode's. -/
theorem Instr.operation_cases (i : Instr) : (∃ op, i.operation = some op) ∨ ∃ code, i = .unassigned code := by
  cases i with
  | unassigned code => exact .inr ⟨code, rfl⟩
  | _ => exact .inl ⟨_, rfl⟩

/-- An encoding has the length that its row gives it (30_encoding R89, R90). -/
theorem encode_length (map : OpcodeMap) (i : Instr) : (encode map i).length = i.len := by
  cases i with
  | txl x y size color glyphs => exact Laws.EncodedLength.txl x y size color glyphs map
  | mtxl x y px py size color glyphs => exact Laws.EncodedLength.mtxl x y px py size color glyphs map
  | _ => rfl

theorem Instr.len_pos (i : Instr) : 0 < i.len := by
  rw [← encode_length standardMap i]
  exact Nat.succ_pos _

/-- No encodable instruction is longer than an MTXL with 255 glyphs (30_encoding R89). -/
theorem Instr.len_le_maxInstrLen {i : Instr} (h : i.encodable = true) : i.len ≤ maxInstrLen := by
  cases i with
  | txl _ _ _ _ glyphs =>
    have hlen : glyphs.length ≤ 255 := of_decide_eq_true h
    simp only [Instr.len, maxInstrLen]
    omega
  | mtxl _ _ _ _ _ _ glyphs =>
    have hlen : glyphs.length ≤ 255 := of_decide_eq_true h
    simp only [Instr.len, maxInstrLen]
    omega
  | _ => simp [Instr.len, maxInstrLen]

/-! ### The decoder -/

section
variable {map : OpcodeMap} {code : Byte} {bs : List Byte}

theorem decode_of_operationAt_none (h : map.operationAt code = none) :
    decode map (code :: bs) = .ok (.unassigned code, bs) := by
  simp [decode, h]

theorem decode_of_operationAt_some {op : Operation} {r : Instr × List Byte} (h : map.operationAt code = some op)
    (hr : decodeOperands op bs = some r) : decode map (code :: bs) = .ok r := by
  simp [decode, h, hr]

/-- What decodes has an opcode byte, and is that unassigned opcode or what its operation's reader answers. -/
theorem decode_ok {i : Instr} {rest : List Byte} (h : decode map bs = .ok (i, rest)) :
    (∃ code, map.operationAt code = none ∧ bs = code :: rest ∧ i = .unassigned code) ∨
      ∃ code left op, bs = code :: left ∧ map.operationAt code = some op ∧
        decodeOperands op left = some (i, rest) := by
  cases bs with
  | nil => cases h
  | cons code left =>
    cases hop : map.operationAt code with
    | none =>
      rw [decode_of_operationAt_none hop] at h
      cases h
      exact .inl ⟨code, hop, rfl, rfl⟩
    | some op =>
      cases hr : decodeOperands op left with
      | none =>
        simp [decode, hop, hr] at h
      | some r =>
        rw [decode_of_operationAt_some hop hr] at h
        cases h
        exact .inr ⟨code, left, op, rfl, hop, hr⟩

end

end Sys2Proof
end

section
/-! PROOFS. The statements of the encoding (30_encoding). -/

namespace Sys2Proof

/-- Settles O31: the opcode byte picks the instruction's operation, whose reader reads its operands back; an
unassigned opcode picks none. -/
theorem decodeEncodeRoundTrip : Obligations.DecodeEncodeRoundTrip := by
  intro map i rest hmap henc
  rcases i.operation_cases with ⟨op, hop⟩ | ⟨code, rfl⟩
  · have hcode : map.operationAt (i.opcode map) = some op := by
      rw [Instr.opcode_of_operation hop, OpcodeMap.operationAt_codeOf hmap]
    exact decode_of_operationAt_some hcode (decodeOperands_operandBytes hop henc rest)
  · exact decode_of_operationAt_none (OpcodeMap.operationAt_of_isUnassigned hmap henc)

/-- Settles O32: by the two ways in which bytes decode. -/
theorem decodedBytesAreTheEncoding : Obligations.DecodedBytesAreTheEncoding := by
  intro map bs rest i hmap h
  rcases decode_ok h with ⟨code, hnone, rfl, rfl⟩ | ⟨code, left, op, rfl, hsome, hr⟩
  · exact ⟨rfl, OpcodeMap.isUnassigned_of_operationAt hmap hnone⟩
  · obtain ⟨hbytes, hop, henc⟩ := (readsOperands_decodeOperands op left).1 i rest hr
    have hcode : i.opcode map = code :=
      (Instr.opcode_of_operation hop).trans (OpcodeMap.codeOf_of_operationAt hmap hsome)
    refine ⟨?_, henc⟩
    calc code :: left = i.opcode map :: (i.operandBytes ++ rest) := by rw [hcode, ← hbytes, List.nil_append]
      _ = encode map i ++ rest := rfl

/-- Settles O33: 270 operand bytes are enough for every operation, and what is decoded is its encoding. -/
theorem everyOpcodeDecodes : Obligations.EveryOpcodeDecodes := by
  intro map op bs hmap hlen
  have hdecodes : ∃ r, decode map (op :: bs) = .ok r := by
    cases hop : map.operationAt op with
    | none => exact ⟨_, decode_of_operationAt_none hop⟩
    | some o =>
      have hanswers := (readsOperands_decodeOperands o bs).2 (Nat.le_of_succ_le_succ hlen)
      obtain ⟨r, hr⟩ := Option.isSome_iff_exists.1 hanswers
      exact ⟨r, decode_of_operationAt_some hop hr⟩
  obtain ⟨⟨i, rest⟩, h⟩ := hdecodes
  obtain ⟨hbytes, -⟩ := decodedBytesAreTheEncoding map (op :: bs) rest i hmap h
  refine ⟨i, rest, h, (List.cons.inj hbytes).1.symm, ?_⟩
  have hcount := congrArg List.length hbytes
  rw [List.length_append, encode_length, List.length_cons] at hcount
  omega

/-- Settles O34: the map's legality is that of the default parameters; each word is evaluated. -/
theorem specWordsDecode : Obligations.SpecWordsDecode :=
  ⟨standardMap_wf, by decide, by decide, by decide, by decide, by decide, by decide, by decide, by decide⟩

end Sys2Proof
end

section
/-! SUPPORT. More rules of single instructions: popping, subtracting, calling, displacing, the scan of FNC, and
the register checks as the first of all. -/

namespace Sys2Proof.Machine

/-! ### Popping (40_data_movement R118) -/

/-- A pop that finds a byte goes on. -/
theorem popByte_of_lt {s : State} (f : Byte → State → Result) (hnonneg : 0 ≤ s.sp)
    (hlt : s.sp < (s.params.memSize : Int)) : popByte s f = f (s.byte s.sp.toNat) { s with sp := s.sp + 1 } :=
  withMem_in (inMemory_iff.2 ⟨hnonneg, hlt⟩)

/-- A pop with the stack empty up to the end of Memory faults. -/
theorem popByte_of_empty {s : State} (f : Byte → State → Result) (hempty : s.sp = (s.params.memSize : Int)) :
    popByte s f = .next (enterFault (.memoryAddressOutOfBounds s.sp) s) :=
  withMem_out (by simp [inMemory, hempty])

/-- What an instruction that pops and is done answers, for every stack pointer of a legal state: `popped` is the
state it ends in. -/
theorem pops_of_eq_popByte {res : Result} {s : State} {len : Nat} {popped : Byte → State → State} {P : State → Prop}
    (hnonneg : 0 ≤ s.sp) (hres : res = popByte s fun v t => retire len (popped v t))
    (hP : ∀ u, u = popped (s.byte s.sp.toNat) { s with sp := s.sp + 1 } → P { u with pc := u.pc + len }) :
    (s.sp < (s.params.memSize : Int) → Completes res P) ∧
      (s.sp = (s.params.memSize : Int) → Faults res s (.memoryAddressOutOfBounds s.sp)) := by
  constructor
  · intro hlt
    exact completes_of_eq_retire (hres.trans (popByte_of_lt _ hnonneg hlt)) (hP _ rfl)
  · intro hempty
    exact hres.trans (popByte_of_empty _ hempty)

/-! ### The subtraction and its borrow (41_arithmetic R141) -/

theorem subOp_value_toNat (policy : CarryPolicy) (carry : Bool) (a b : Byte) :
    ((subOp policy carry a b).value.toNat : Int) = ((a.toNat : Int) - b.toNat) % 256 := by
  rw [subOp, BitVec.toNat_ofInt]
  exact Int.toNat_of_nonneg (Int.emod_nonneg _ (by decide))

theorem subOp_carry (policy : CarryPolicy) (carry : Bool) (a b : Byte) :
    (subOp policy carry a b).carry = carryAfter policy carry (decide (a.toNat < b.toNat)) := by
  have hborrow : ((a.toNat : Int) - b.toNat < 0) ↔ a.toNat < b.toNat := by omega
  simp only [subOp, hborrow]

/-- `subInto` at the end of an instruction is the statement `SubtractsInto`, under both values of
CARRY_POLICY. -/
theorem subtractsInto_subInto (s : State) (d : Reg) (a b : Byte) (len : Nat) :
    SubtractsInto s { s.subInto d a b with pc := s.pc + len } d a b len := by
  refine ⟨?value, ?sticky, ?overwrite, fun _ hq => reg_setReg_ne s _ hq, fun _ => rfl, rfl⟩
  case value =>
    calc (((s.subInto d a b).reg d).toNat : Int)
        = (subOp s.params.carryPolicy s.carry a b).value.toNat :=
          congrArg (fun v : Byte => (v.toNat : Int)) (reg_setReg_same s d _)
      _ = ((a.toNat : Int) - b.toNat) % 256 := subOp_value_toNat _ _ a b
  case sticky =>
    intro hpolicy
    rw [subInto_carry, subOp_carry, hpolicy, carryAfter_sticky]
  case overwrite =>
    intro hpolicy
    rw [subInto_carry, subOp_carry, hpolicy, carryAfter_overwrite]

/-! ### Calls (42_control_flow R179) -/

theorem callFunction_of_lookup {s : State} {id : U16} {len : Nat} {target : Int}
    (h : lookupFunction s.ft id.toNat = some target) :
    callFunction s id len = jumpTo target { s with cs := ⟨s.pc, s.pc + len⟩ :: s.cs } := by
  simp [callFunction, h]

theorem callFunction_of_lookup_none {s : State} {id : U16} {len : Nat} (h : lookupFunction s.ft id.toNat = none) :
    callFunction s id len = .next (enterFault (.unresolvedFunctionReference id) s) := by
  simp [callFunction, h, raiseFault]

theorem calls_of_eq_callFunction {res : Result} {s : State} {id : U16} {len : Nat}
    (hres : res = callFunction s id len) : Calls res s id len := by
  constructor
  · intro target htarget
    exact completes_of_eq_jumpTo (hres.trans (callFunction_of_lookup htarget)) ⟨fun _ => rfl, fun _ => rfl, rfl⟩
  · intro hnone
    exact hres.trans (callFunction_of_lookup_none hnone)

/-! ### Displacement (45_presentation R231) -/

theorem be16_toNat (b1 b0 : Byte) : (be16 b1 b0).toNat = b1.toNat * 256 + b0.toNat := by
  rw [be16, BitVec.toNat_append, ← Nat.shiftLeft_add_eq_or_of_lt b0.isLt, Nat.shiftLeft_eq]

theorem isDisplaced_displaced (s : State) (literal ptr : U16) :
    IsDisplaced s literal ptr (displaced s literal ptr) := by
  rw [IsDisplaced, displaced, BitVec.toNat_add, State.word, be16_toNat]

/-! ### The scan of FNC (42_control_flow R177) -/

section
variable {s : State} {k : Nat}

/-- The scan finds the first RET byte. -/
theorem scanForRet_of_isFirstRet {j : Nat} (hp : s.params.wf = true) (hm : Memory.wf s.params.memSize s.mem = true)
    (h : IsFirstRet s k j) : scanForRet s.params.memSize s.params.retByte s.mem k = some j := by
  obtain ⟨hkj, -, hret, hbefore⟩ := h
  have hr := Params.retByte_ne_zero hp
  have hkj : k ≤ j := by omega
  cases hscan : scanForRet s.params.memSize s.params.retByte s.mem k with
  | none => exact absurd hret (scanForRet_none hr hm hscan j hkj)
  | some i =>
    obtain ⟨hki, -, hreti, hbeforei⟩ := scanForRet_some hr hm hscan
    rcases Nat.lt_trichotomy i j with hlt | heq | hgt
    · exact absurd hreti (hbefore i (by omega) hlt)
    · rw [heq]
    · exact absurd hret (hbeforei j hkj hgt)

/-- The scan finds nothing where there is no RET byte. -/
theorem scanForRet_of_no_ret (hp : s.params.wf = true) (hm : Memory.wf s.params.memSize s.mem = true)
    (h : ∀ a : Nat, k ≤ a → a < s.params.memSize → s.byte a ≠ s.params.retByte) :
    scanForRet s.params.memSize s.params.retByte s.mem k = none := by
  cases hscan : scanForRet s.params.memSize s.params.retByte s.mem k with
  | none => rfl
  | some i =>
    obtain ⟨hki, hin, hret, -⟩ := scanForRet_some (Params.retByte_ne_zero hp) hm hscan
    exact absurd hret (h i hki hin)

end

/-! ### The register checks (30_encoding R86, 60_exceptions R262) -/

/-- The first of the `reg` operands `ops` that is above 7 is the fault that `res` is. -/
def ChecksFirst (s : State) (ops : List (Nat × Byte)) (res : Result) : Prop :=
  ∀ k b, ops.find? (fun p => decide (7 < p.2.toNat)) = some (k, b) → Faults res s (.invalidRegisterIndex b (s.pc + k))

theorem checksFirst_nil {s : State} {res : Result} : ChecksFirst s [] res := by
  rintro _ _ ⟨⟩

theorem checksFirst_withReg {s : State} {k : Nat} {b : Byte} {ops : List (Nat × Byte)} {f : Reg → Result}
    (hf : ∀ r, ChecksFirst s ops (f r)) : ChecksFirst s ((k, b) :: ops) (withReg s k b f) := by
  intro j c h
  by_cases hb : 7 < b.toNat
  · rw [List.find?_cons_of_pos (by simpa using hb)] at h
    cases h
    exact withReg_none (regOfByte_eq_none.2 hb)
  · rw [List.find?_cons_of_neg (by simpa using hb)] at h
    obtain ⟨r, hr⟩ := exists_regOfByte (Nat.le_of_not_lt hb)
    rw [withReg_some hr]
    exact hf r j c h

/-- Every instruction makes the checks of its `reg` operands first, in operand order. -/
theorem exec_checksFirst (i : Instr) (s : State) : ChecksFirst s i.regOperands (exec i s) := by
  cases i with
  | ldv | lda | sta | psh | pop | addv | subv | inc | dec | adc | sbc | jpz | jpnz | clz | clnz | std | txr | mtxr =>
    exact checksFirst_withReg fun _ => checksFirst_nil
  | mov | lvz | lvnz | ldo | sto | add | sub | addv3 | subv3 =>
    exact checksFirst_withReg fun _ => checksFirst_withReg fun _ => checksFirst_nil
  | add3 | sub3 =>
    exact checksFirst_withReg fun _ => checksFirst_withReg fun _ => checksFirst_withReg fun _ => checksFirst_nil
  | mlt =>
    exact checksFirst_withReg fun _ => checksFirst_withReg fun _ => checksFirst_withReg fun _ =>
      checksFirst_withReg fun _ => checksFirst_nil
  | div =>
    exact checksFirst_withReg fun _ => checksFirst_withReg fun _ => checksFirst_withReg fun _ =>
      checksFirst_withReg fun _ => checksFirst_withReg fun _ => checksFirst_withReg fun _ => checksFirst_nil
  | _ => exact checksFirst_nil

end Sys2Proof.Machine
end

section
/-! PROOFS. The statements about single instructions that stand beside those of the families above. -/

namespace Sys2Proof.Machine

/-! ### What each instruction does -/

theorem exec_ldo (rd : Byte) (base : U16) (ri : Byte) (s : State) :
    exec (.ldo rd base ri) s = withReg s 1 rd fun d => withReg s 4 ri fun i =>
      retire 5 (s.setReg d (s.byte (base.toNat + (s.reg i).toNat))) := rfl

theorem exec_sto (rs : Byte) (base : U16) (ri : Byte) (s : State) :
    exec (.sto rs base ri) s = withReg s 1 rs fun r => withReg s 4 ri fun i =>
      retire 5 (s.setByte (indexed s base i) (s.reg r)) := rfl

theorem exec_pop (rd : Byte) (s : State) :
    exec (.pop rd) s = withReg s 1 rd fun d => popByte s fun v t => retire 2 (t.setReg d v) := rfl

theorem exec_popm (addr : U16) (s : State) :
    exec (.popm addr) s = popByte s fun v t => retire 3 (t.setByte (absolute addr) v) := rfl

theorem exec_sub (ra rb : Byte) (s : State) :
    exec (.sub ra rb) s = withReg s 1 ra fun a => withReg s 2 rb fun b =>
      retire 3 (s.subInto a (s.reg a) (s.reg b)) := rfl

theorem exec_subv (ra imm : Byte) (s : State) :
    exec (.subv ra imm) s = withReg s 1 ra fun a => retire 3 (s.subInto a (s.reg a) imm) := rfl

theorem exec_sub3 (ra rb rd : Byte) (s : State) :
    exec (.sub3 ra rb rd) s = withReg s 1 ra fun a => withReg s 2 rb fun b => withReg s 3 rd fun d =>
      retire 4 (s.subInto d (s.reg a) (s.reg b)) := rfl

theorem exec_subv3 (ra imm rd : Byte) (s : State) :
    exec (.subv3 ra imm rd) s = withReg s 1 ra fun a => withReg s 3 rd fun d =>
      retire 4 (s.subInto d (s.reg a) imm) := rfl

theorem exec_dec (r : Byte) (s : State) :
    exec (.dec r) s = withReg s 1 r fun a => retire 2 (s.subInto a (s.reg a) 1#8) := rfl

/-- FNC's check of its scan's start, and then the scan. -/
theorem exec_fnc_of_scan_some {id : U16} {s : State} {j : Nat} (hin : inMemory s.params.memSize (s.pc + 3) = true)
    (hscan : scanForRet s.params.memSize s.params.retByte s.mem (s.pc + 3).toNat = some j) :
    exec (.fnc id) s = jumpTo (j + 1) { s with ft := defineFunction s.ft id.toNat (s.pc + 3) } := by
  change execFnc id s = _
  rw [execFnc, withMem_in hin, hscan]

theorem exec_fnc_of_scan_none {id : U16} {s : State} (hin : inMemory s.params.memSize (s.pc + 3) = true)
    (hscan : scanForRet s.params.memSize s.params.retByte s.mem (s.pc + 3).toNat = none) :
    Faults (exec (.fnc id) s) s (.memoryAddressOutOfBounds s.params.memSize) := by
  change execFnc id s = _
  rw [execFnc, withMem_in hin, hscan, raiseFault]

theorem exec_fnc_of_out {id : U16} {s : State} (hout : inMemory s.params.memSize (s.pc + 3) = false) :
    Faults (exec (.fnc id) s) s (.memoryAddressOutOfBounds (s.pc + 3)) := by
  change execFnc id s = _
  rw [execFnc, withMem_out hout]

theorem exec_cal (id : U16) (s : State) : exec (.cal id) s = callFunction s id 3 := rfl

theorem exec_clz (id : U16) (rg : Byte) (s : State) :
    exec (.clz id rg) s = withReg s 3 rg fun g => if s.reg g = 0#8 then callFunction s id 4 else retire 4 s := rfl

theorem exec_clnz (id : U16) (rg : Byte) (s : State) :
    exec (.clnz id rg) s = withReg s 3 rg fun g => if s.reg g ≠ 0#8 then callFunction s id 4 else retire 4 s := rfl

theorem exec_unassigned (op : Byte) (s : State) : exec (.unassigned op) s = retire 1 s := rfl

theorem exec_txl (x y size : U16) (color : Rgba) (glyphs : List Byte) (s : State) :
    exec (.txl x y size color glyphs) s = retire (12 + glyphs.length) (s.emit (.text glyphs x y size color)) := rfl

theorem exec_mtxl (x y px py size : U16) (color : Rgba) (glyphs : List Byte) (s : State) :
    exec (.mtxl x y px py size color glyphs) s = retire (16 + glyphs.length)
      (s.emit (.text glyphs (displaced s x px) (displaced s y py) size color)) := rfl

theorem exec_mtxr (rg : Byte) (x y px py size : U16) (color : Rgba) (s : State) :
    exec (.mtxr rg x y px py size color) s = withReg s 1 rg fun g => retire 16
      (s.emit (.text [s.reg g] (displaced s x px) (displaced s y py) size color)) := rfl

theorem exec_mrct (x y px py w h : U16) (color : Rgba) (s : State) :
    exec (.mrct x y px py w h color) s = retire 17
      (s.emit (.rect (displaced s x px) (displaced s y py) w h color)) := rfl

theorem exec_mcrc (x y px py rad : U16) (color : Rgba) (s : State) :
    exec (.mcrc x y px py rad color) s = retire 15
      (s.emit (.circle (displaced s x px) (displaced s y py) rad color)) := rfl

theorem exec_mlne (x1 y1 x2 y2 px py : U16) (color : Rgba) (s : State) :
    exec (.mlne x1 y1 x2 y2 px py color) s = retire 17
      (s.emit (.line (displaced s x1 px) (displaced s y1 py) (displaced s x2 px) (displaced s y2 py) color)) := rfl

theorem exec_ext (code : Byte) (s : State) :
    exec (.ext code) s = jumpTo s.params.extNextPc (s.setReg .r7 code) := rfl

/-! ### The statements -/

/-- Settles O3: both register checks, then one access at the sum, which no check looks at. -/
theorem ldoStoUseIndexedAddress : Obligations.LdoStoUseIndexedAddress := by
  refine ⟨fun rd base ri s => ⟨rfl, ?ldo⟩, fun rs base ri s => ⟨rfl, ?sto⟩⟩
  case ldo =>
    refine onReg_of_eq_withReg (exec_ldo rd base ri s) fun d hd => onReg_of_eq_withReg hd fun i hi => ?_
    exact completes_of_eq_retire hi (writesReg_setReg s d _ 5)
  case sto =>
    refine onReg_of_eq_withReg (exec_sto rs base ri s) fun r hr => onReg_of_eq_withReg hr fun i hi => ?_
    exact completes_of_eq_retire hi ⟨rfl, storesByte_setByte s (indexed s base i) (s.reg r) 5⟩

/-- Settles O8: POP and POPM are one pop each, POP's after the register check. -/
theorem popPopmPop : Obligations.PopPopmPop := by
  intro s hnonneg _
  refine ⟨fun rd => ⟨rfl, ?pop⟩, fun addr => ⟨rfl, ?popm⟩⟩
  case pop =>
    refine onReg_of_eq_withReg (exec_pop rd s) fun d hd => pops_of_eq_popByte hnonneg hd ?_
    rintro _ rfl
    exact ⟨reg_setReg_same _ d _, fun _ hq => reg_setReg_ne _ _ hq, fun _ => rfl, rfl⟩
  case popm =>
    refine pops_of_eq_popByte hnonneg (exec_popm addr s) ?_
    rintro _ rfl
    exact ⟨byte_setByte_same _ _ _, fun _ hb => byte_setByte_ne _ _ hb, fun _ => rfl, rfl⟩

/-- Settles O10: the register checks in operand order, then one `subInto` of sources read before the write. -/
theorem subtractionsSubtractAndBorrow : Obligations.SubtractionsSubtractAndBorrow := by
  refine ⟨fun ra rb s => ⟨rfl, ?sub⟩, fun ra imm s => ⟨rfl, ?subv⟩, fun ra rb rd s => ⟨rfl, ?sub3⟩,
    fun ra imm rd s => ⟨rfl, ?subv3⟩, fun r s => ⟨rfl, ?dec⟩⟩
  case sub =>
    refine onReg_of_eq_withReg (exec_sub ra rb s) fun a ha => onReg_of_eq_withReg ha fun b hb => ?_
    exact completes_of_eq_retire hb (subtractsInto_subInto s a (s.reg a) (s.reg b) 3)
  case subv =>
    refine onReg_of_eq_withReg (exec_subv ra imm s) fun a ha => ?_
    exact completes_of_eq_retire ha (subtractsInto_subInto s a (s.reg a) imm 3)
  case sub3 =>
    refine onReg_of_eq_withReg (exec_sub3 ra rb rd s) fun a ha => onReg_of_eq_withReg ha fun b hb =>
      onReg_of_eq_withReg hb fun d hd => ?_
    exact completes_of_eq_retire hd (subtractsInto_subInto s d (s.reg a) (s.reg b) 4)
  case subv3 =>
    refine onReg_of_eq_withReg (exec_subv3 ra imm rd s) fun a ha => onReg_of_eq_withReg ha fun d hd => ?_
    exact completes_of_eq_retire hd (subtractsInto_subInto s d (s.reg a) imm 4)
  case dec =>
    refine onReg_of_eq_withReg (exec_dec r s) fun a ha => ?_
    exact completes_of_eq_retire ha (subtractsInto_subInto s a (s.reg a) 1#8 2)

/-- Settles O14: the check of the scan's start, then the scan over the listed cells, which finds the first RET
byte or that there is none. -/
theorem fncDefinesAndSkips : Obligations.FncDefinesAndSkips := by
  intro id s hp hm
  refine ⟨rfl, ?found, ?none, exec_fnc_of_out⟩
  case found =>
    intro j hnonneg hfirst
    have hin : inMemory s.params.memSize (s.pc + 3) = true := by
      obtain ⟨hle, hlt, -⟩ := hfirst
      exact inMemory_iff.2 (by omega)
    rw [← Int.toNat_of_nonneg hnonneg] at hfirst
    refine completes_of_eq_jumpTo (exec_fnc_of_scan_some hin (scanForRet_of_isFirstRet hp hm hfirst)) ?_
    exact ⟨fun k => lookupFunction_defineFunction s.ft id.toNat k _, fun _ => rfl, fun _ => rfl, rfl⟩
  case none =>
    intro hin hnone
    exact exec_fnc_of_scan_none hin (scanForRet_of_no_ret hp hm fun a ha => hnone a (Int.toNat_le.1 ha))

/-- Settles O16: the check of the guard's register stands before its test, and the test before the lookup. -/
theorem callsPushAndEnter : Obligations.CallsPushAndEnter := by
  refine ⟨fun id s => ⟨rfl, ?cal⟩, fun id rg s => ⟨rfl, ?clz⟩, fun id rg s => ⟨rfl, ?clnz⟩⟩
  case cal =>
    exact calls_of_eq_callFunction (exec_cal id s)
  case clz =>
    refine onReg_of_eq_withReg (exec_clz id rg s) fun g hg => ⟨?_, ?_⟩
    · intro hzero
      exact calls_of_eq_callFunction (hg.trans (if_pos hzero))
    · intro hnonzero
      exact completes_onlyMoves_of_eq_retire (hg.trans (if_neg hnonzero))
  case clnz =>
    refine onReg_of_eq_withReg (exec_clnz id rg s) fun g hg => ⟨?_, ?_⟩
    · intro hnonzero
      exact calls_of_eq_callFunction (hg.trans (if_pos hnonzero))
    · intro hzero
      exact completes_onlyMoves_of_eq_retire (hg.trans (if_neg (not_not.2 hzero)))

/-- Settles O17: a legal map has no operation for such a code, and the instruction is a bare `retire`. -/
theorem unassignedIsNoOp : Obligations.UnassignedIsNoOp := by
  intro map op s rest hmap hop
  exact ⟨decode_of_operationAt_none (OpcodeMap.operationAt_of_isUnassigned hmap hop),
    completes_onlyMoves_of_eq_retire (exec_unassigned op s)⟩

/-- Settles O25: one `emit` of the glyphs, at displaced positions for MTXL. -/
theorem literalTextsEmitGlyphs : Obligations.LiteralTextsEmitGlyphs := by
  refine ⟨fun x y size color glyphs s => ⟨rfl, rfl, ?txl⟩, fun x y px py size color glyphs s => ⟨rfl, rfl, ?mtxl⟩⟩
  case txl =>
    exact completes_emits_of_eq_retire (exec_txl x y size color glyphs s)
  case mtxl =>
    exact ⟨_, _, isDisplaced_displaced s x px, isDisplaced_displaced s y py,
      completes_emits_of_eq_retire (exec_mtxl x y px py size color glyphs s)⟩

/-- Settles O26: MTXR's register check, then for all four one `emit` with the positions displaced. -/
theorem indirectDrawsAreDisplaced : Obligations.IndirectDrawsAreDisplaced := by
  refine ⟨fun rg x y px py size color s => ⟨rfl, ?mtxr⟩, fun x y px py w h color s => ⟨rfl, ?mrct⟩,
    fun x y px py rad color s => ⟨rfl, ?mcrc⟩, fun x1 y1 x2 y2 px py color s => ⟨rfl, ?mlne⟩⟩
  case mtxr =>
    refine onReg_of_eq_withReg (exec_mtxr rg x y px py size color s) fun g hg => ?_
    exact ⟨_, _, isDisplaced_displaced s x px, isDisplaced_displaced s y py, completes_emits_of_eq_retire hg⟩
  case mrct =>
    exact ⟨_, _, isDisplaced_displaced s x px, isDisplaced_displaced s y py,
      completes_emits_of_eq_retire (exec_mrct x y px py w h color s)⟩
  case mcrc =>
    exact ⟨_, _, isDisplaced_displaced s x px, isDisplaced_displaced s y py,
      completes_emits_of_eq_retire (exec_mcrc x y px py rad color s)⟩
  case mlne =>
    exact ⟨_, _, _, _, isDisplaced_displaced s x1 px, isDisplaced_displaced s y1 py, isDisplaced_displaced s x2 px,
      isDisplaced_displaced s y2 py, completes_emits_of_eq_retire (exec_mlne x1 y1 x2 y2 px py color s)⟩

/-- Settles O28: one register write, then the jump. -/
theorem extWritesR7AndJumps : Obligations.ExtWritesR7AndJumps := by
  intro code s
  refine ⟨rfl, completes_of_eq_jumpTo (exec_ext code s) ?_⟩
  exact ⟨reg_setReg_same s .r7 code, fun _ hq => reg_setReg_ne s code hq, fun _ => rfl, rfl⟩

/-- Settles O30: by the eight bytes, and by the law of the register file. -/
theorem registerBytesNameRegisters : Obligations.RegisterBytesNameRegisters :=
  ⟨rfl, rfl, rfl, rfl, rfl, rfl, rfl, rfl, fun _ hb => regOfByte_eq_none.2 hb,
    fun s i j v => Regs.get_set s.regs i j v⟩

/-- Settles O35: the checks of the `reg` operands are the outermost of every instruction. -/
theorem registerCheckComesFirst : Obligations.RegisterCheckComesFirst :=
  fun i s k b h => exec_checksFirst i s k b h

/-- Settles O49: a taken call, guarded or not, is one `callFunction`, and RET takes the record that it pushed. -/
theorem callThenReturnResumes : Obligations.CallThenReturnResumes := by
  intro s i id target hcall htarget
  have hexec : exec i s = callFunction s id i.len := by
    rcases hcall with rfl | ⟨rg, g, rfl, hg, hzero⟩ | ⟨rg, g, rfl, hg, hnonzero⟩
    · exact exec_cal id s
    · exact (exec_clz id rg s).trans ((withReg_some hg).trans (if_pos hzero))
    · exact (exec_clnz id rg s).trans ((withReg_some hg).trans (if_pos hnonzero))
  refine completes_of_eq_jumpTo (hexec.trans (callFunction_of_lookup htarget)) ⟨rfl, fun u hcs => ?_⟩
  exact completes_of_eq_jumpTo (exec_ret_cons hcs) ⟨rfl, rfl⟩

/-- Settles O50: the store leaves the byte on the Drive, and each load is one copy from there. -/
theorem driveRoundTrip : Obligations.DriveRoundTrip := by
  intro s i d v hstore hd
  have hexec : exec i s = retire 6 (s.setDriveByte d.toNat v) := by
    rcases hstore with rfl | ⟨rs, r, rfl, hr, rfl⟩
    · exact (exec_svd v d s).trans (withDrive_in hd)
    · exact (exec_std rs d s).trans ((withReg_some hr).trans (withDrive_in hd))
  refine completes_of_eq_retire hexec fun u hbyte hlen => ?_
  have hheld : u.driveByte d.toNat = v := hbyte.trans (driveByte_setDriveByte_same s d.toNat v)
  have hdu : d.toNat < u.drive.len := hlen ▸ hd
  refine ⟨fun m hm => ?ldtm, fun e m n hfirst hlast hdrive hmem => ?ldml⟩
  case ldtm =>
    refine completes_of_eq_retire (((exec_ldtm d m u).trans (withDrive_in hdu)).trans (withMem_of_lt _ hm)) ?_
    exact (byte_setByte_same u m.toNat _).trans hheld
  case ldml =>
    have hn : n ≠ 0#16 := by
      rintro rfl
      exact absurd hlast (Nat.not_lt.2 hfirst)
    refine completes_of_eq_retire
      (((exec_ldml e m n u).trans (if_neg hn)).trans (withBlock_in hdrive hmem)) ?_
    calc (u.copyFromDrive e.toNat m.toNat n.toNat).byte (m.toNat + (d.toNat - e.toNat))
        = u.driveByte (e.toNat + (d.toNat - e.toNat)) := byte_copyFromDrive_in u e.toNat m.toNat (by omega)
      _ = v := by rw [Nat.add_sub_cancel' hfirst, hheld]

end Sys2Proof.Machine
end

section
/-! SUPPORT. What an instruction can do, said once for all of them: `Effect`, its proof for every instruction, and
what each piece of state is after it. -/

namespace Sys2Proof.Machine

theorem isOneOf.mono {i : Instr} {ops more : List Operation} (h : isOneOf i ops) (hsub : ops ⊆ more) :
    isOneOf i more := by
  obtain ⟨op, hmem, hop⟩ := h
  exact ⟨op, hsub hmem, hop⟩

/-- The instructions after which control need not be at the next byte (42_control_flow R184). -/
def isTransfer (i : Instr) : Prop :=
  isOneOf i [.jmp, .jpz, .jpnz, .fnc, .ret, .cal, .clz, .clnz, .cls, .ext, .hlt]

/-- `t` is a next state that instruction `i` can answer in state `s`: what it writes, where it goes on, and which
instructions do so. -/
inductive Effect (i : Instr) (s : State) : State → Prop
  /-- A check fails, and nothing else happens (60_exceptions R262). -/
  | faults (f : EngineFault) : Effect i s (enterFault f s)
  /-- A jump, an untaken condition, a block of length 0, an unassigned opcode. -/
  | moves (target : Int) (hgo : isTransfer i ∨ target = s.pc + i.len) : Effect i s { s with pc := target }
  | writesRegs (x : Regs) (target : Int) (hgo : isTransfer i ∨ target = s.pc + i.len)
      (hi : isOneOf i [.ldv, .lda, .mov, .lvz, .lvnz, .ldo, .adc, .sbc, .mlt, .div, .ext]) :
      Effect i s { s with regs := x, pc := target }
  | writesRegsAndCarry (x : Regs) (c : Bool)
      (hc : s.params.carryPolicy = .sticky → s.carry = true → c = true)
      (hi : isOneOf i [.add, .addv, .sub, .subv, .add3, .addv3, .sub3, .subv3, .inc, .dec]) :
      Effect i s { s with regs := x, carry := c, pc := s.pc + i.len }
  | writesCarry (c : Bool) (hi : (i = .ccf ∧ c = false) ∨ (i = .scf ∧ c = true)) :
      Effect i s { s with carry := c, pc := s.pc + i.len }
  | writesMemory (m : Cells)
      (hm : s.params.wf = true → Memory.wf s.params.memSize s.mem = true → Memory.wf s.params.memSize m = true)
      (hi : isOneOf i [.sta, .sto, .sva, .ldtm, .ldml]) : Effect i s { s with mem := m, pc := s.pc + i.len }
  | pushes (v : Byte) (hin : inMemory s.params.memSize (s.sp - 1) = true) (hi : isOneOf i [.psh, .psv]) :
      Effect i s { s with mem := storeCell s.mem (s.sp - 1).toNat v, sp := s.sp - 1, pc := s.pc + i.len }
  | popsToReg (x : Regs) (hin : inMemory s.params.memSize s.sp = true) (hi : isOneOf i [.pop]) :
      Effect i s { s with regs := x, sp := s.sp + 1, pc := s.pc + i.len }
  | popsToMemory (addr : U16) (v : Byte) (hin : inMemory s.params.memSize s.sp = true) (hi : isOneOf i [.popm]) :
      Effect i s { s with mem := storeCell s.mem (absolute addr) v, sp := s.sp + 1, pc := s.pc + i.len }
  | defines (id : U16) (target : Int) (hin : inMemory s.params.memSize (s.pc + 3) = true) (hi : isOneOf i [.fnc]) :
      Effect i s { s with ft := defineFunction s.ft id.toNat (s.pc + 3), pc := target }
  | returns (record : ReturnRecord) (rest : List ReturnRecord) (hcs : s.cs = record :: rest)
      (hi : isOneOf i [.ret]) : Effect i s { s with cs := rest, pc := record.resume }
  | calls (len : Nat) (target : Int) (hlen : len = 3 ∨ len = 4) (hi : isOneOf i [.cal, .clz, .clnz]) :
      Effect i s { s with cs := ⟨s.pc, s.pc + len⟩ :: s.cs, pc := target }
  | writesDrive (cells : Cells) (hd : Drive.wf s.drive = true → Drive.wf ⟨s.drive.len, cells⟩ = true)
      (hi : isOneOf i [.std, .svd, .smdl]) :
      Effect i s { s with drive := ⟨s.drive.len, cells⟩, pc := s.pc + i.len }
  | emits (c : DrawCommand)
      (hi : isOneOf i [.txr, .txl, .rct, .crc, .lne, .mtxr, .mtxl, .mrct, .mcrc, .mlne]) :
      Effect i s { s with draws := s.draws ++ [c], pc := s.pc + i.len }
  | waitsForFrame (hi : i = .cls) : Effect i s { s with draws := s.draws ++ [.present], status := .waitingFrame }
  | waitsForCommit (hi : i = .hlt) :
      Effect i s { s with status := .checkpointing, persist := s.persist.submit .foreground s.drive }

/-! ### The checks and the ends of an instruction have an effect -/

section
variable {i : Instr} {s : State}

theorem completes_raiseFault (f : EngineFault) : Completes (raiseFault f s) (Effect i s) := ⟨_, rfl, .faults f⟩

theorem completes_withReg {k : Nat} {b : Byte} {f : Reg → Result} (hf : ∀ r, Completes (f r) (Effect i s)) :
    Completes (withReg s k b f) (Effect i s) := by
  cases hb : regOfByte b with
  | some r => exact withReg_some hb ▸ hf r
  | none => exact ⟨_, withReg_none hb, .faults _⟩

theorem completes_withMem {a : Int} {f : Nat → Result}
    (hf : inMemory s.params.memSize a = true → Completes (f a.toNat) (Effect i s)) :
    Completes (withMem s a f) (Effect i s) := by
  cases ha : inMemory s.params.memSize a with
  | true => exact withMem_in ha ▸ hf ha
  | false => exact ⟨_, withMem_out ha, .faults _⟩

theorem completes_withDrive {d : U32} {next : Result} (hnext : d.toNat < s.drive.len → Completes next (Effect i s)) :
    Completes (withDrive s d next) (Effect i s) := by
  rcases Nat.lt_or_ge d.toNat s.drive.len with hin | hout
  · exact withDrive_in hin ▸ hnext hin
  · exact ⟨_, withDrive_out hout, .faults _⟩

theorem completes_withBlock {d : U32} {m : U24} {n : U16} {next : Result}
    (hnext : d.toNat + n.toNat ≤ s.drive.len → m.toNat + n.toNat ≤ s.params.memSize → Completes next (Effect i s)) :
    Completes (withBlock s d m n next) (Effect i s) := by
  rcases Nat.lt_or_ge s.drive.len (d.toNat + n.toNat) with hdrive | hdrive
  · exact ⟨_, withBlock_drive_out hdrive, .faults _⟩
  · rcases Nat.lt_or_ge s.params.memSize (m.toNat + n.toNat) with hmem | hmem
    · exact ⟨_, withBlock_mem_out hdrive hmem, .faults _⟩
    · exact withBlock_in hdrive hmem ▸ hnext hdrive hmem

theorem completes_ite {p : Prop} [Decidable p] {a b : Result} (ha : Completes a (Effect i s))
    (hb : Completes b (Effect i s)) : Completes (if p then a else b) (Effect i s) := by
  split
  · exact ha
  · exact hb

theorem completes_callFunction {id : U16} {len : Nat} (hlen : len = 3 ∨ len = 4)
    (hi : isOneOf i [.cal, .clz, .clnz]) : Completes (callFunction s id len) (Effect i s) := by
  cases h : lookupFunction s.ft id.toNat with
  | some target => exact ⟨_, callFunction_of_lookup h, .calls len target hlen hi⟩
  | none => exact ⟨_, callFunction_of_lookup_none h, .faults _⟩

/-- An instruction whose only effect is one register write. -/
theorem completes_retire_setReg {len : Nat} {d : Reg} {v : Byte} (hlen : len = i.len)
    (hi : isOneOf i [.ldv, .lda, .mov, .lvz, .lvnz, .ldo, .adc, .sbc, .mlt, .div, .ext]) :
    Completes (retire len (s.setReg d v)) (Effect i s) :=
  completes_of_eq_retire rfl (.writesRegs _ _ (.inr (hlen ▸ rfl)) hi)

theorem completes_retire {len : Nat} (hlen : len = i.len) : Completes (retire len s) (Effect i s) :=
  completes_of_eq_retire rfl (.moves _ (.inr (hlen ▸ rfl)))

theorem completes_jumpTo {target : Int} (hi : isTransfer i) : Completes (jumpTo target s) (Effect i s) :=
  completes_of_eq_jumpTo rfl (.moves _ (.inl hi))

theorem carryAfter_of_sticky {policy : CarryPolicy} {before event : Bool} (hpolicy : policy = .sticky)
    (hbefore : before = true) : carryAfter policy before event = true := by
  simp [hpolicy, hbefore]

theorem completes_retire_addInto {len : Nat} {d : Reg} {a b : Byte} (hlen : len = i.len)
    (hi : isOneOf i [.add, .addv, .sub, .subv, .add3, .addv3, .sub3, .subv3, .inc, .dec]) :
    Completes (retire len (s.addInto d a b)) (Effect i s) :=
  completes_of_eq_retire rfl (hlen ▸ .writesRegsAndCarry _ _ carryAfter_of_sticky hi)

theorem completes_retire_subInto {len : Nat} {d : Reg} {a b : Byte} (hlen : len = i.len)
    (hi : isOneOf i [.add, .addv, .sub, .subv, .add3, .addv3, .sub3, .subv3, .inc, .dec]) :
    Completes (retire len (s.subInto d a b)) (Effect i s) :=
  completes_of_eq_retire rfl (hlen ▸ .writesRegsAndCarry _ _ carryAfter_of_sticky hi)

theorem completes_retire_setByte {len a : Nat} {v : Byte} (hlen : len = i.len)
    (ha : s.params.wf = true → a < s.params.memSize) (hi : isOneOf i [.sta, .sto, .sva, .ldtm, .ldml]) :
    Completes (retire len (s.setByte a v)) (Effect i s) :=
  completes_of_eq_retire rfl (hlen ▸ .writesMemory _ (fun hp hm => Memory.wf_storeCell v (ha hp) hm) hi)

theorem completes_withDrive_setDriveByte {len : Nat} {d : U32} {v : Byte} (hlen : len = i.len)
    (hi : isOneOf i [.std, .svd, .smdl]) :
    Completes (withDrive s d (retire len (s.setDriveByte d.toNat v))) (Effect i s) :=
  completes_withDrive fun hd => completes_of_eq_retire rfl (hlen ▸ .writesDrive _ (Drive.wf_storeCell v hd) hi)

theorem completes_pushByte {len : Nat} {v : Byte} (hlen : len = i.len) (hi : isOneOf i [.psh, .psv]) :
    Completes (pushByte s v fun t => retire len t) (Effect i s) :=
  completes_withMem fun hin => completes_of_eq_retire rfl (hlen ▸ .pushes v hin hi)

theorem completes_popByte {f : Byte → State → Result}
    (hf : inMemory s.params.memSize s.sp = true →
      Completes (f (s.byte s.sp.toNat) { s with sp := s.sp + 1 }) (Effect i s)) :
    Completes (popByte s f) (Effect i s) :=
  completes_withMem hf

theorem completes_retire_emit {len : Nat} {c : DrawCommand} (hlen : len = i.len)
    (hi : isOneOf i [.txr, .txl, .rct, .crc, .lne, .mtxr, .mtxl, .mrct, .mcrc, .mlne]) :
    Completes (retire len (s.emit c)) (Effect i s) :=
  completes_of_eq_retire rfl (hlen ▸ .emits c hi)

end

theorem completes_exec_fnc (id : U16) (s : State) : Completes (exec (.fnc id) s) (Effect (.fnc id) s) := by
  cases hin : inMemory s.params.memSize (s.pc + 3) with
  | false => exact ⟨_, exec_fnc_of_out hin, .faults _⟩
  | true =>
    cases hscan : scanForRet s.params.memSize s.params.retByte s.mem (s.pc + 3).toNat with
    | none => exact ⟨_, exec_fnc_of_scan_none hin hscan, .faults _⟩
    | some j => exact completes_of_eq_jumpTo (exec_fnc_of_scan_some hin hscan) (.defines id _ hin ⟨_, by decide, rfl⟩)

theorem completes_exec_ret (s : State) : Completes (exec .ret s) (Effect .ret s) := by
  cases hcs : s.cs with
  | nil => exact ⟨_, exec_ret_nil hcs, .faults _⟩
  | cons record rest =>
    exact completes_of_eq_jumpTo (exec_ret_cons hcs) (.returns record rest hcs ⟨_, by decide, rfl⟩)

/-- Every instruction has a next state, which is one of its effects. -/
theorem exec_completes (i : Instr) (s : State) : Completes (exec i s) (Effect i s) := by
  cases i with
  | ldv | lda => exact completes_withReg fun _ => completes_retire_setReg rfl ⟨_, by decide, rfl⟩
  | mov | ldo =>
    exact completes_withReg fun _ => completes_withReg fun _ => completes_retire_setReg rfl ⟨_, by decide, rfl⟩
  | lvz | lvnz =>
    exact completes_withReg fun _ => completes_withReg fun _ =>
      completes_ite (completes_retire_setReg rfl ⟨_, by decide, rfl⟩) (completes_retire rfl)
  | adc | sbc =>
    exact completes_withReg fun _ =>
      completes_ite (completes_retire_setReg rfl ⟨_, by decide, rfl⟩) (completes_retire rfl)
  | sta rs addr =>
    exact completes_withReg fun _ =>
      completes_retire_setByte rfl (fun hp => absolute_lt hp addr) ⟨_, by decide, rfl⟩
  | sto rs base ri =>
    exact completes_withReg fun _ => completes_withReg fun r =>
      completes_retire_setByte rfl (fun hp => indexed_lt hp base r) ⟨_, by decide, rfl⟩
  | sva imm addr => exact completes_retire_setByte rfl (fun hp => absolute_lt hp addr) ⟨_, by decide, rfl⟩
  | psh => exact completes_withReg fun _ => completes_pushByte rfl ⟨_, by decide, rfl⟩
  | psv => exact completes_pushByte rfl ⟨_, by decide, rfl⟩
  | pop =>
    exact completes_withReg fun _ => completes_popByte fun hin =>
      completes_of_eq_retire rfl (.popsToReg _ hin ⟨_, by decide, rfl⟩)
  | popm addr =>
    rw [exec_popm]
    exact completes_popByte fun hin => completes_of_eq_retire rfl (.popsToMemory addr _ hin ⟨_, by decide, rfl⟩)
  | add | addv3 =>
    exact completes_withReg fun _ => completes_withReg fun _ => completes_retire_addInto rfl ⟨_, by decide, rfl⟩
  | sub | subv3 =>
    exact completes_withReg fun _ => completes_withReg fun _ => completes_retire_subInto rfl ⟨_, by decide, rfl⟩
  | addv | inc => exact completes_withReg fun _ => completes_retire_addInto rfl ⟨_, by decide, rfl⟩
  | subv | dec => exact completes_withReg fun _ => completes_retire_subInto rfl ⟨_, by decide, rfl⟩
  | add3 =>
    exact completes_withReg fun _ => completes_withReg fun _ => completes_withReg fun _ =>
      completes_retire_addInto rfl ⟨_, by decide, rfl⟩
  | sub3 =>
    exact completes_withReg fun _ => completes_withReg fun _ => completes_withReg fun _ =>
      completes_retire_subInto rfl ⟨_, by decide, rfl⟩
  | ccf => exact completes_of_eq_retire rfl (.writesCarry false (.inl ⟨rfl, rfl⟩))
  | scf => exact completes_of_eq_retire rfl (.writesCarry true (.inr ⟨rfl, rfl⟩))
  | jmp => exact completes_jumpTo ⟨_, by decide, rfl⟩
  | jpz | jpnz =>
    exact completes_withReg fun _ => completes_ite (completes_jumpTo ⟨_, by decide, rfl⟩) (completes_retire rfl)
  | fnc id => exact completes_exec_fnc id s
  | ret => exact completes_exec_ret s
  | cal => exact completes_callFunction (.inl rfl) ⟨_, by decide, rfl⟩
  | clz | clnz =>
    exact completes_withReg fun _ =>
      completes_ite (completes_callFunction (.inr rfl) ⟨_, by decide, rfl⟩) (completes_retire rfl)
  | mlt =>
    exact completes_withReg fun _ => completes_withReg fun _ => completes_withReg fun _ => completes_withReg fun _ =>
      completes_of_eq_retire rfl (.writesRegs _ _ (.inr rfl) ⟨_, by decide, rfl⟩)
  | div =>
    exact completes_withReg fun _ => completes_withReg fun _ => completes_withReg fun _ => completes_withReg fun _ =>
      completes_withReg fun _ => completes_withReg fun _ => completes_ite (completes_raiseFault _)
        (completes_of_eq_retire rfl (.writesRegs _ _ (.inr rfl) ⟨_, by decide, rfl⟩))
  | std => exact completes_withReg fun _ => completes_withDrive_setDriveByte rfl ⟨_, by decide, rfl⟩
  | svd => exact completes_withDrive_setDriveByte rfl ⟨_, by decide, rfl⟩
  | ldtm =>
    exact completes_withDrive fun _ => completes_withMem fun hin =>
      completes_retire_setByte rfl (fun _ => inMemory_toNat hin) ⟨_, by decide, rfl⟩
  | ldml =>
    exact completes_ite (completes_retire rfl) (completes_withBlock fun _ hmem =>
      completes_of_eq_retire rfl (.writesMemory _ (fun _ => Memory.wf_copyCells _ _ _ hmem) ⟨_, by decide, rfl⟩))
  | smdl =>
    exact completes_ite (completes_retire rfl) (completes_withBlock fun hdrive _ =>
      completes_of_eq_retire rfl (.writesDrive _ (Drive.wf_copyCells _ _ _ hdrive) ⟨_, by decide, rfl⟩))
  | txr | mtxr => exact completes_withReg fun _ => completes_retire_emit rfl ⟨_, by decide, rfl⟩
  | txl | rct | crc | lne | mtxl | mrct | mcrc | mlne => exact completes_retire_emit rfl ⟨_, by decide, rfl⟩
  | cls => exact ⟨_, rfl, .waitsForFrame rfl⟩
  | ext => exact completes_of_eq_jumpTo rfl (.writesRegs _ _ (.inl ⟨_, by decide, rfl⟩) ⟨_, by decide, rfl⟩)
  | hlt => exact ⟨_, rfl, .waitsForCommit rfl⟩
  | unassigned => exact completes_retire rfl

/-- The next state that an instruction answers is one of its effects. -/
theorem exec_next {i : Instr} {s t : State} (h : exec i s = .next t) : Effect i s t := by
  obtain ⟨u, hu, heffect⟩ := exec_completes i s
  rw [h] at hu
  cases hu
  exact heffect

end Sys2Proof.Machine
end

section
/-! SUPPORT. Each piece of state after an instruction: what it is, or which instructions write it. -/

namespace Sys2Proof.Machine

section
variable {i : Instr} {s t : State}

theorem Effect.regs_cases (h : Effect i s t) :
    t.regs = s.regs ∨ isOneOf i [.ldv, .lda, .mov, .lvz, .lvnz, .pop, .ldo, .add, .addv, .sub, .subv, .add3,
      .addv3, .sub3, .subv3, .inc, .dec, .adc, .sbc, .mlt, .div, .ext] := by
  cases h with
  | writesRegs _ _ _ hi | writesRegsAndCarry _ _ _ hi | popsToReg _ _ hi => exact .inr (hi.mono (by decide))
  | _ => exact .inl rfl

theorem Effect.carry_cases (h : Effect i s t) :
    t.carry = s.carry ∨
      isOneOf i [.add, .addv, .sub, .subv, .add3, .addv3, .sub3, .subv3, .inc, .dec, .ccf, .scf] := by
  cases h with
  | writesRegsAndCarry _ _ _ hi => exact .inr (hi.mono (by decide))
  | writesCarry _ hi =>
    rcases hi with ⟨rfl, -⟩ | ⟨rfl, -⟩
    · exact .inr ⟨.ccf, by decide, rfl⟩
    · exact .inr ⟨.scf, by decide, rfl⟩
  | _ => exact .inl rfl

/-- Under `sticky` only CCF clears C. -/
theorem Effect.carry_of_sticky (h : Effect i s t) (hpolicy : s.params.carryPolicy = .sticky)
    (hset : s.carry = true) (hne : i ≠ .ccf) : t.carry = true := by
  cases h with
  | writesRegsAndCarry _ _ hc _ => exact hc hpolicy hset
  | writesCarry _ hi =>
    rcases hi with ⟨hccf, -⟩ | ⟨-, hc⟩
    · exact absurd hccf hne
    · exact hc
  | _ => exact hset

theorem Effect.mem_cases (h : Effect i s t) :
    t.mem = s.mem ∨ isOneOf i [.sta, .psh, .psv, .popm, .sto, .sva, .ldtm, .ldml] := by
  cases h with
  | writesMemory _ _ hi | pushes _ _ hi | popsToMemory _ _ _ hi => exact .inr (hi.mono (by decide))
  | _ => exact .inl rfl

theorem Effect.sp_cases (h : Effect i s t) : t.sp = s.sp ∨ isOneOf i [.psh, .psv, .pop, .popm] := by
  cases h with
  | pushes _ _ hi | popsToReg _ _ hi | popsToMemory _ _ _ hi => exact .inr (hi.mono (by decide))
  | _ => exact .inl rfl

theorem Effect.ft_cases (h : Effect i s t) : t.ft = s.ft ∨ isOneOf i [.fnc] := by
  cases h with
  | defines _ _ _ hi => exact .inr hi
  | _ => exact .inl rfl

theorem Effect.cs_cases (h : Effect i s t) : t.cs = s.cs ∨ isOneOf i [.ret, .cal, .clz, .clnz] := by
  cases h with
  | returns _ _ _ hi | calls _ _ _ hi => exact .inr (hi.mono (by decide))
  | _ => exact .inl rfl

theorem Effect.drive_cases (h : Effect i s t) : t.drive = s.drive ∨ isOneOf i [.std, .svd, .smdl] := by
  cases h with
  | writesDrive _ _ hi => exact .inr hi
  | _ => exact .inl rfl

theorem Effect.drive_len (h : Effect i s t) : t.drive.len = s.drive.len := by
  cases h <;> rfl

theorem Effect.draws_cases (h : Effect i s t) :
    t.draws = s.draws ∨
      isOneOf i [.txr, .txl, .rct, .crc, .cls, .lne, .mtxr, .mtxl, .mrct, .mcrc, .mlne] := by
  cases h with
  | emits _ hi => exact .inr (hi.mono (by decide))
  | waitsForFrame hi => exact .inr ⟨.cls, by decide, hi ▸ rfl⟩
  | _ => exact .inl rfl

theorem Effect.draws_grow (h : Effect i s t) : s.draws <+: t.draws := by
  cases h with
  | emits | waitsForFrame => exact ⟨_, rfl⟩
  | _ => exact ⟨[], List.append_nil _⟩

theorem Effect.persist_cases (h : Effect i s t) :
    t.persist = s.persist ∨ (i = .hlt ∧ t.persist = s.persist.submit .foreground s.drive) := by
  cases h with
  | waitsForCommit hi => exact .inr ⟨hi, rfl⟩
  | _ => exact .inl rfl

theorem Effect.status_cases (h : Effect i s t) :
    t.status = s.status ∨ (i = .cls ∧ t.status = .waitingFrame) ∨ (i = .hlt ∧ t.status = .checkpointing) ∨
      ∃ f, t = enterFault f s := by
  cases h with
  | faults f => exact .inr (.inr (.inr ⟨f, rfl⟩))
  | waitsForFrame hi => exact .inr (.inl ⟨hi, rfl⟩)
  | waitsForCommit hi => exact .inr (.inr (.inl ⟨hi, rfl⟩))
  | _ => exact .inl rfl

theorem Effect.diags_cases (h : Effect i s t) : t.diags = s.diags ∨ ∃ f, t = enterFault f s := by
  cases h with
  | faults f => exact .inr ⟨f, rfl⟩
  | _ => exact .inl rfl

theorem Effect.pc_cases (h : Effect i s t) : t.pc = s.pc + i.len ∨ isTransfer i ∨ ∃ f, t = enterFault f s := by
  cases h with
  | faults f => exact .inr (.inr ⟨f, rfl⟩)
  | moves _ hgo | writesRegs _ _ hgo _ => exact hgo.elim (fun hi => .inr (.inl hi)) .inl
  | defines _ _ _ hi | returns _ _ _ hi | calls _ _ _ hi => exact .inr (.inl (hi.mono (by decide)))
  | waitsForFrame hi => exact .inr (.inl ⟨.cls, by decide, hi ▸ rfl⟩)
  | waitsForCommit hi => exact .inr (.inl ⟨.hlt, by decide, hi ▸ rfl⟩)
  | _ => exact .inl rfl

theorem Effect.params_eq (h : Effect i s t) : t.params = s.params := by
  cases h <;> rfl

theorem Effect.host_eq (h : Effect i s t) : t.host = s.host ∧ t.drawn = s.drawn := by
  cases h <;> exact ⟨rfl, rfl⟩

/-- An instruction of a running engine that faults has done nothing else (60_exceptions R262). -/
theorem Effect.eq_enterFault (h : Effect i s t) (hrun : s.status = .running) {r : FaultRecord}
    (hr : t.status = .faulted r) : t = enterFault r.kind s := by
  rcases h.status_cases with hsame | ⟨-, hcls⟩ | ⟨-, hhlt⟩ | ⟨f, rfl⟩
  · rw [hsame, hrun] at hr
    cases hr
  · rw [hcls] at hr
    cases hr
  · rw [hhlt] at hr
    cases hr
  · cases hr
    rfl

end

end Sys2Proof.Machine
end

section
/-! PROOFS. The statements about all instructions. -/

namespace Sys2Proof.Machine

/-- Settles O43: every instruction has an effect, and what `Effect` says of the status. -/
theorem noInstructionStopsTheEngine : Obligations.NoInstructionStopsTheEngine := by
  intro i s
  obtain ⟨t, ht, h⟩ := exec_completes i s
  exact ⟨t, ht, h.status_cases, fun _ hrun hr => h.eq_enterFault hrun hr⟩

/-- Settles O46: by the effects that write C. -/
theorem carryHasFewWriters : Obligations.CarryHasFewWriters := by
  intro i s t hexec
  have h := exec_next hexec
  exact ⟨h.carry_cases.resolve_left, h.carry_of_sticky⟩

/-- Settles O47: by the effects that write each piece of state. -/
theorem stateHasFewWriters : Obligations.StateHasFewWriters := by
  intro i s t hexec
  have h := exec_next hexec
  refine ⟨h.regs_cases.resolve_left, h.mem_cases.resolve_left, h.sp_cases.resolve_left, h.ft_cases.resolve_left,
    h.cs_cases.resolve_left, h.drive_cases.resolve_left, h.drive_len, h.draws_cases.resolve_left, h.draws_grow,
    ?persist, ?status, h.diags_cases.resolve_left, h.params_eq, h.host_eq⟩
  case persist =>
    intro hne
    obtain ⟨rfl, -⟩ := h.persist_cases.resolve_left hne
    exact ⟨.hlt, by decide, rfl⟩
  case status =>
    intro hne
    rcases h.status_cases.resolve_left hne with ⟨rfl, -⟩ | ⟨rfl, -⟩ | hfault
    · exact .inl ⟨.cls, by decide, rfl⟩
    · exact .inl ⟨.hlt, by decide, rfl⟩
    · exact .inr hfault

/-- Settles O48: by the effects that do not go on at the next byte. -/
theorem controlTransfersAreFew : Obligations.ControlTransfersAreFew := by
  intro i s t hexec hno
  rcases (exec_next hexec).pc_cases with hnext | htransfer | hfault
  · exact .inl hnext
  · exact absurd htransfer hno
  · exact .inr hfault

end Sys2Proof.Machine
end

section
/-! SUPPORT. The rules of one step: which event it takes, what each status makes of it, the input sample, and
what the fetch answers. -/

namespace Sys2Proof.Machine

/-! ### The next event -/

theorem takeEvent_of_nextEvent {s : State} {e : HostEvent} {rest : List HostEvent} (h : NextEvent s e rest) :
    takeEvent s = (e, { s with host := rest }) := by
  rw [NextEvent] at h
  simp [takeEvent, h]

theorem step_of_nextEvent {s : State} {e : HostEvent} {rest : List HostEvent} (h : NextEvent s e rest) :
    step s = onEvent e { s with host := rest } := by
  rw [step, takeEvent_of_nextEvent h]

section
variable {s : State} (e : HostEvent)

theorem onEvent_of_running (h : s.status = .running) : onEvent e s = onRunning e s := by
  simp [onEvent, h]

theorem onEvent_of_waitingFrame (h : s.status = .waitingFrame) : onEvent e s = onWaiting e s := by
  simp [onEvent, h]

theorem onEvent_of_checkpointing (h : s.status = .checkpointing) : onEvent e s = onWaiting e s := by
  simp [onEvent, h]

theorem onEvent_of_faulted {r : FaultRecord} (h : s.status = .faulted r) : onEvent e s = onFaulted e r s := by
  simp [onEvent, h]

theorem onEvent_of_terminated (h : s.status = .terminated) : onEvent e s = onTerminated e s := by
  simp [onEvent, h]

end

/-- A step of a running engine at a cycle is the run of the instruction after the sample (10_state R23). -/
theorem step_of_cycle {s : State} {smp : InputSample} {rest : List HostEvent} (hrun : s.status = .running)
    (h : NextEvent s (.cycle smp) rest) : step s = runInstruction (sampleInputs smp { s with host := rest }) :=
  (step_of_nextEvent h).trans (onEvent_of_running _ hrun)

/-! ### The input sample (20_memory R57) -/

theorem byte_sampleInputs_at (s : State) (smp : InputSample) (k : Nat) (hk : k ≤ 8) :
    (sampleInputs smp s).byte (s.params.ioBase + k) = (sampleBytes smp).getD k 0#8 := by
  rw [byte_sampleInputs_of_input s smp (Nat.le_add_right _ k) (Nat.add_le_add_left hk _), Nat.add_sub_cancel_left]

theorem byte_sampleInputs_out (s : State) (smp : InputSample) {a : Nat}
    (h : ¬ (s.params.ioBase ≤ a ∧ a ≤ s.params.ioBase + 8)) : (sampleInputs smp s).byte a = s.byte a := by
  rw [State.byte, sampleInputs_mem, cellAt_storeBytes, sampleBytes_length, if_neg (by omega), State.byte]

/-- Two input registers that hold the bytes of a 16-bit value hold that value, big-endian. -/
theorem word_sampleInputs (s : State) (smp : InputSample) (k : Nat) (v : U16) (hk : k + 1 ≤ 8)
    (hhigh : (sampleBytes smp).getD k 0#8 = v.extractLsb' 8 8)
    (hlow : (sampleBytes smp).getD (k + 1) 0#8 = v.extractLsb' 0 8) :
    (sampleInputs smp s).word (s.params.ioBase + k) = v := by
  rw [State.word, byte_sampleInputs_at s smp k (Nat.le_of_succ_le hk), Nat.add_assoc,
    byte_sampleInputs_at s smp (k + 1) hk, hhigh, hlow, be16_bytes]

/-! ### The fetch (30_encoding R85) -/

theorem fetchBytes_length (s : State) (a : Nat) : (fetchBytes s a).length = min maxInstrLen (s.params.memSize - a) :=
  readBytes_length _ _ _

theorem fetchBytes_getElem (s : State) (a k : Nat) (h : k < (fetchBytes s a).length) :
    (fetchBytes s a)[k] = s.byte (a + k) :=
  readBytes_getElem s.mem a _ k h

theorem fetch_of_decode {s : State} {i : Instr} {more : List Byte} (hin : inMemory s.params.memSize s.pc = true)
    (h : decode s.params.opcodeMap (fetchBytes s s.pc.toNat) = .ok (i, more)) : fetch s = .ok i := by
  simp [fetch, hin, h]

theorem fetch_of_decode_error {s : State} {e : DecodeError} (hin : inMemory s.params.memSize s.pc = true)
    (h : decode s.params.opcodeMap (fetchBytes s s.pc.toNat) = .error e) :
    fetch s = .error (.memoryAddressOutOfBounds (s.pc + (fetchBytes s s.pc.toNat).length)) := by
  simp [fetch, hin, h]

theorem runInstruction_of_fetch {s : State} {i : Instr} (h : fetch s = .ok i) : runInstruction s = exec i s := by
  simp [runInstruction, h]

/-- A byte string that stands in Memory from `a` on, and is no longer than an instruction can be, is the front of
what is fetched there. -/
theorem fetchBytes_eq_append {s : State} {a : Nat} {bytes : List Byte} (hlen : bytes.length ≤ maxInstrLen)
    (hin : a + bytes.length ≤ s.params.memSize)
    (h : ∀ k, k < bytes.length → s.byte (a + k) = bytes.getD k 0#8) :
    ∃ more, fetchBytes s a = bytes ++ more := by
  have hfront : (fetchBytes s a).take bytes.length = bytes := by
    refine List.ext_getElem (by rw [List.length_take, fetchBytes_length]; omega) fun k hk hkb => ?_
    rw [List.getElem_take, fetchBytes_getElem, h k hkb, List.getD_eq_getElem _ _ hkb]
  refine ⟨(fetchBytes s a).drop bytes.length, ?_⟩
  calc fetchBytes s a = (fetchBytes s a).take bytes.length ++ (fetchBytes s a).drop bytes.length :=
        (List.take_append_drop _ _).symm
    _ = bytes ++ (fetchBytes s a).drop bytes.length := by rw [hfront]

end Sys2Proof.Machine
end

section
/-! PROOFS. The statements about the cycle (10_state, 20_memory). -/

namespace Sys2Proof.Machine

/-- Settles O36: the step samples, and the fetch decodes the bytes at the program counter. -/
theorem stepRunsDecodedInstruction : Obligations.StepRunsDecodedInstruction := by
  intro s u smp rest i more hrun hnext hu hin hdecode
  subst hu
  exact (step_of_cycle hrun hnext).trans (runInstruction_of_fetch (fetch_of_decode hin hdecode))

/-- Settles O37: an encoding that stands in Memory is the front of the fetched bytes, which decode to it. -/
theorem stepRunsEncodedInstruction : Obligations.StepRunsEncodedInstruction := by
  intro s u smp rest i A hrun hnext hu hmap hpc hfits henc hbytes
  have hlen := encode_length u.params.opcodeMap i
  have hpos := i.len_pos
  obtain ⟨more, hmore⟩ : ∃ more, fetchBytes u A = encode u.params.opcodeMap i ++ more := by
    refine fetchBytes_eq_append ?_ ?_ ?_
    · exact hlen.symm ▸ Instr.len_le_maxInstrLen henc
    · exact hlen.symm ▸ hfits
    · exact hlen.symm ▸ hbytes
  refine stepRunsDecodedInstruction s u smp rest i more hrun hnext hu (inMemory_iff.2 (by omega)) ?_
  rw [hpc, Int.toNat_natCast, hmore]
  exact decodeEncodeRoundTrip _ i more hmap henc

/-- What decodes at an address of Memory stands there whole: its encoding, up to the end of Memory. -/
theorem encoding_of_decode_fetchBytes {u : State} {A : Nat} {i : Instr} {more : List Byte}
    (hmap : u.params.opcodeMap.wf = true) (h : decode u.params.opcodeMap (fetchBytes u A) = .ok (i, more)) :
    i.encodable = true ∧ A + i.len ≤ u.params.memSize ∧
      ∀ k, k < i.len → u.byte (A + k) = (encode u.params.opcodeMap i).getD k 0#8 := by
  obtain ⟨hbytes, henc⟩ := decodedBytesAreTheEncoding _ _ _ _ hmap h
  have hlen := encode_length u.params.opcodeMap i
  have hcount := congrArg List.length hbytes
  rw [fetchBytes_length, List.length_append, hlen] at hcount
  have hpos := i.len_pos
  refine ⟨henc, by omega, fun k hk => ?_⟩
  have hfetched : k < (fetchBytes u A).length := by rw [fetchBytes_length]; omega
  calc u.byte (A + k) = (fetchBytes u A)[k] := (fetchBytes_getElem u A k hfetched).symm
    _ = (fetchBytes u A).getD k 0#8 := (List.getD_eq_getElem _ _ hfetched).symm
    _ = (encode u.params.opcodeMap i).getD k 0#8 := by
      rw [hbytes, List.getD_append _ _ _ _ (hlen.symm ▸ hk)]

/-- The fetch of bytes that do not decode has read up to the end of Memory. -/
theorem fetchBytes_length_of_decode_error {u : State} {A : Nat} {e : DecodeError}
    (hmap : u.params.opcodeMap.wf = true) (hA : A < u.params.memSize)
    (h : decode u.params.opcodeMap (fetchBytes u A) = .error e) :
    (fetchBytes u A).length = u.params.memSize - A := by
  by_contra hne
  have hlen : maxInstrLen ≤ (fetchBytes u A).length := by
    have hmin := fetchBytes_length u A
    omega
  cases hbytes : fetchBytes u A with
  | nil =>
    rw [hbytes] at hlen
    exact absurd hlen (by decide)
  | cons op bs =>
    rw [hbytes] at h hlen
    obtain ⟨i, rest, hok, -⟩ := everyOpcodeDecodes _ op bs hmap hlen
    rw [hok] at h
    cases h

/-- Settles O38: no instruction is fetched from outside Memory, and bytes that hold none do not decode, which is
so only where Memory ends first. -/
theorem fetchOutOfRangeFaults : Obligations.FetchOutOfRangeFaults := by
  intro s u smp rest hrun hnext hu
  have hstep : step s = runInstruction u := hu ▸ step_of_cycle hrun hnext
  rw [hstep]
  refine ⟨fun hout => runInstruction_of_fetch_error (fetch_of_pc_out hout), fun A hmap hpc hA hnone => ?_⟩
  have hin : inMemory u.params.memSize u.pc = true := inMemory_iff.2 (by omega)
  have hpcA : u.pc.toNat = A := by omega
  cases hdecode : decode u.params.opcodeMap (fetchBytes u A) with
  | ok r =>
    obtain ⟨i, more⟩ := r
    obtain ⟨henc, hfits, hbytes⟩ := encoding_of_decode_fetchBytes hmap hdecode
    have hopcode : i.opcode u.params.opcodeMap = u.byte A := (hbytes 0 i.len_pos).symm
    exact absurd hfits (Nat.not_le.2 (hnone i hopcode henc fun k hk _ => hbytes k hk))
  | error e =>
    have hend : u.pc + ((fetchBytes u A).length : Int) = u.params.memSize := by
      rw [fetchBytes_length_of_decode_error hmap hA hdecode]
      omega
    rw [← hend]
    have hfetch := fetch_of_decode_error hin (hpcA.symm ▸ hdecode)
    rw [hpcA] at hfetch
    exact runInstruction_of_fetch_error hfetch

/-- Settles O39: the nine bytes of the sample, from the first input register on. -/
theorem sampleFillsInputRegisters : Obligations.SampleFillsInputRegisters := by
  rintro s smp io rfl
  exact ⟨byte_sampleInputs_at s smp 0 (by decide), word_sampleInputs s smp 1 _ (by decide) rfl rfl,
    word_sampleInputs s smp 3 _ (by decide) rfl rfl, word_sampleInputs s smp 5 _ (by decide) rfl rfl,
    word_sampleInputs s smp 7 _ (by decide) rfl rfl, fun _ ha => byte_sampleInputs_out s smp ha, rfl⟩

end Sys2Proof.Machine
end

section
/-! SUPPORT. What the events of the host and of the controller do: one equation for each case of the shared
operations, and then, said once, what a step can do. -/

namespace Sys2Proof.Machine

/-! ### The answers of the store (60_exceptions R284, R286) -/

section
variable {s : State} {r : Request}

theorem onCommitted_of_none (hw : s.persist.writing = none) : onCommitted s = s := by
  simp [onCommitted, hw]

/-- The commit of HLT's own request ends HLT's wait. -/
theorem onCommitted_of_hlt (hw : s.persist.writing = some r) (horigin : r.origin = .foreground)
    (hwait : s.status = .checkpointing) : onCommitted s = resumeHlt { s with persist := s.persist.commit r } := by
  simp [onCommitted, hw, horigin, hwait]

/-- Any other commit changes the controller alone. -/
theorem onCommitted_of_not_hlt (hw : s.persist.writing = some r)
    (hother : ¬ (r.origin = .foreground ∧ s.status = .checkpointing)) :
    onCommitted s = { s with persist := s.persist.commit r } := by
  simp only [onCommitted, hw]
  split
  · exact absurd ⟨‹r.origin = .foreground›, ‹s.status = .checkpointing›⟩ hother
  · rfl

theorem onIoError_of_none (hw : s.persist.writing = none) : onIoError s = s := by
  simp [onIoError, hw]

/-- A failed background write stops an engine that runs or waits in HLT. -/
theorem onIoError_of_background (hw : s.persist.writing = some r)
    (h : s.status = .running ∨ (s.status = .checkpointing ∧ r.origin = .background)) :
    onIoError s = backgroundFault { s with persist := s.persist.fail } := by
  rcases h with hrun | ⟨hwait, horigin⟩
  · simp [onIoError, hw, hrun]
  · simp [onIoError, hw, hwait, horigin]

/-- HLT's own failed write is HLT's fault. -/
theorem onIoError_of_hlt (hw : s.persist.writing = some r) (horigin : r.origin = .foreground)
    (hwait : s.status = .checkpointing) : onIoError s = foregroundFault { s with persist := s.persist.fail } := by
  simp [onIoError, hw, horigin, hwait]

/-- A write that fails while CLS waits leaves the wait as it is. -/
theorem onIoError_of_waitingFrame (hw : s.persist.writing = some r) (hwait : s.status = .waitingFrame) :
    onIoError s = { s with persist := { s.persist.fail with ioPending := true } } := by
  simp [onIoError, hw, hwait]

/-- An engine that has stopped takes no second fault. -/
theorem onIoError_of_stopped (hw : s.persist.writing = some r)
    (hstop : (∃ record, s.status = .faulted record) ∨ s.status = .terminated) :
    onIoError s = { s with persist := s.persist.fail } := by
  rcases hstop with ⟨record, hfault⟩ | hterm
  · simp [onIoError, hw, hfault]
  · simp [onIoError, hw, hterm]

/-! ### The end of CLS's wait (45_presentation R238) -/

theorem onFrameReady_of_waitingFrame (hwait : s.status = .waitingFrame) : onFrameReady s = resumeCls s := by
  simp [onFrameReady, hwait]

theorem onFrameReady_of_not_waiting (h : s.status ≠ .waitingFrame) : onFrameReady s = s := by
  unfold onFrameReady
  split
  · exact absurd ‹_› h
  all_goals rfl

theorem resumeCls_of_not_pending (h : s.persist.ioPending = false) :
    resumeCls s = { s.emit .clear with status := .running, pc := s.pc + 1 } := by
  simp [resumeCls, h]

theorem resumeCls_of_pending (h : s.persist.ioPending = true) :
    resumeCls s = backgroundFault
      { s.emit .clear with status := .running, pc := s.pc + 1, persist := { s.persist with ioPending := false } } := by
  simp [resumeCls, h]

end

theorem Persist.serve_of_idle {p : Persist} {r : Request} {queue : List Request} (hs : p.serving = true)
    (hw : p.writing = none) (hq : p.queue = r :: queue) : p.serve = { p with writing := some r, queue := queue } := by
  simp [Persist.serve, hs, hw, hq]

theorem Persist.pending_of_writing {p : Persist} {r : Request} (hw : p.writing = some r) :
    p.pending = r :: p.queue := by
  simp [Persist.pending, hw]

theorem Persist.pending_of_idle {p : Persist} (hw : p.writing = none) : p.pending = p.queue := by
  simp [Persist.pending, hw]

theorem Persist.pending_submit (p : Persist) (origin : Origin) (d : Drive) :
    (p.submit origin d).pending = p.pending ++ [⟨p.nextId, origin, d⟩] :=
  (List.append_assoc _ _ _).symm

/-! ### What a step can do -/

/-- The engine runs or waits: no fault and no termination has stopped it. -/
def isLive (st : Status) : Prop := st = .running ∨ st = .waitingFrame ∨ st = .checkpointing

/-- `t` is a state that an event other than a cycle can lead to from `s` (60_exceptions R268, R272, R282 to
R286). -/
inductive Boundary (s : State) : State → Prop
  /-- An event without a meaning where it falls, or a cycle of an engine that waits. -/
  | idles : Boundary s s
  | terminates (hlive : isLive s.status) : Boundary s { s with status := .terminated }
  | ticks (hlive : isLive s.status) : Boundary s { s with persist := s.persist.submit .background s.drive }
  | serves (r : Request) (queue : List Request) (hserving : s.persist.serving = true)
      (hw : s.persist.writing = none) (hq : s.persist.queue = r :: queue) :
      Boundary s { s with persist := { s.persist with writing := some r, queue := queue } }
  | commits (r : Request) (hw : s.persist.writing = some r)
      (hother : ¬ (r.origin = .foreground ∧ s.status = .checkpointing)) :
      Boundary s { s with persist := s.persist.commit r }
  | retiresHlt (r : Request) (hw : s.persist.writing = some r) (horigin : r.origin = .foreground)
      (hwait : s.status = .checkpointing) :
      Boundary s { s with persist := s.persist.commit r, status := .running, pc := s.pc + 1 }
  | fails (r : Request) (hw : s.persist.writing = some r)
      (hstop : (∃ record, s.status = .faulted record) ∨ s.status = .terminated) :
      Boundary s { s with persist := s.persist.fail }
  | failsInCls (r : Request) (hw : s.persist.writing = some r) (hwait : s.status = .waitingFrame) :
      Boundary s { s with persist := { s.persist.fail with ioPending := true } }
  | failsAndStops (r : Request) (opcode : Option Byte) (hw : s.persist.writing = some r)
      (hlive : s.status = .running ∨ s.status = .checkpointing) :
      Boundary s (stopWith ⟨.ioFault .driveImage .write, s.pc, opcode⟩ { s with persist := s.persist.fail })
  | retiresCls (hwait : s.status = .waitingFrame) (hnone : s.persist.ioPending = false) :
      Boundary s { s with draws := s.draws ++ [.clear], status := .running, pc := s.pc + 1 }
  | retiresClsAndStops (hwait : s.status = .waitingFrame) :
      Boundary s (stopWith ⟨.ioFault .driveImage .write, s.pc + 1, none⟩
        { s with draws := s.draws ++ [.clear], status := .running, pc := s.pc + 1,
                 persist := { s.persist with ioPending := false } })

section
variable (s : State)

theorem boundary_onServe : Boundary s (onServe s) := by
  unfold onServe
  rcases s.persist.serve_cases with ⟨r, queue, hserving, hw, hq, hserve⟩ | hserve
  · rw [hserve]
    exact .serves r queue hserving hw hq
  · rw [hserve]
    exact .idles

theorem boundary_onCommitted : Boundary s (onCommitted s) := by
  cases hw : s.persist.writing with
  | none => rw [onCommitted_of_none hw]; exact .idles
  | some r =>
    by_cases hhlt : r.origin = .foreground ∧ s.status = .checkpointing
    · obtain ⟨horigin, hwait⟩ := hhlt
      rw [onCommitted_of_hlt hw horigin hwait]
      exact .retiresHlt r hw horigin hwait
    · rw [onCommitted_of_not_hlt hw hhlt]
      exact .commits r hw hhlt

theorem boundary_onIoError : Boundary s (onIoError s) := by
  cases hw : s.persist.writing with
  | none => rw [onIoError_of_none hw]; exact .idles
  | some r =>
    cases hstatus : s.status with
    | running =>
      rw [onIoError_of_background hw (.inl hstatus)]
      exact .failsAndStops r none hw (.inl hstatus)
    | waitingFrame =>
      rw [onIoError_of_waitingFrame hw hstatus]
      exact .failsInCls r hw hstatus
    | checkpointing =>
      cases horigin : r.origin with
      | background =>
        rw [onIoError_of_background hw (.inr ⟨hstatus, horigin⟩)]
        exact .failsAndStops r none hw (.inr hstatus)
      | foreground =>
        rw [onIoError_of_hlt hw horigin hstatus]
        exact .failsAndStops r _ hw (.inr hstatus)
    | faulted record =>
      rw [onIoError_of_stopped hw (.inl ⟨record, hstatus⟩)]
      exact .fails r hw (.inl ⟨record, hstatus⟩)
    | terminated =>
      rw [onIoError_of_stopped hw (.inr hstatus)]
      exact .fails r hw (.inr hstatus)

theorem boundary_onFrameReady : Boundary s (onFrameReady s) := by
  by_cases hwait : s.status = .waitingFrame
  · rw [onFrameReady_of_waitingFrame hwait]
    cases hpending : s.persist.ioPending with
    | false => rw [resumeCls_of_not_pending hpending]; exact .retiresCls hwait hpending
    | true => rw [resumeCls_of_pending hpending]; exact .retiresClsAndStops hwait
  · rw [onFrameReady_of_not_waiting hwait]
    exact .idles

end

section
variable {s t : State} {e : HostEvent}

theorem onWaiting_next (hwait : s.status = .waitingFrame ∨ s.status = .checkpointing)
    (h : onWaiting e s = .next t) : Boundary s t := by
  cases e with
  | cycle => cases h; exact .idles
  | tick => cases h; exact .ticks (.inr hwait)
  | serve => cases h; exact boundary_onServe s
  | committed => cases h; exact boundary_onCommitted s
  | ioError => cases h; exact boundary_onIoError s
  | frameReady => cases h; exact boundary_onFrameReady s
  | terminate => cases h; exact .terminates (.inr hwait)

theorem onRunning_next (hrun : s.status = .running) (h : onRunning e s = .next t) :
    (∃ smp, runCycle smp s = .next t) ∨ Boundary s t := by
  cases e with
  | cycle smp => exact .inl ⟨smp, h⟩
  | tick => cases h; exact .inr (.ticks (.inl hrun))
  | serve => cases h; exact .inr (boundary_onServe s)
  | committed => cases h; exact .inr (boundary_onCommitted s)
  | ioError => cases h; exact .inr (boundary_onIoError s)
  | frameReady => cases h; exact .inr (boundary_onFrameReady s)
  | terminate => cases h; exact .inr (.terminates (.inl hrun))

theorem onFaulted_next {r : FaultRecord} (h : onFaulted e r s = .next t) : Boundary s t := by
  cases e with
  | cycle => cases h
  | serve => cases h; exact boundary_onServe s
  | committed => cases h; exact boundary_onCommitted s
  | ioError => cases h; exact boundary_onIoError s
  | tick | frameReady | terminate => cases h; exact .idles

/-- A terminated block's only steps are the two answers to the write in flight. -/
theorem onTerminated_next (h : onTerminated e s = .next t) :
    ∃ r, s.persist.writing = some r ∧ (t = onCommitted s ∨ t = onIoError s) := by
  unfold onTerminated at h
  split at h
  · rename_i r hw
    cases h
    exact ⟨r, hw, .inl rfl⟩
  · rename_i r hw
    cases h
    exact ⟨r, hw, .inr rfl⟩
  · cases h

/-- What a cycle can do: the fault of the fetch, or the effect of the instruction that was fetched. -/
theorem runInstruction_next (h : runInstruction s = .next t) :
    (∃ f, t = enterFault f s) ∨ ∃ i, inMemory s.params.memSize s.pc = true ∧ Effect i s t := by
  unfold runInstruction at h
  cases hfetch : fetch s with
  | error f =>
    rw [hfetch] at h
    exact .inl ⟨f, raiseFault_next h⟩
  | ok i =>
    rw [hfetch] at h
    cases hin : inMemory s.params.memSize s.pc with
    | true => exact .inr ⟨i, rfl, exec_next h⟩
    | false =>
      rw [fetch_of_pc_out hin] at hfetch
      cases hfetch

/-- What an event can do: a running engine's cycle, or one of the rest. -/
theorem onEvent_next (h : onEvent e s = .next t) :
    (s.status = .running ∧ ∃ smp, runCycle smp s = .next t) ∨ Boundary s t := by
  cases hstatus : s.status with
  | running =>
    rw [onEvent_of_running e hstatus] at h
    exact (onRunning_next hstatus h).imp_left fun hcycle => ⟨rfl, hcycle⟩
  | waitingFrame =>
    rw [onEvent_of_waitingFrame e hstatus] at h
    exact .inr (onWaiting_next (.inl hstatus) h)
  | checkpointing =>
    rw [onEvent_of_checkpointing e hstatus] at h
    exact .inr (onWaiting_next (.inr hstatus) h)
  | faulted r =>
    rw [onEvent_of_faulted e hstatus] at h
    exact .inr (onFaulted_next h)
  | terminated =>
    rw [onEvent_of_terminated e hstatus] at h
    obtain ⟨r, -, rfl | rfl⟩ := onTerminated_next h
    · exact .inr (boundary_onCommitted s)
    · exact .inr (boundary_onIoError s)

end

/-- Taking an event changes only the events to come. -/
theorem takeEvent_snd (s : State) :
    (takeEvent s).2 = { s with host := (takeEvent s).2.host, drawn := (takeEvent s).2.drawn } := by
  unfold takeEvent
  split <;> rfl

/-- What a step can do, `u` being the state without the event it takes: a running engine's cycle, or what one of
the other events does. -/
theorem step_next {s t : State} (h : step s = .next t) :
    ∃ host drawn u, u = { s with host := host, drawn := drawn } ∧
      ((u.status = .running ∧ ∃ smp, runInstruction (sampleInputs smp u) = .next t) ∨ Boundary u t) :=
  ⟨_, _, _, takeEvent_snd s, onEvent_next h⟩

/-- A step of an engine that does not run is no cycle. -/
theorem step_next_of_not_running {s t : State} (hrun : s.status ≠ .running) (h : step s = .next t) :
    ∃ host drawn, Boundary { s with host := host, drawn := drawn } t := by
  obtain ⟨host, drawn, u, rfl, ⟨hu, -⟩ | hboundary⟩ := step_next h
  · exact absurd hu hrun
  · exact ⟨host, drawn, hboundary⟩

end Sys2Proof.Machine
end

section
/-! SUPPORT. What a step makes of each part of the state: the engine, which only a cycle changes, and the
persistence controller. -/

namespace Sys2Proof.Machine

/-! ### The engine -/

/-- What only an instruction changes is as before. -/
structure SameEngine (s t : State) : Prop where
  regs   : t.regs = s.regs
  carry  : t.carry = s.carry
  sp     : t.sp = s.sp
  mem    : t.mem = s.mem
  drive  : t.drive = s.drive
  ft     : t.ft = s.ft
  cs     : t.cs = s.cs
  params : t.params = s.params

theorem SameEngine.sameRegs {s t : State} (h : SameEngine s t) : SameRegs s t := fun q => by
  rw [State.reg, State.reg, h.regs]

theorem SameEngine.sameMemory {s t : State} (h : SameEngine s t) : SameMemory s t := fun a => by
  rw [State.byte, State.byte, h.mem]

theorem Boundary.sameEngine {s t : State} (h : Boundary s t) : SameEngine s t := by
  cases h <;> exact ⟨rfl, rfl, rfl, rfl, rfl, rfl, rfl, rfl⟩

theorem isLive.ne_terminated {st : Status} (h : isLive st) : st ≠ .terminated := by
  rcases h with rfl | rfl | rfl <;> nofun

theorem isLive.ne_faulted {st : Status} (h : isLive st) (r : FaultRecord) : st ≠ .faulted r := by
  rcases h with rfl | rfl | rfl <;> nofun

/-- An event but a cycle leaves the status, the program counter and the draw port, or it ends a wait or stops the
engine. -/
theorem Boundary.progress {s t : State} (h : Boundary s t) :
    (t.status = s.status ∧ t.pc = s.pc ∧ t.draws = s.draws) ∨
      (t.status ≠ s.status ∧ (t.status = .running → t.pc = s.pc + 1)) := by
  cases h with
  | idles | ticks | serves | commits | fails | failsInCls => exact .inl ⟨rfl, rfl, rfl⟩
  | terminates hlive => exact .inr ⟨hlive.ne_terminated.symm, nofun⟩
  | retiresHlt _ _ _ hwait => exact .inr ⟨by rw [hwait]; nofun, fun _ => rfl⟩
  | retiresCls hwait => exact .inr ⟨by rw [hwait]; nofun, fun _ => rfl⟩
  | retiresClsAndStops hwait => exact .inr ⟨by rw [hwait]; nofun, nofun⟩
  | failsAndStops _ _ _ hlive => exact .inr ⟨by rcases hlive with h | h <;> rw [h] <;> nofun, nofun⟩

/-- A faulted engine keeps all but the controller's state, which takes no new request. -/
theorem Boundary.of_faulted {s t : State} {r : FaultRecord} (h : Boundary s t) (hfault : s.status = .faulted r) :
    t = { s with persist := t.persist } ∧ t.persist.nextId = s.persist.nextId := by
  cases h with
  | idles | serves | commits | fails => exact ⟨rfl, rfl⟩
  | terminates hlive | ticks hlive => exact absurd hfault (hlive.ne_faulted r)
  | retiresHlt _ _ _ hwait => exact absurd (hfault.symm.trans hwait) nofun
  | failsInCls _ _ hwait | retiresCls hwait | retiresClsAndStops hwait =>
    exact absurd (hfault.symm.trans hwait) nofun
  | failsAndStops _ _ _ hlive => rcases hlive with hlive | hlive <;> exact absurd (hfault.symm.trans hlive) nofun

/-! ### The controller (60_exceptions R284) -/

/-- `q` is what a step can make of the controller `p` of a machine with Drive `d`. -/
inductive Persist.Moves (p : Persist) (d : Drive) : Persist → Prop
  | keeps (pending : Bool) : Moves p d { p with ioPending := pending }
  | submits (origin : Origin) : Moves p d (p.submit origin d)
  | serves (r : Request) (queue : List Request) (hserving : p.serving = true) (hw : p.writing = none)
      (hq : p.queue = r :: queue) : Moves p d { p with writing := some r, queue := queue }
  | commits (r : Request) (hw : p.writing = some r) : Moves p d (p.commit r)
  | fails (r : Request) (pending : Bool) (hw : p.writing = some r) : Moves p d { p.fail with ioPending := pending }

theorem Boundary.persist_moves {s t : State} (h : Boundary s t) : s.persist.Moves s.drive t.persist := by
  cases h with
  | idles | terminates | retiresCls | retiresClsAndStops => exact .keeps _
  | ticks => exact .submits .background
  | serves r queue hserving hw hq => exact .serves r queue hserving hw hq
  | commits r hw => exact .commits r hw
  | retiresHlt r hw => exact .commits r hw
  | fails r hw => exact .fails r _ hw
  | failsInCls r hw => exact .fails r true hw
  | failsAndStops r _ hw => exact .fails r _ hw

theorem Effect.persist_moves {i : Instr} {s t : State} (h : Effect i s t) : s.persist.Moves s.drive t.persist := by
  rcases h.persist_cases with hsame | ⟨-, hsubmit⟩
  · rw [hsame]
    exact .keeps _
  · rw [hsubmit]
    exact .submits .foreground

theorem step_moves {s t : State} (h : step s = .next t) : s.persist.Moves s.drive t.persist := by
  obtain ⟨host, drawn, u, rfl, ⟨-, smp, hrun⟩ | hboundary⟩ := step_next h
  · rcases runInstruction_next hrun with ⟨f, rfl⟩ | ⟨i, -, heffect⟩
    · exact .keeps _
    · exact heffect.persist_moves
  · exact hboundary.persist_moves

/-- The write that is in flight is the oldest pending request; a service begins that one. -/
theorem Persist.pending_serve {p : Persist} {r : Request} {queue : List Request} (hw : p.writing = none)
    (hq : p.queue = r :: queue) : Persist.pending { p with writing := some r, queue := queue } = p.pending := by
  rw [Persist.pending_of_idle hw, hq]
  rfl

/-! ### A terminated block (00_scope R17) -/

section
variable {s : State}

theorem onTerminated_of_idle (e : HostEvent) (hw : s.persist.writing = none) :
    onTerminated e s = .fault .blockTerminated := by
  cases e <;> simp [onTerminated, hw]

theorem step_of_terminated (hterm : s.status = .terminated) :
    ∃ e host drawn, step s = onTerminated e { s with host := host, drawn := drawn } := by
  refine ⟨(takeEvent s).1, (takeEvent s).2.host, (takeEvent s).2.drawn, ?_⟩
  rw [← takeEvent_snd s]
  exact onEvent_of_terminated _ (by rw [takeEvent_snd s]; exact hterm)

/-- The answer to the write in flight changes the controller alone. -/
theorem onTerminated_next_persist {e : HostEvent} {t : State} (h : onTerminated e s = .next t)
    (hterm : s.status = .terminated) :
    ∃ r, s.persist.writing = some r ∧
      (t = { s with persist := s.persist.commit r } ∨ t = { s with persist := s.persist.fail }) := by
  obtain ⟨r, hw, rfl | rfl⟩ := onTerminated_next h
  · refine ⟨r, hw, .inl (onCommitted_of_not_hlt hw ?_)⟩
    rintro ⟨-, hwait⟩
    exact absurd (hterm.symm.trans hwait) nofun
  · exact ⟨r, hw, .inr (onIoError_of_stopped hw (.inr hterm))⟩

end

/-! ### Equations for the statements about one event -/

section
variable {s : State} {rest : List HostEvent}

/-- A live engine meets every event but a cycle, an answer of the store and `frame_ready` in the same way. -/
theorem step_of_live {e : HostEvent} {t : State} (hlive : isLive s.status) (hnext : NextEvent s e rest)
    (hrunning : onRunning e { s with host := rest } = .next t)
    (hwaiting : onWaiting e { s with host := rest } = .next t) : step s = .next t := by
  rw [step_of_nextEvent hnext]
  rcases hlive with h | h | h
  · exact (onEvent_of_running (s := { s with host := rest }) e h).trans hrunning
  · exact (onEvent_of_waitingFrame (s := { s with host := rest }) e h).trans hwaiting
  · exact (onEvent_of_checkpointing (s := { s with host := rest }) e h).trans hwaiting

theorem step_committed_of_live (hlive : isLive s.status) (hnext : NextEvent s .committed rest) :
    step s = .next (onCommitted { s with host := rest }) :=
  step_of_live hlive hnext rfl rfl

theorem step_ioError_of_live (hlive : isLive s.status) (hnext : NextEvent s .ioError rest) :
    step s = .next (onIoError { s with host := rest }) :=
  step_of_live hlive hnext rfl rfl

theorem step_frameReady_of_waitingFrame (hwait : s.status = .waitingFrame) (hnext : NextEvent s .frameReady rest) :
    step s = .next (resumeCls { s with host := rest }) := by
  rw [step_of_live (.inr (.inl hwait)) hnext rfl rfl]
  exact congrArg _ (onFrameReady_of_waitingFrame hwait)

end

end Sys2Proof.Machine
end

section
/-! PROOFS. The statements about faults, waits, the persistence controller and termination (60_exceptions,
45_presentation R238, 46_termination R257, 00_scope R17). -/

namespace Sys2Proof.Machine

/-- Settles O27: CLS emits Present and waits; of the events that the wait meets, a cycle is idle and
`frame_ready` ends it. -/
theorem clsPresentsWaitsClears : Obligations.ClsPresentsWaitsClears := by
  intro s
  refine ⟨rfl, ⟨_, rfl, fun _ => rfl, fun _ => rfl, rfl⟩, fun smp rest hwait hnext => ?cycle,
    fun rest hwait hnone hnext => ?frameReady⟩
  case cycle =>
    exact (step_of_nextEvent hnext).trans (onEvent_of_waitingFrame _ hwait)
  case frameReady =>
    rw [step_frameReady_of_waitingFrame hwait hnext]
    exact congrArg _ (resumeCls_of_not_pending hnone)

/-- Settles O29: HLT submits and waits; the two answers to its own write end the wait. -/
theorem hltCheckpointsAndGoesOn : Obligations.HltCheckpointsAndGoesOn := by
  intro s
  refine ⟨rfl, ⟨_, rfl, fun _ => rfl, fun _ => rfl, Persist.pending_submit _ _ _, rfl⟩,
    fun r rest hwait hw horigin hnext => ?committed, fun r rest hwait hw horigin hnext => ?ioError⟩
  case committed =>
    rw [step_committed_of_live (.inr (.inr hwait)) hnext]
    exact congrArg _ (onCommitted_of_hlt hw horigin hwait)
  case ioError =>
    rw [step_ioError_of_live (.inr (.inr hwait)) hnext]
    exact congrArg _ (onIoError_of_hlt hw horigin hwait)

/-- Settles O42: the opcode of the record is there while the program counter is an address of Memory. -/
theorem faultEntryRecords : Obligations.FaultEntryRecords := by
  intro f s
  constructor
  · intro A hpc hA
    have hopcode : s.opcodeHere = some (s.byte A) := by
      rw [State.opcodeHere, if_pos (inMemory_iff.2 (by omega)), hpc, Int.toNat_natCast]
    rw [enterFault, stopWith, hopcode, hpc]
  · intro hout
    have hopcode : s.opcodeHere = none := by
      rw [State.opcodeHere, if_neg (by simp [hout])]
    rw [enterFault, stopWith, hopcode]

/-- Settles O44: a cycle is a fault of the step, and no other event reaches the engine. -/
theorem faultedIsFinal : Obligations.FaultedIsFinal := by
  intro s r hfault
  constructor
  · intro smp rest hnext
    exact (step_of_nextEvent hnext).trans (onEvent_of_faulted _ hfault)
  · intro t hstep
    have hrun : s.status ≠ .running := by rw [hfault]; nofun
    obtain ⟨host, drawn, hboundary⟩ := step_next_of_not_running hrun hstep
    obtain ⟨ht, hid⟩ := hboundary.of_faulted hfault
    refine ⟨?_, hid⟩
    rw [ht]

/-- Settles O45: by the status in which the store's failure falls. -/
theorem backgroundFailureStopsEngine : Obligations.BackgroundFailureStopsEngine := by
  intro s rest
  refine ⟨fun q hlive hw hnext => ?stops, fun q hwait hw hnext => ?inCls, fun hwait hpending hnext => ?endOfCls⟩
  case stops =>
    rw [step_ioError_of_live (hlive.imp_right fun h => .inr h.1) hnext]
    exact congrArg _ (onIoError_of_background hw hlive)
  case inCls =>
    rw [step_ioError_of_live (.inr (.inl hwait)) hnext]
    exact congrArg _ (onIoError_of_waitingFrame hw hwait)
  case endOfCls =>
    rw [step_frameReady_of_waitingFrame hwait hnext]
    exact congrArg _ (resumeCls_of_pending hpending)

/-- Settles O51: a waiting engine has no cycle, and no other event changes the engine. -/
theorem waitsLeaveTheEngineAlone : Obligations.WaitsLeaveTheEngineAlone := by
  intro s t hwait hstep
  have hrun : s.status ≠ .running := by rcases hwait with h | h <;> rw [h] <;> nofun
  obtain ⟨host, drawn, h⟩ := step_next_of_not_running hrun hstep
  have hsame := h.sameEngine
  refine ⟨hsame.sameRegs, hsame.sameMemory, hsame.carry, hsame.sp, hsame.drive, hsame.ft, hsame.cs, ?_, ?_⟩
  · intro hstatus
    exact (h.progress.resolve_right fun hended => hended.1 hstatus).2
  · intro hresumed
    rcases h.progress with ⟨hstatus, -⟩ | ⟨-, hpc⟩
    · exact absurd (hstatus.symm.trans hresumed) hrun
    · exact hpc hresumed

/-- Settles O52: by the events of a terminated block. -/
theorem terminatedIsFinal : Obligations.TerminatedIsFinal := by
  intro s hterm
  refine ⟨fun smp rest hnext => ?cycle, fun hw => ?idle, fun t hstep => ?answer⟩
  case cycle =>
    exact (step_of_nextEvent hnext).trans (onEvent_of_terminated _ hterm)
  case idle =>
    obtain ⟨e, host, drawn, h⟩ := step_of_terminated hterm
    exact h.trans (onTerminated_of_idle e hw)
  case answer =>
    obtain ⟨e, host, drawn, h⟩ := step_of_terminated hterm
    obtain ⟨r, hw, rfl | rfl⟩ := onTerminated_next_persist (h.symm.trans hstep) hterm
    · exact ⟨r, hw, rfl, .inl rfl⟩
    · exact ⟨r, hw, rfl, .inr rfl⟩

/-- Settles O53: each event in each live status. -/
theorem boundaryEventsActAlone : Obligations.BoundaryEventsActAlone := by
  intro s rest
  refine ⟨fun hlive => ⟨fun hnext => ?tick, fun r queue hserving hw hq hnext => ?serve, fun hnext => ?terminate⟩,
    fun r hlive hw hnext => ?commit⟩
  case tick => exact step_of_live hlive hnext rfl rfl
  case serve =>
    rw [step_of_live hlive hnext rfl rfl]
    have hserve := Persist.serve_of_idle hserving hw hq
    rw [onServe, hserve]
  case terminate => exact step_of_live hlive hnext rfl rfl
  case commit =>
    rw [step_committed_of_live (hlive.imp_right (Or.imp_right And.left)) hnext]
    refine congrArg _ (onCommitted_of_not_hlt hw ?_)
    rintro ⟨horigin, hwait⟩
    rcases hlive with h | h | ⟨-, h⟩
    · exact absurd (h.symm.trans hwait) nofun
    · exact absurd (h.symm.trans hwait) nofun
    · exact absurd (h.symm.trans horigin) nofun

/-- Settles O55: of what a step can do to the controller, only a commit touches the backing image. -/
theorem backingChangesOnlyByCommit : Obligations.BackingChangesOnlyByCommit := by
  intro s t hstep hne
  have hmoves := step_moves hstep
  generalize t.persist = q at hmoves hne ⊢
  cases hmoves with
  | keeps | submits | serves | fails => exact absurd rfl hne
  | commits r hw => exact ⟨r, hw, rfl, rfl, rfl⟩

/-- Settles O57: by what a step can do to the controller. -/
theorem requestsKeptInOrder : Obligations.RequestsKeptInOrder := by
  intro s t hstep
  have hmoves := step_moves hstep
  generalize t.persist = q at hmoves ⊢
  cases hmoves with
  | keeps => exact .inl rfl
  | submits origin => exact .inr (.inl ⟨origin, Persist.pending_submit _ _ _⟩)
  | serves r queue _ hw hq => exact .inl (Persist.pending_serve hw hq)
  | commits r hw => exact .inr (.inr ⟨r, hw, Persist.pending_of_writing hw, .inl ⟨rfl, rfl, rfl⟩⟩)
  | fails r _ hw => exact .inr (.inr ⟨r, hw, Persist.pending_of_writing hw, .inr ⟨rfl, rfl⟩⟩)

end Sys2Proof.Machine
end

section
/-! SUPPORT. Legal states: the controller's part of the invariant as a predicate of its own, and that everything a
step can do keeps each part. -/

namespace Sys2Proof.Machine

/-! ### The controller's part of the invariant -/

/-- What `State.Inv` says of the controller, by itself, for a Drive of `len` bytes. -/
structure Persist.Legal (p : Persist) (len : Nat) : Prop where
  backing_wf     : Drive.wf p.backing = true ∧ p.backing.len = len
  snapshots_wf   : ∀ r ∈ p.pending, Drive.wf r.snapshot = true ∧ r.snapshot.len = len
  numbers_rise   : p.numbers.Pairwise (· < ·)
  writing_served : p.serving = false → p.writing = none

theorem State.Inv.legal {s : State} (h : s.Inv) : s.persist.Legal s.drive.len :=
  ⟨h.backing_wf, h.snapshots_wf, h.numbers_rise, h.writing_served⟩

section
variable {p : Persist} {len : Nat} {r : Request}

theorem Persist.numbers_of_writing (hw : p.writing = some r) :
    p.numbers = p.lastCommitted.toList ++ (r.id :: (p.queue.map (·.id) ++ [p.nextId])) := by
  rw [Persist.numbers, Persist.pending_of_writing hw]
  rfl

/-- A new request's number is above all the others. -/
theorem Persist.numbers_submit (p : Persist) (origin : Origin) (d : Drive) :
    (p.submit origin d).numbers = p.numbers ++ [p.nextId + 1] := by
  rw [Persist.numbers, Persist.numbers, Persist.pending_submit]
  simp [Persist.submit]

theorem Persist.Legal.le_nextId (h : p.Legal len) {n : Nat} (hn : n ∈ p.numbers) : n ≤ p.nextId := by
  have hrise := h.numbers_rise
  rw [Persist.numbers, ← List.append_assoc] at hrise hn
  rcases List.mem_append.1 hn with hbefore | hlast
  · exact Nat.le_of_lt ((List.pairwise_append.1 hrise).2.2 n hbefore p.nextId (List.mem_singleton_self _))
  · exact Nat.le_of_eq (List.mem_singleton.1 hlast)

theorem Persist.Legal.submit (h : p.Legal len) (origin : Origin) {d : Drive} (hd : Drive.wf d = true)
    (hlen : d.len = len) : (p.submit origin d).Legal len where
  backing_wf := h.backing_wf
  snapshots_wf := by
    intro q hq
    rw [Persist.pending_submit, List.mem_append, List.mem_singleton] at hq
    rcases hq with hold | rfl
    · exact h.snapshots_wf q hold
    · exact ⟨hd, hlen⟩
  numbers_rise := by
    rw [Persist.numbers_submit]
    refine List.pairwise_append.2 ⟨h.numbers_rise, List.pairwise_singleton _ _, fun n hn m hm => ?_⟩
    rw [List.mem_singleton] at hm
    exact hm ▸ Nat.lt_succ_of_le (h.le_nextId hn)
  writing_served := h.writing_served

theorem Persist.Legal.serve (h : p.Legal len) {queue : List Request} (hserving : p.serving = true)
    (hw : p.writing = none) (hq : p.queue = r :: queue) :
    Persist.Legal { p with writing := some r, queue := queue } len where
  backing_wf := h.backing_wf
  snapshots_wf := by
    rw [Persist.pending_serve hw hq]
    exact h.snapshots_wf
  numbers_rise := by
    rw [Persist.numbers, Persist.pending_serve hw hq]
    exact h.numbers_rise
  writing_served := fun hover => absurd (hserving.symm.trans hover) nofun

theorem Persist.Legal.snapshots_of_queue (h : p.Legal len) (hw : p.writing = some r) :
    ∀ q ∈ p.queue, Drive.wf q.snapshot = true ∧ q.snapshot.len = len := fun q hq =>
  h.snapshots_wf q (by rw [Persist.pending_of_writing hw]; exact List.mem_cons_of_mem r hq)

/-- The number of the last commit gives way to that of the write that was in flight. -/
theorem Persist.Legal.commit (h : p.Legal len) (hw : p.writing = some r) : (p.commit r).Legal len where
  backing_wf := h.snapshots_wf r (by rw [Persist.pending_of_writing hw]; exact List.mem_cons_self)
  snapshots_wf := h.snapshots_of_queue hw
  numbers_rise := by
    have hrise := h.numbers_rise
    rw [Persist.numbers_of_writing hw] at hrise
    exact (List.pairwise_append.1 hrise).2.1
  writing_served := fun _ => rfl

theorem Persist.Legal.fail (h : p.Legal len) (hw : p.writing = some r) : p.fail.Legal len where
  backing_wf := h.backing_wf
  snapshots_wf := h.snapshots_of_queue hw
  numbers_rise := by
    have hrise := h.numbers_rise
    rw [Persist.numbers_of_writing hw] at hrise
    exact hrise.sublist ((List.sublist_cons_self _ _).append_left _)
  writing_served := fun _ => rfl

theorem Persist.Legal.setPending (h : p.Legal len) (pending : Bool) :
    Persist.Legal { p with ioPending := pending } len :=
  ⟨h.backing_wf, h.snapshots_wf, h.numbers_rise, h.writing_served⟩

/-- All that a step can do to the controller keeps it legal. -/
theorem Persist.Moves.legal {d : Drive} {q : Persist} (hmoves : p.Moves d q) (h : p.Legal len)
    (hd : Drive.wf d = true) (hlen : d.len = len) : q.Legal len := by
  cases hmoves with
  | keeps pending => exact h.setPending pending
  | submits origin => exact h.submit origin hd hlen
  | serves r queue hserving hw hq => exact h.serve hserving hw hq
  | commits r hw => exact h.commit hw
  | fails r pending hw => exact (h.fail hw).setPending pending

/-- What is being written is newer than what has committed and older than what is queued. -/
theorem Persist.Legal.number_of_writing (h : p.Legal len) (hw : p.writing = some r) :
    (∀ n, p.lastCommitted = some n → n < r.id) ∧ ∀ q ∈ p.queue, r.id < q.id := by
  have hrise := h.numbers_rise
  rw [Persist.numbers_of_writing hw] at hrise
  obtain ⟨-, hlater, hbefore⟩ := List.pairwise_append.1 hrise
  constructor
  · intro n hn
    exact hbefore n (by simp [hn]) r.id List.mem_cons_self
  · intro q hq
    exact (List.pairwise_cons.1 hlater).1 q.id (List.mem_append_left _ (List.mem_map_of_mem hq))

end

/-! ### The controller fits the status -/

section
variable {p : Persist} {d : Drive} {r : Request}

/-- Whether the controller fits depends on its flags and its pending requests alone. -/
theorem Persist.fits_congr {q : Persist} {st : Status} (hserving : q.serving = p.serving)
    (hio : q.ioPending = p.ioPending) (hpending : q.pending = p.pending) (h : p.fits d st) : q.fits d st := by
  cases st <;> simp only [Persist.fits, hserving, hio, hpending] at h ⊢ <;> exact h

theorem Persist.fits_of_stopped {st : Status} (hstop : (∃ record, st = .faulted record) ∨ st = .terminated) :
    p.fits d st := by
  rcases hstop with ⟨record, rfl⟩ | rfl <;> exact trivial

/-- A background request fits every live status. -/
theorem Persist.fits_submit_background {st : Status} (hlive : isLive st) (h : p.fits d st) :
    (p.submit .background d).fits d st := by
  have hbackground (hall : ∀ q ∈ p.pending, q.origin = .background) :
      ∀ q ∈ (p.submit .background d).pending, q.origin = .background := by
    intro q hq
    rw [Persist.pending_submit, List.mem_append, List.mem_singleton] at hq
    rcases hq with hold | rfl
    · exact hall q hold
    · rfl
  rcases hlive with rfl | rfl | rfl
  · obtain ⟨hserving, hio, hall⟩ := h
    exact ⟨hserving, hio, hbackground hall⟩
  · obtain ⟨hserving, hall⟩ := h
    exact ⟨hserving, hbackground hall⟩
  · obtain ⟨hserving, hio, before, q, after, hpending, horigin, hsnapshot, hbefore, hafter⟩ := h
    refine ⟨hserving, hio, before, q, after ++ [⟨p.nextId, .background, d⟩], ?_, horigin, hsnapshot, hbefore, ?_⟩
    · rw [Persist.pending_submit, hpending, List.append_assoc, List.cons_append]
    · intro q hq
      rw [List.mem_append, List.mem_singleton] at hq
      rcases hq with hold | rfl
      · exact hafter q hold
      · rfl

/-- HLT's request fits its wait. -/
theorem Persist.fits_submit_foreground (h : p.fits d .running) : (p.submit .foreground d).fits d .checkpointing := by
  obtain ⟨hserving, hio, hall⟩ := h
  exact ⟨hserving, hio, p.pending, _, [], Persist.pending_submit p .foreground d, rfl, rfl, hall, nofun⟩

theorem Persist.background_of_queue (hw : p.writing = some r) (hall : ∀ q ∈ p.pending, q.origin = .background) :
    ∀ q ∈ p.queue, q.origin = .background := fun q hq =>
  hall q (by rw [Persist.pending_of_writing hw]; exact List.mem_cons_of_mem r hq)

/-- While HLT waits, the write in flight is HLT's own, of the Drive as it is, or HLT's request is behind it. -/
theorem Persist.fits_checkpointing_writing (h : p.fits d .checkpointing) (hw : p.writing = some r) :
    (r.origin = .foreground ∧ r.snapshot = d ∧ (p.commit r).fits d .running) ∨
      (r.origin = .background ∧ (p.commit r).fits d .checkpointing) := by
  obtain ⟨hserving, hio, before, q, after, hpending, horigin, hsnapshot, hbefore, hafter⟩ := h
  rw [Persist.pending_of_writing hw] at hpending
  cases before with
  | nil =>
    obtain ⟨rfl, rfl⟩ := List.cons.inj hpending
    exact .inl ⟨horigin, hsnapshot, hserving, hio, hafter⟩
  | cons b before =>
    obtain ⟨rfl, hqueue⟩ := List.cons.inj hpending
    exact .inr ⟨hbefore r List.mem_cons_self, hserving, hio, before, q, after, hqueue, horigin, hsnapshot,
      fun b hb => hbefore b (List.mem_cons_of_mem r hb), hafter⟩

/-- A commit but that of HLT's own request fits the status it meets. -/
theorem Persist.fits_commit {st : Status} (h : p.fits d st) (hw : p.writing = some r)
    (hother : ¬ (r.origin = .foreground ∧ st = .checkpointing)) : (p.commit r).fits d st := by
  cases st with
  | running =>
    obtain ⟨hserving, hio, hall⟩ := h
    exact ⟨hserving, hio, Persist.background_of_queue (p := p) hw hall⟩
  | waitingFrame =>
    obtain ⟨hserving, hall⟩ := h
    exact ⟨hserving, Persist.background_of_queue (p := p) hw hall⟩
  | checkpointing =>
    rcases Persist.fits_checkpointing_writing h hw with ⟨horigin, -⟩ | ⟨-, hfits⟩
    · exact absurd ⟨horigin, rfl⟩ hother
    · exact hfits
  | faulted | terminated => exact trivial

end

theorem Boundary.persist_fits {s t : State} (h : Boundary s t) (hfits : s.persist.fits s.drive s.status) :
    t.persist.fits t.drive t.status := by
  cases h with
  | idles => exact hfits
  | terminates | failsAndStops | retiresClsAndStops => exact trivial
  | ticks hlive => exact Persist.fits_submit_background hlive hfits
  | serves r queue _ hw hq => exact Persist.fits_congr (p := s.persist) rfl rfl (Persist.pending_serve hw hq) hfits
  | commits r hw hother => exact Persist.fits_commit hfits hw hother
  | retiresHlt r hw horigin hwait =>
    rw [hwait] at hfits
    rcases Persist.fits_checkpointing_writing hfits hw with ⟨-, -, hrunning⟩ | ⟨hbackground, -⟩
    · exact hrunning
    · exact absurd (horigin.symm.trans hbackground) nofun
  | fails r hw hstop => exact Persist.fits_of_stopped hstop
  | failsInCls r hw hwait =>
    simp only [hwait] at hfits ⊢
    obtain ⟨-, hall⟩ := hfits
    exact ⟨rfl, Persist.background_of_queue (p := s.persist) hw hall⟩
  | retiresCls hwait hnone =>
    rw [hwait] at hfits
    obtain ⟨hserving, hall⟩ := hfits
    exact ⟨hserving.trans (by rw [hnone]; rfl), hnone, hall⟩

theorem Effect.persist_fits {i : Instr} {s t : State} (h : Effect i s t) (hrun : s.status = .running)
    (hfits : s.persist.fits s.drive s.status) : t.persist.fits t.drive t.status := by
  have hrunning : ∀ d, s.persist.fits d s.status := by
    rw [hrun] at hfits ⊢
    exact fun _ => hfits
  rw [hrun] at hfits
  cases h with
  | faults => exact trivial
  | waitsForFrame =>
    obtain ⟨hserving, hio, hall⟩ := hfits
    exact ⟨by rw [hserving, hio]; rfl, hall⟩
  | waitsForCommit => exact Persist.fits_submit_foreground hfits
  | _ => exact hrunning _

/-! ### The diagnostic port -/

theorem diagnosed_of_not_faulted {s : State} (hsafe : s.safe) : s.diagnosed ↔ s.diags = [] := by
  unfold State.diagnosed
  split
  · exact absurd ‹_› (hsafe _)
  all_goals rfl

theorem diagnosed_of_diags_nil {s : State} (hsafe : s.safe) (hdiags : s.diags = []) : s.diagnosed :=
  (diagnosed_of_not_faulted hsafe).2 hdiags

theorem isLive.safe {s : State} (h : isLive s.status) : s.safe := fun r => h.ne_faulted r

/-- The record that stops an engine without a diagnostic is its only one. -/
theorem diagnosed_stopWith {s : State} {r : FaultRecord} (hdiags : s.diags = []) (hpc : r.pc = s.pc) :
    (stopWith r s).diagnosed :=
  ⟨by rw [stopWith_diags, hdiags, List.nil_append], hpc⟩

theorem Boundary.diagnosed {s t : State} (h : Boundary s t) (hdiag : s.diagnosed) : t.diagnosed := by
  have hlive (hs : isLive s.status) : s.diags = [] := (diagnosed_of_not_faulted hs.safe).1 hdiag
  cases h with
  | idles | ticks | serves | commits | fails | failsInCls => exact hdiag
  | terminates hs => exact hlive hs
  | retiresHlt _ _ _ hwait => exact hlive (.inr (.inr hwait))
  | retiresCls hwait => exact hlive (.inr (.inl hwait))
  | retiresClsAndStops hwait => exact diagnosed_stopWith (hlive (.inr (.inl hwait))) rfl
  | failsAndStops _ _ _ hs => exact diagnosed_stopWith (hlive (hs.imp_right .inr)) rfl

theorem Effect.diagnosed {i : Instr} {s t : State} (h : Effect i s t) (hrun : s.status = .running)
    (hdiag : s.diagnosed) : t.diagnosed := by
  have hsafe : s.safe := isLive.safe (.inl hrun)
  have hdiags : s.diags = [] := (diagnosed_of_not_faulted hsafe).1 hdiag
  cases h with
  | faults => exact diagnosed_stopWith hdiags rfl
  | waitsForFrame | waitsForCommit => exact hdiags
  | _ => exact diagnosed_of_diags_nil hsafe hdiags

/-! ### The engine's part of the invariant -/

section
variable {i : Instr} {s t : State}

theorem Effect.mem_wf (h : Effect i s t) (hp : s.params.wf = true) (hm : Memory.wf s.params.memSize s.mem = true) :
    Memory.wf t.params.memSize t.mem = true := by
  cases h with
  | writesMemory m hkeeps => exact hkeeps hp hm
  | pushes v hin => exact Memory.wf_storeCell v (inMemory_toNat hin) hm
  | popsToMemory addr v => exact Memory.wf_storeCell v (absolute_lt hp addr) hm
  | _ => exact hm

theorem Effect.drive_wf (h : Effect i s t) (hd : Drive.wf s.drive = true) : Drive.wf t.drive = true := by
  cases h with
  | writesDrive cells hkeeps => exact hkeeps hd
  | _ => exact hd

theorem Effect.ft_wf (h : Effect i s t) (hft : idsWithin 0 s.ft = true) : idsWithin 0 t.ft = true := by
  cases h with
  | defines id => exact idsWithin_defineFunction _ (Nat.zero_le _) id.isLt hft
  | _ => exact hft

theorem Effect.ft_targets (h : Effect i s t) (hft : ∀ p ∈ s.ft, inMemory s.params.memSize p.2 = true) :
    ∀ p ∈ t.ft, inMemory t.params.memSize p.2 = true := by
  cases h with
  | defines id target hin =>
    intro p hp
    rcases mem_defineFunction hp with rfl | hold
    · exact hin
    · exact hft p hold
  | _ => exact hft

theorem Effect.cs_records (h : Effect i s t) (hin : inMemory s.params.memSize s.pc = true)
    (hcs : ∀ r ∈ s.cs, inMemory s.params.memSize r.site = true ∧ (r.resume = r.site + 3 ∨ r.resume = r.site + 4)) :
    ∀ r ∈ t.cs, inMemory t.params.memSize r.site = true ∧ (r.resume = r.site + 3 ∨ r.resume = r.site + 4) := by
  cases h with
  | returns record rest hrest =>
    intro r hr
    exact hcs r (hrest ▸ List.mem_cons_of_mem record hr)
  | calls len target hlen =>
    intro r hr
    rcases List.mem_cons.1 hr with rfl | hold
    · exact ⟨hin, hlen.imp (fun h => by rw [h]; rfl) (fun h => by rw [h]; rfl)⟩
    · exact hcs r hold
  | _ => exact hcs

theorem Effect.sp_range (h : Effect i s t) (hsp : 0 ≤ s.sp ∧ s.sp ≤ (s.params.memSize : Int)) :
    0 ≤ t.sp ∧ t.sp ≤ (t.params.memSize : Int) := by
  cases h with
  | pushes v hin =>
    have hroom := inMemory_iff.1 hin
    exact ⟨hroom.1, Int.le_of_lt hroom.2⟩
  | popsToReg x hin | popsToMemory addr v hin =>
    have hbyte := inMemory_iff.1 hin
    exact ⟨Int.le_add_one hbyte.1, hbyte.2⟩
  | _ => exact hsp

end

/-! ### Every step keeps the invariant -/

section
variable {s t : State}

/-- A state with the same engine is legal if the controller and the ports are. -/
theorem State.Inv.of_sameEngine (h : s.Inv) (hsame : SameEngine s t) (hmoves : s.persist.Moves s.drive t.persist)
    (hfits : t.persist.fits t.drive t.status) (hdiag : t.diagnosed) : t.Inv := by
  have hlegal := hmoves.legal h.legal h.drive_wf rfl
  obtain ⟨-, -, hsp, hmem, hdrive, hft, hcs, hparams⟩ := hsame
  refine ⟨?_, ?_, ?_, ?_, ?_, ?_, ?_, ?_, ?_, hlegal.numbers_rise, hlegal.writing_served, hfits, hdiag⟩
  · exact hparams ▸ h.params_wf
  · exact hparams ▸ hmem ▸ h.mem_wf
  · exact hdrive ▸ h.drive_wf
  · exact hft ▸ h.ft_wf
  · exact hparams ▸ hft ▸ h.ft_targets
  · exact hparams ▸ hcs ▸ h.cs_records
  · exact hparams ▸ hsp ▸ h.sp_range
  · exact hdrive ▸ hlegal.backing_wf
  · exact hdrive ▸ hlegal.snapshots_wf

theorem State.Inv.of_boundary (h : s.Inv) (hstep : Boundary s t) : t.Inv :=
  h.of_sameEngine hstep.sameEngine hstep.persist_moves (hstep.persist_fits h.persist_fits)
    (hstep.diagnosed h.diagnosed)

/-- A fault of a running engine is a legal state: the fault of the fetch, where there is no instruction. -/
theorem State.Inv.enterFault (h : s.Inv) (hrun : s.status = .running) (f : EngineFault) :
    (Machine.enterFault f s).Inv := by
  refine h.of_sameEngine ⟨rfl, rfl, rfl, rfl, rfl, rfl, rfl, rfl⟩ (.keeps _) trivial (diagnosed_stopWith ?_ rfl)
  exact (diagnosed_of_not_faulted (isLive.safe (.inl hrun))).1 h.diagnosed

theorem State.Inv.of_effect {i : Instr} (h : s.Inv) (hrun : s.status = .running)
    (hin : inMemory s.params.memSize s.pc = true) (heffect : Effect i s t) : t.Inv := by
  have hlegal := heffect.persist_moves.legal h.legal h.drive_wf rfl
  rw [← heffect.drive_len] at hlegal
  exact {
    params_wf := heffect.params_eq ▸ h.params_wf
    mem_wf := heffect.mem_wf h.params_wf h.mem_wf
    drive_wf := heffect.drive_wf h.drive_wf
    ft_wf := heffect.ft_wf h.ft_wf
    ft_targets := heffect.ft_targets h.ft_targets
    cs_records := heffect.cs_records hin h.cs_records
    sp_range := heffect.sp_range h.sp_range
    backing_wf := hlegal.backing_wf
    snapshots_wf := hlegal.snapshots_wf
    numbers_rise := hlegal.numbers_rise
    writing_served := hlegal.writing_served
    persist_fits := heffect.persist_fits hrun h.persist_fits
    diagnosed := heffect.diagnosed hrun h.diagnosed }

theorem State.Inv.of_runInstruction (h : s.Inv) (hrun : s.status = .running)
    (hstep : runInstruction s = .next t) : t.Inv := by
  rcases runInstruction_next hstep with ⟨f, rfl⟩ | ⟨i, hin, heffect⟩
  · exact h.enterFault hrun f
  · exact h.of_effect hrun hin heffect

theorem State.Inv.setMem (h : s.Inv) {m : Cells} (hm : Memory.wf s.params.memSize m = true) :
    State.Inv { s with mem := m } :=
  { h with mem_wf := hm }

theorem State.Inv.sampleInputs (h : s.Inv) (smp : InputSample) : (Machine.sampleInputs smp s).Inv := by
  obtain ⟨-, hio, -⟩ := Params.wf_iff.1 h.params_wf
  exact h.setMem (Memory.wf_sampleInputs smp s hio h.mem_wf)

/-- The events to come are no part of the invariant. -/
theorem State.Inv.setEvents (h : s.Inv) (host : List HostEvent) (drawn : Nat) :
    State.Inv { s with host := host, drawn := drawn } :=
  { h with }

end

/-! ### The start of a run -/

/-- A run starts legal (70_reset_and_hazards R301, R302). -/
theorem loaded_inv {p : Params} {m : Cells} {d : Drive} (hp : p.wf = true) (hm : Memory.wf p.memSize m = true)
    (hd : Drive.wf d = true) : (State.loaded p m d).Inv where
  params_wf := hp
  mem_wf := hm
  drive_wf := hd
  ft_wf := rfl
  ft_targets := nofun
  cs_records := nofun
  sp_range := by
    obtain ⟨-, -, -, hsp, -⟩ := Params.wf_iff.1 hp
    exact hsp
  backing_wf := ⟨hd, rfl⟩
  snapshots_wf := nofun
  numbers_rise := List.pairwise_singleton _ _
  writing_served := fun _ => rfl
  persist_fits := ⟨rfl, rfl, nofun⟩
  diagnosed := rfl

section
variable {p : Params} {code : List Byte}

theorem startRun_ok {d : Drive} (hcode : p.codeBase + code.length ≤ p.memSize) (hd : d.len ≤ Config.maxDriveLen) :
    startRun p (some code) (some d) = .ok (State.loaded p (cellsOfBytes p.codeBase code) d) := by
  simp only [startRun]
  rw [if_neg (by omega), if_neg (Nat.not_lt.2 hd)]

theorem startRun_code_too_long {image : Option Drive} (hbase : p.codeBase ≤ p.memSize)
    (hcode : p.memSize < p.codeBase + code.length) :
    startRun p (some code) image = .error (.ioFault .codeImage .read) := by
  simp only [startRun]
  rw [if_pos (by omega)]

theorem startRun_no_image (hcode : p.codeBase + code.length ≤ p.memSize) :
    startRun p (some code) none = .error (.ioFault .driveImage .read) := by
  simp only [startRun]
  rw [if_neg (by omega)]

theorem startRun_image_too_long {d : Drive} (hcode : p.codeBase + code.length ≤ p.memSize)
    (hd : Config.maxDriveLen < d.len) : startRun p (some code) (some d) = .error (.ioFault .driveImage .read) := by
  simp only [startRun]
  rw [if_neg (by omega), if_pos hd]

/-- The code image stands in Memory from CODE_BASE on (70_reset_and_hazards R301). -/
theorem byte_loaded_in (d : Drive) {k : Nat} :
    (State.loaded p (cellsOfBytes p.codeBase code) d).byte (p.codeBase + k) = code.getD k 0#8 := by
  rw [State.byte, State.loaded, cellAt_cellsOfBytes, if_pos (Nat.le_add_right _ k), Nat.add_sub_cancel_left]

theorem byte_loaded_out (d : Drive) {a : Nat} (ha : a < p.codeBase ∨ p.codeBase + code.length ≤ a) :
    (State.loaded p (cellsOfBytes p.codeBase code) d).byte a = 0#8 := by
  rw [State.byte, State.loaded, cellAt_cellsOfBytes]
  split
  · exact List.getD_eq_default _ _ (by omega)
  · rfl

theorem driveByte_ofBytes (m : Cells) (image : List Byte) (a : Nat) :
    (State.loaded p m (Drive.ofBytes image)).driveByte a = image.getD a 0#8 := by
  rw [State.driveByte, State.loaded, Drive.ofBytes, cellAt_cellsOfBytes, if_pos (Nat.zero_le a), Nat.sub_zero]

end

theorem reg_loaded (p : Params) (m : Cells) (d : Drive) (q : Reg) : (State.loaded p m d).reg q = 0#8 := by
  cases q <;> rfl

/-- A new run with a code image that fits starts with the backing image in the Drive. -/
theorem restart_ok {s : State} {code : List Byte} (hcode : s.params.codeBase + code.length ≤ s.params.memSize)
    (hd : s.persist.backing.len ≤ Config.maxDriveLen) :
    restart (some code) s = .ok { State.loaded s.params (cellsOfBytes s.params.codeBase code) s.persist.backing with
      host := s.host, drawn := s.drawn } := by
  rw [restart, startRun_ok hcode hd]

theorem State.Inv.backing_len_le {s : State} (h : s.Inv) : s.persist.backing.len ≤ Config.maxDriveLen :=
  (Drive.wf_iff.1 h.backing_wf.1).2

/-! ### The canonical form (log entry 11) -/

/-- Cells in canonical form that hold the same bytes are the same. -/
theorem cells_ext {lo hi : Nat} {m n : Cells} (hm : cellsWithin lo hi m = true) (hn : cellsWithin lo hi n = true)
    (h : ∀ a, cellAt m a = cellAt n a) : m = n := by
  induction m generalizing lo n with
  | nil =>
    cases n with
    | nil => rfl
    | cons c rest =>
      obtain ⟨a, v⟩ := c
      obtain ⟨-, -, hv, -⟩ := cellsWithin_cons.1 hn
      exact absurd (by simpa [cellAt] using (h a).symm) hv
  | cons c rest ih =>
    obtain ⟨a, v⟩ := c
    obtain ⟨-, hahi, hv, hrest⟩ := cellsWithin_cons.1 hm
    cases n with
    | nil => exact absurd (by simpa [cellAt] using h a) hv
    | cons c' rest' =>
      obtain ⟨b, w⟩ := c'
      obtain ⟨-, hbhi, hw, hrest'⟩ := cellsWithin_cons.1 hn
      have hab : a = b := by
        by_contra hne
        rcases Nat.lt_or_gt_of_ne hne with hlt | hgt
        · have ha := h a
          simp only [cellAt, if_pos, if_neg hne, cellAt_eq_zero_of_lt hrest' (Nat.lt_succ_of_lt hlt)] at ha
          exact hv ha
        · have hb := h b
          simp only [cellAt, if_pos, if_neg (Ne.symm hne), cellAt_eq_zero_of_lt hrest (Nat.lt_succ_of_lt hgt)] at hb
          exact hw hb.symm
      subst hab
      have hvw : v = w := by simpa [cellAt] using h a
      subst hvw
      refine congrArg _ (ih hrest hrest' fun c => ?_)
      by_cases hca : c = a
      · subst hca
        rw [cellAt_eq_zero_of_lt hrest (Nat.lt_succ_self c), cellAt_eq_zero_of_lt hrest' (Nat.lt_succ_self c)]
      · simpa [cellAt, hca] using h c

end Sys2Proof.Machine
end

section
/-! PROOFS. The statements about legal states, the start of a run and what HLT commits. -/

namespace Sys2Proof.Machine

/-- Settles O59: a step is a running engine's cycle or another event, and each keeps every part of the
invariant. -/
theorem invariantKeptByStep : Obligations.InvariantKeptByStep := by
  intro s t h hstep
  obtain ⟨host, drawn, u, rfl, hcases⟩ := step_next hstep
  have hu := h.setEvents host drawn
  rcases hcases with ⟨hrun, smp, hcycle⟩ | hboundary
  · exact (hu.sampleInputs smp).of_runInstruction hrun hcycle
  · exact hu.of_boundary hboundary

/-- Settles O60: a run of the empty images with the default parameters starts legal. -/
theorem invariantAtReset : Obligations.InvariantAtReset :=
  ⟨loaded_inv Params.standard_wf rfl rfl, rfl, rfl, rfl, rfl, rfl, rfl, rfl, rfl, rfl, rfl⟩

/-- Settles O40: by the limits of the two images. -/
theorem bootLoadsImages : Obligations.BootLoadsImages := by
  intro p hp
  obtain ⟨-, -, hbase, -, -⟩ := Params.wf_iff.1 hp
  refine ⟨fun code image hcode himage => ?loads, fun code image hbad => ?badCode,
    fun code image hcode hbad => ?badImage⟩
  case loads =>
    have hinv := loaded_inv hp (Memory.wf_cellsOfBytes hcode) (Drive.wf_ofBytes himage)
    exact ⟨_, startRun_ok hcode himage, rfl, reg_loaded _ _ _, rfl, rfl, rfl, rfl, rfl, rfl, rfl, rfl, rfl,
      fun a _ => driveByte_ofBytes _ image a, fun k _ => byte_loaded_in _, fun a ha => byte_loaded_out _ ha, hinv⟩
  case badCode =>
    rcases hbad with rfl | ⟨bytes, rfl, hlong⟩
    · rfl
    · exact startRun_code_too_long hbase hlong
  case badImage =>
    rcases hbad with rfl | ⟨bytes, rfl, hlong⟩
    · exact startRun_no_image hcode
    · exact startRun_image_too_long hcode hlong

/-- Settles O54: HLT's wait ends well only with the commit of HLT's own request, which holds the Drive. -/
theorem hltRetiresCommitted : Obligations.HltRetiresCommitted := by
  intro s t h hwait hstep hresumed
  have hrun : s.status ≠ .running := by rw [hwait]; nofun
  obtain ⟨host, drawn, hboundary⟩ := step_next_of_not_running hrun hstep
  cases hboundary with
  | retiresHlt r hw horigin =>
    have hfits := h.persist_fits
    rw [hwait] at hfits
    rcases Persist.fits_checkpointing_writing hfits hw with ⟨-, hsnapshot, -⟩ | ⟨hbackground, -⟩
    · exact ⟨hsnapshot, rfl, rfl⟩
    · exact absurd (horigin.symm.trans hbackground) nofun
  | idles | ticks | serves | commits | fails | failsInCls => exact absurd hresumed hrun
  | retiresCls hcls => exact absurd (hwait.symm.trans hcls) nofun
  | terminates | failsAndStops | retiresClsAndStops => exact absurd hresumed nofun

/-- Settles O41: a new run loads the backing image, which HLT's retirement has made the Drive. -/
theorem restartReloadsCommittedImage : Obligations.RestartReloadsCommittedImage := by
  intro s code h hcode
  refine ⟨⟨_, restart_ok hcode h.backing_len_le, rfl, rfl, rfl, rfl,
    reg_loaded s.params (cellsOfBytes s.params.codeBase code) s.persist.backing,
    fun k _ => byte_loaded_in s.persist.backing, rfl, rfl, rfl, ?legal⟩, fun u hwait hstep hresumed => ?afterHlt⟩
  case legal =>
    exact (loaded_inv h.params_wf (Memory.wf_cellsOfBytes hcode) h.backing_wf.1).setEvents s.host s.drawn
  case afterHlt =>
    obtain ⟨hbacking, -, -⟩ := hltRetiresCommitted s u h hwait hstep hresumed
    have hu := invariantKeptByStep s u h hstep
    have hparams : u.params = s.params := by
      have hrun : s.status ≠ .running := by rw [hwait]; nofun
      obtain ⟨host, drawn, hboundary⟩ := step_next_of_not_running hrun hstep
      exact hboundary.sameEngine.params
    exact ⟨_, restart_ok (hparams.symm ▸ hcode) hu.backing_len_le, hbacking⟩

/-- Settles O56: a commit is that of the write in flight, whose number stands between. -/
theorem commitsInSnapshotOrder : Obligations.CommitsInSnapshotOrder := by
  intro s t h hstep hne
  have hmoves := step_moves hstep
  generalize t.persist = q at hmoves hne ⊢
  cases hmoves with
  | keeps | submits | serves | fails => exact absurd rfl hne
  | commits r hw =>
    obtain ⟨hnewer, holder⟩ := h.legal.number_of_writing hw
    exact ⟨r, by rw [Persist.pending_of_writing hw]; exact List.mem_cons_self, rfl, hnewer, holder⟩

/-- Settles O58: cells in canonical form are determined by the bytes they hold. -/
theorem equalBytesAreEqualData : Obligations.EqualBytesAreEqualData := by
  refine ⟨fun size m n hm hn h => cells_ext hm hn h, fun d e hd he hlen h => ?drive⟩
  case drive =>
    obtain ⟨hdcells, -⟩ := Drive.wf_iff.1 hd
    obtain ⟨hecells, -⟩ := Drive.wf_iff.1 he
    obtain ⟨dlen, dcells⟩ := d
    obtain ⟨elen, ecells⟩ := e
    obtain rfl : dlen = elen := hlen
    exact congrArg _ (cells_ext hdcells hecells h)

end Sys2Proof.Machine
end
